-- ==== Sys2Proof/Word.lean ====
section
/-! DEFINITION. The words of the GFRS core: the byte (a field element, a payload byte) and the 32-bit word of a register or a
command (00_scope.md R9, 10_state.md R22). -/

namespace Sys2Proof

/-- R9: "A **byte** is 8 bits, a value `0..255`." -/
abbrev Byte := BitVec 8

/-- R22, R80: every register and every command word is 32 bits. -/
abbrev Word := BitVec 32

end Sys2Proof
end

