-- ==== Sys2Proof/Syntax.lean ====
section
/-! DEFINITION. The 15 commands of the GFRS core (30_encoding.md R84), one constructor for each row of spec/opcode_table.json,
with the operands of the formats N, S, M, C (R81, R82). -/

namespace Sys2Proof

/-- R82: `strat = cmd[24]`: 0 Vandermonde, 1 Cauchy. -/
inductive Strategy where
  | vandermonde
  | cauchy
  deriving DecidableEq, Repr

/-- R84: the commands. Field elements are bytes; matrix ids and fragment counts are unsigned numbers (R82), whose bounds are
checked in WellFormed.lean. -/
inductive Instr where
  /-- NOP, R200. -/
  | nop
  /-- GFMUL `a, b`, R110. -/
  | gfmul (a b : Byte)
  /-- GFDIV `a, b`, R111. -/
  | gfdiv (a b : Byte)
  /-- GFINV `a`, R112. -/
  | gfinv (a : Byte)
  /-- MATMUL `dst, s1, s2`, R130. -/
  | matmul (dst s1 s2 : Nat)
  /-- INVERT `dst, s1`, R131. -/
  | invert (dst s1 : Nat)
  /-- INIT `m, k, strat`, R150. -/
  | init (m k : Nat) (strat : Strategy)
  /-- DEINIT, R151. -/
  | deinit
  /-- GENDEC, R170. -/
  | gendec
  /-- RECON, R171. -/
  | recon
  /-- FRAME, R190. -/
  | frame
  /-- PARITY, R191. -/
  | parity
  /-- UNFRAME, R192. -/
  | unframe
  /-- ENCODE, R201. -/
  | encode
  /-- DECODE, R202. -/
  | decode
  deriving DecidableEq, Repr

/-- R84: the mnemonic of a command as the opcode table spells it. -/
def Instr.mnemonic : Instr → String
  | .nop => "NOP"
  | .gfmul _ _ => "GFMUL"
  | .gfdiv _ _ => "GFDIV"
  | .gfinv _ => "GFINV"
  | .matmul _ _ _ => "MATMUL"
  | .invert _ _ => "INVERT"
  | .init _ _ _ => "INIT"
  | .deinit => "DEINIT"
  | .gendec => "GENDEC"
  | .recon => "RECON"
  | .frame => "FRAME"
  | .parity => "PARITY"
  | .unframe => "UNFRAME"
  | .encode => "ENCODE"
  | .decode => "DECODE"

end Sys2Proof
end

