-- ==== Sys2Proof/WellFormed.lean ====
section
/-! DEFINITION. Which terms of Instr the formats of 30_encoding.md R81 can hold: a matrix id has 4 bits, a fragment count 8. -/

namespace Sys2Proof

/-- R81, format M: a matrix id is a 4-bit field. Ids 5 to 15 are encodable; the command refuses them (R82). -/
abbrev idFits (id : Nat) : Prop := id < 16

/-- R81, format C: a fragment count is an 8-bit field. -/
abbrev countFits (n : Nat) : Prop := n < 256

/-- R81: the operands fit their fields. -/
def Instr.WellFormed : Instr → Prop
  | .matmul dst s1 s2 => idFits dst ∧ idFits s1 ∧ idFits s2
  | .invert dst s1 => idFits dst ∧ idFits s1
  | .init m k _ => countFits m ∧ countFits k
  | .nop | .gfmul _ _ | .gfdiv _ _ | .gfinv _ | .deinit | .gendec | .recon | .frame | .parity | .unframe | .encode
  | .decode => True

/-- The check as a Bool, for tests. -/
def Instr.wellFormed : Instr → Bool
  | .matmul dst s1 s2 => decide (idFits dst) && decide (idFits s1) && decide (idFits s2)
  | .invert dst s1 => decide (idFits dst) && decide (idFits s1)
  | .init m k _ => decide (countFits m) && decide (countFits k)
  | .nop | .gfmul _ _ | .gfdiv _ _ | .gfinv _ | .deinit | .gendec | .recon | .frame | .parity | .unframe | .encode
  | .decode => true

end Sys2Proof
end

