-- ==== Sys2Proof/Decode.lean ====
section
/-! DEFINITION. Decoding and encoding of command words (30_encoding.md R80 to R86), total on every 32-bit word. -/

namespace Sys2Proof

/-- R85: why a word is illegal. -/
inductive DecodeError where
  /-- bits [7:0] are no opcode of R84 -/
  | unassignedOpcode (opcode : Nat)
  /-- the opcode is listed and a reserved bit is not 0 -/
  | reservedBits (opcode : Nat)
  deriving DecidableEq, Repr

/-- R9: `w[lo + width - 1 : lo]` as an unsigned number. -/
def field (w : Word) (lo width : Nat) : Nat := w.toNat / 2 ^ lo % 2 ^ width

/-- R82: a byte operand. -/
def byteField (w : Word) (lo : Nat) : Byte := BitVec.ofNat 8 (field w lo 8)

/-- R82: `strat = cmd[24]`. -/
def strategyField (w : Word) : Strategy := if field w 24 1 = 1 then .cauchy else .vandermonde

/-- R85: `i` if the bits of `w` from `lo` up are 0, else illegal. -/
def ifReservedZero (w : Word) (lo : Nat) (i : Instr) : Except DecodeError Instr :=
  if field w lo (32 - lo) = 0 then .ok i else .error (.reservedBits (field w 0 8))

/-- R83, R84, R85: the command a word stands for, or why it is illegal. The formats are those of R81: N reserves bits [31:8],
S [31:24] (GFINV [31:16]), M [31:20] (INVERT [31:16]), C [31:25]. -/
def decode (w : Word) : Except DecodeError Instr :=
  match field w 0 8 with
  | 0x00 => ifReservedZero w 8 .nop
  | 0x01 => ifReservedZero w 24 (.gfmul (byteField w 8) (byteField w 16))
  | 0x02 => ifReservedZero w 24 (.gfdiv (byteField w 8) (byteField w 16))
  | 0x03 => ifReservedZero w 16 (.gfinv (byteField w 8))
  | 0x10 => ifReservedZero w 20 (.matmul (field w 8 4) (field w 12 4) (field w 16 4))
  | 0x11 => ifReservedZero w 16 (.invert (field w 8 4) (field w 12 4))
  | 0x20 => ifReservedZero w 25 (.init (field w 8 8) (field w 16 8) (strategyField w))
  | 0x21 => ifReservedZero w 8 .deinit
  | 0x30 => ifReservedZero w 8 .gendec
  | 0x31 => ifReservedZero w 8 .recon
  | 0x40 => ifReservedZero w 8 .frame
  | 0x41 => ifReservedZero w 8 .parity
  | 0x42 => ifReservedZero w 8 .unframe
  | 0x50 => ifReservedZero w 8 .encode
  | 0x51 => ifReservedZero w 8 .decode
  | op => .error (.unassignedOpcode op)

/-- What the decoder answers for a word of the opcode table given as `nbits` bits numbered as the table numbers them. Every
command is one 32-bit word (R80), so the bits above `nbits` are 0 and a number that needs more than 32 bits is no command. -/
def decodeTableWord (nbits w : Nat) : Option Instr :=
  if w % 2 ^ nbits < 2 ^ 32 then (decode (BitVec.ofNat 32 (w % 2 ^ nbits))).toOption else none

/-- R82: the bit of a strategy. -/
def strategyBit : Strategy → Nat
  | .vandermonde => 0
  | .cauchy => 1

/-- R81: format N. -/
def formatN (opcode : Nat) : Word := BitVec.ofNat 32 opcode

/-- R81: format S, `{0, b, a, opcode}`. -/
def formatS (opcode : Nat) (a b : Byte) : Word := BitVec.ofNat 32 (opcode + a.toNat * 2 ^ 8 + b.toNat * 2 ^ 16)

/-- R81: format M, `{0, s2, s1, dst, opcode}`. -/
def formatM (opcode dst s1 s2 : Nat) : Word := BitVec.ofNat 32 (opcode + dst * 2 ^ 8 + s1 * 2 ^ 12 + s2 * 2 ^ 16)

/-- R81: format C, `{0, strat, k, m, opcode}`. -/
def formatC (opcode m k : Nat) (strat : Strategy) : Word :=
  BitVec.ofNat 32 (opcode + m * 2 ^ 8 + k * 2 ^ 16 + strategyBit strat * 2 ^ 24)

/-- R87: the word of a well-formed command. -/
def encode : Instr → Word
  | .nop => formatN 0x00
  | .gfmul a b => formatS 0x01 a b
  | .gfdiv a b => formatS 0x02 a b
  | .gfinv a => formatS 0x03 a 0#8
  | .matmul dst s1 s2 => formatM 0x10 dst s1 s2
  | .invert dst s1 => formatM 0x11 dst s1 0
  | .init m k strat => formatC 0x20 m k strat
  | .deinit => formatN 0x21
  | .gendec => formatN 0x30
  | .recon => formatN 0x31
  | .frame => formatN 0x40
  | .parity => formatN 0x41
  | .unframe => formatN 0x42
  | .encode => formatN 0x50
  | .decode => formatN 0x51

/-- One row of R84's table. -/
structure OpcodeRow where
  mnemonic : String
  matchWord : Word
  mask : Word
  deriving DecidableEq, Repr

/-- R84: the table as the spec prints it, with `match` and `mask`. The decoder above does not use it: that the two agree is
a statement about them (R83). -/
def opcodeTable : List OpcodeRow :=
  [ ⟨"NOP", 0x00000000, 0xFFFFFFFF⟩,
    ⟨"GFMUL", 0x00000001, 0xFF0000FF⟩,
    ⟨"GFDIV", 0x00000002, 0xFF0000FF⟩,
    ⟨"GFINV", 0x00000003, 0xFFFF00FF⟩,
    ⟨"MATMUL", 0x00000010, 0xFFF000FF⟩,
    ⟨"INVERT", 0x00000011, 0xFFFF00FF⟩,
    ⟨"INIT", 0x00000020, 0xFE0000FF⟩,
    ⟨"DEINIT", 0x00000021, 0xFFFFFFFF⟩,
    ⟨"GENDEC", 0x00000030, 0xFFFFFFFF⟩,
    ⟨"RECON", 0x00000031, 0xFFFFFFFF⟩,
    ⟨"FRAME", 0x00000040, 0xFFFFFFFF⟩,
    ⟨"PARITY", 0x00000041, 0xFFFFFFFF⟩,
    ⟨"UNFRAME", 0x00000042, 0xFFFFFFFF⟩,
    ⟨"ENCODE", 0x00000050, 0xFFFFFFFF⟩,
    ⟨"DECODE", 0x00000051, 0xFFFFFFFF⟩ ]

/-- R83: `w AND mask` equals `match`. -/
def OpcodeRow.accepts (r : OpcodeRow) (w : Word) : Bool := w &&& r.mask == r.matchWord

end Sys2Proof
end

