-- ==== Sys2Proof/Config.lean ====
section
/-! DEFINITION. What an implementation of the GFRS core fixes (00_scope.md R7) and the free values the spec leaves open (R13,
93_implementation_defined.md). The parameters are a record the State carries (log 1); the free values have no body. -/

namespace Sys2Proof

/-- R7: the parameters of the block. `KMAX = MMAX - 1` and `PSIZE = KMAX * LMAX` are derived. -/
structure Params where
  /-- `POLY`, the irreducible polynomial as a 9-bit number, bit `i` the coefficient of `x^i`. -/
  poly : BitVec 9
  /-- `PAD`, the pad marker byte. -/
  pad : Byte
  /-- `MMAX`, the largest fragment count. -/
  mmax : Nat
  /-- `LMAX`, the largest fragment length in bytes. -/
  lmax : Nat
  /-- `HAS_CAUCHY`, whether the Cauchy generator strategy is present. -/
  hasCauchy : Bool
  deriving DecidableEq, Repr

/-- R7: `KMAX = MMAX - 1`. -/
def Params.kmax (p : Params) : Nat := p.mmax - 1

/-- R7: `PSIZE = KMAX × LMAX`. -/
def Params.psize (p : Params) : Nat := p.kmax * p.lmax

/-- The remainder of the polynomial `p` (degree at most 8) by the polynomial `d`, both as numbers. -/
def polyRemainder (d p : Nat) : Nat :=
  [8, 7, 6, 5, 4, 3, 2, 1].foldl
    (fun q i => if d.log2 ≤ i ∧ q.testBit i = true then q ^^^ (d <<< (i - d.log2)) else q) p

/-- R7: "irreducible of degree 8 over GF(2)": bit 8 is set and no polynomial of degree 1 to 4 divides it, the numbers 2 to 31
(a proper factor of least degree has degree at most 4; DEDUCED, log 14). -/
def irreducibleOfDegree8 (poly : BitVec 9) : Bool :=
  poly.getLsbD 8 && (List.range 32).all fun d => decide (d < 2) || decide (polyRemainder d poly.toNat ≠ 0)

/-- R180: the ASCII digits `0x30` to `0x39`. -/
def isDigit (b : Byte) : Bool := decide (0x30 ≤ b.toNat) && decide (b.toNat ≤ 0x39)

/-- R7: the constraints on the parameters. -/
abbrev Params.Valid (p : Params) : Prop :=
  irreducibleOfDegree8 p.poly = true ∧ isDigit p.pad = false ∧ 2 ≤ p.mmax ∧ p.mmax ≤ 255 ∧ 1 ≤ p.lmax ∧ p.lmax ≤ 2 ^ 20

/-- R7: the reference values, which the test vectors of 95_test_vectors.md use. -/
def Params.reference : Params :=
  { poly := 0x11D#9, pad := 0x02#8, mmax := 255, lmax := 65536, hasCauchy := true }

/-- FREE VALUE (U1, R13, R257): what a draw at time `epoch` of the unspecified byte at bus address `address` gives. It has no
body, so nothing is known of it. -/
opaque Config.freeByte (epoch address : Nat) : Byte

/-- FREE VALUE (U10, R61): the data of a 4-byte read answered `ERROR` at time `epoch`. -/
opaque Config.freeWord (epoch : Nat) : Word

/-- FREE VALUE (U12, R72, R75): how many host transactions are answered while the command started at time `epoch` runs. -/
opaque Config.busyWindow (epoch : Nat) : Nat

end Sys2Proof
end

