-- ==== Sys2Proof/Machine/State.lean ====
section
/-! DEFINITION. The state of the GFRS core as plain data (10_state.md), the events of the outside world (20_memory.md R61,
70_reset_and_hazards.md R250), and the state after reset (R50). -/

namespace Sys2Proof.Machine

/-- R220: the typed failures of a command. -/
inductive CommandError where
  | invalidConfiguration
  | allocationFailure
  | singularMatrix
  | noInvertibleSubmatrix
  | tooManyErrors
  | framingCorruption
  | fieldInverseOfZero
  | notConfigured
  | illegalCommand
  | missingOperand
  deriving DecidableEq, Repr

/-- R220: the result of a command, the content of `STATUS.ERR`. -/
inductive ResultCode where
  | ok
  | failed (e : CommandError)
  deriving DecidableEq, Repr

/-- R61: the widths of a transaction, `n ∈ {1, 4}`. -/
inductive Width where
  | one
  | four
  deriving DecidableEq, Repr

/-- R61: the data of a transaction; its constructor is its width. -/
inductive Data where
  | byte (b : Byte)
  | word (w : Word)
  deriving DecidableEq, Repr

/-- R61, R250: what the outside world can do to the block. -/
inductive HostEvent where
  /-- `MemRead(addr, n)` -/
  | memRead (addr : Word) (n : Width)
  /-- `MemWrite(addr, n, v)`, `n` the width of `v` -/
  | memWrite (addr : Word) (v : Data)
  /-- the platform resets the block -/
  | reset
  deriving DecidableEq, Repr

/-- R61: the answer to a transaction. The data of a read answered `ERROR` are unspecified (U10). -/
inductive Response where
  /-- a write answered `OKAY` -/
  | okay
  /-- a read answered `OKAY` -/
  | okayData (d : Data)
  /-- a write answered `ERROR` -/
  | error
  /-- a read answered `ERROR` -/
  | errorData (d : Data)
  deriving DecidableEq, Repr

/-- The memories `G`, `B`, `BINV`, `D`, `T`, `ERRL`, `DIDX`, `FRAG`, `PAY` (R40 to R45): the specified bytes, each under its host
bus address (R60 to R66), addresses strictly rising. A byte that is not listed is unspecified (R50, U1; log 4). -/
abbrev Memory := List Host.Cell

/-- The state of the block (10_state.md), and the model's own fields. -/
structure State where
  /-- R7: the parameters; the model's own field, which no step changes (log 1) -/
  params : Params
  /-- `CMD`, R23 -/
  cmd : Word
  /-- `STATUS.BUSY`, R24 -/
  busy : Bool
  /-- `STATUS.CFGV`, R24 -/
  cfgv : Bool
  /-- `STATUS.DV`, R24, R34 -/
  dv : Bool
  /-- `STATUS.ERR`, R24, R220 -/
  err : ResultCode
  /-- `ESTICKY`, R25 -/
  esticky : Word
  /-- `EINFO`, R26 -/
  einfo : Word
  /-- `RES[7:0]`, R27 -/
  res : Byte
  /-- `CFG.M`, R28 -/
  cfgM : Byte
  /-- `CFG.K`, R28 -/
  cfgK : Byte
  /-- `CFG.STRAT`, R28 -/
  cfgStrat : Strategy
  /-- `L[20:0]`, R29 -/
  len : BitVec 21
  /-- `PLEN`, R30 -/
  plen : Word
  /-- `DIM1[7:0]`, R31 -/
  dim1 : Byte
  /-- `DIM2[7:0]`, R31 -/
  dim2 : Byte
  /-- `DIM3[7:0]`, R31 -/
  dim3 : Byte
  /-- `NERRS[7:0]`, R32 -/
  nerrs : Byte
  /-- `NSRCERRS[7:0]`, R32 -/
  nsrcerrs : Byte
  /-- `PRESENT0..7`, R33: bit `i` is `PRESENT[i]` -/
  present : BitVec 256
  /-- the memories, R40 to R45 -/
  mem : Memory
  /-- the events still to come, in order; the model's own field (log 2) -/
  host : List HostEvent
  /-- the answers given, newest first; the model's own field (log 2) -/
  responses : List Response
  /-- how many transactions are still answered before the running command ends; the model's own field (log 3) -/
  busyLeft : Nat
  /-- the counter of the draws of free values; the model's own field (log 4) -/
  epoch : Nat
  deriving DecidableEq, Repr

/-- The reasons for which a step stops with a fault: there are none. Every failure of the block is a typed result in
`STATUS.ERR` after which it goes on (R221, R224, R226), every command ends (R259), and `stuck` is "used nowhere" (U12); log 16. -/
inductive Fault where
  deriving DecidableEq, Repr

/-- The reasons for which a step is refused. -/
inductive Refusal where
  /-- raised by exec's arm of a command that has no meaning yet; safe -/
  | notModelled (mnemonic : String)
  deriving DecidableEq, Repr

/-- R50, R250: the state after reset. Every register is 0 and every byte of memory unspecified. The model's own fields: the
reference parameters (log 1), nothing done or asked yet (log 2), no draw made (log 3, log 4). -/
def State.reset : State :=
  { params := Params.reference
    cmd := 0#32
    busy := false
    cfgv := false
    dv := false
    err := .ok
    esticky := 0#32
    einfo := 0#32
    res := 0#8
    cfgM := 0#8
    cfgK := 0#8
    cfgStrat := .vandermonde
    len := 0#21
    plen := 0#32
    dim1 := 0#8
    dim2 := 0#8
    dim3 := 0#8
    nerrs := 0#8
    nsrcerrs := 0#8
    present := 0#256
    mem := []
    host := []
    responses := []
    busyLeft := 0
    epoch := 0 }

end Sys2Proof.Machine
end

