-- ==== Sys2Proof/Machine/Flags.lean ====
section
/-! DEFINITION. The status, error and presence fields of the GFRS core: result codes (60_exceptions.md R220), the words the
registers `STATUS` and `CFG` read as (10_state.md R24, R28), the sticky bits (R25), the presence bits (R33). -/

namespace Sys2Proof.Machine

/-- R220: the code of an error. -/
def CommandError.code : CommandError → Nat
  | .invalidConfiguration => 1
  | .allocationFailure => 2
  | .singularMatrix => 3
  | .noInvertibleSubmatrix => 4
  | .tooManyErrors => 5
  | .framingCorruption => 6
  | .fieldInverseOfZero => 7
  | .notConfigured => 8
  | .illegalCommand => 9
  | .missingOperand => 10

/-- R220: the code of a result, 0 for `OK`. -/
def ResultCode.code : ResultCode → Nat
  | .ok => 0
  | .failed e => e.code

/-- R24: `STATUS` as the host reads it. -/
def State.statusWord (s : State) : Word :=
  BitVec.ofNat 32 (s.busy.toNat + s.cfgv.toNat * 2 + s.dv.toNat * 4 + s.err.code * 2 ^ 8)

/-- R28: `CFG.STRAT` as a bit. -/
def strategyNumber : Strategy → Nat
  | .vandermonde => 0
  | .cauchy => 1

/-- R28: `CFG` as the host reads it. -/
def State.cfgWord (s : State) : Word :=
  BitVec.ofNat 32 (s.cfgM.toNat + s.cfgK.toNat * 2 ^ 8 + strategyNumber s.cfgStrat * 2 ^ 16)

/-- R25: the sticky bit of an error, bit `code`. -/
def CommandError.stickyBit (e : CommandError) : Word := 1#32 <<< e.code

/-- The presence vector whose bits below `n` are 1. -/
def presenceBelow (n : Nat) : BitVec 256 := BitVec.ofNat 256 (2 ^ n - 1)

/-- R33: `PRESENT[i]`. -/
def State.isPresent (s : State) (i : Nat) : Bool := s.present.getLsbD i

/-- R33: the vector with `PRESENT[i]` set. -/
def setPresent (p : BitVec 256) (i : Nat) : BitVec 256 := p ||| (1#256 <<< i)

/-- R33: the vector with `PRESENT[i]` set for `lo ≤ i < hi`. -/
def setPresentRange (p : BitVec 256) (lo hi : Nat) : BitVec 256 := p ||| (presenceBelow hi &&& ~~~presenceBelow lo)

/-- R33: the vector with `PRESENT[i]` cleared for `lo ≤ i < hi`. -/
def clearPresentRange (p : BitVec 256) (lo hi : Nat) : BitVec 256 := p &&& ~~~(presenceBelow hi &&& ~~~presenceBelow lo)

/-- R33: `PRESENTw` as the host reads it. -/
def presentWord (p : BitVec 256) (w : Nat) : Word := (p >>> (32 * w)).setWidth 32

/-- R33: the vector after a host write of `v` to `PRESENTw`; bits `i ≥ MMAX` ignore the write and stay 0. -/
def writePresentWord (mmax : Nat) (p : BitVec 256) (w : Nat) (v : Word) : BitVec 256 :=
  ((p &&& ~~~(0xFFFFFFFF#256 <<< (32 * w))) ||| (v.setWidth 256 <<< (32 * w))) &&& presenceBelow mmax

end Sys2Proof.Machine
end

