-- ==== Sys2Proof/Machine/Ops.lean ====
section
/-! DEFINITION. The shared operations of the GFRS core over its memories (20_memory.md R60 to R66) and the two ways a command
ends: without error, and by `raise` (60_exceptions.md R224). -/

namespace Sys2Proof.Machine

/-! ## Memory -/

/-- The canonical form: addresses strictly rising. An unlisted byte has no value, so no entry can equal it. -/
abbrev Memory.wf (m : Memory) : Prop := m.Pairwise fun c d => c.1 < d.1

/-- The byte at an address, or `none` where it is unspecified (R50, U1). -/
def Memory.byteAt : Memory → Nat → Option Byte
  | [], _ => none
  | c :: m, a => if c.1 = a then some c.2 else Memory.byteAt m a

/-- The entries of `n` bytes from `base` on, byte `o` holding `f o`; an unspecified byte has none. -/
def Memory.cells (base n : Nat) (f : Nat → Option Byte) : Memory :=
  (List.range n).filterMap fun o => (f o).map fun v => (base + o, v)

/-- The one write of memory: bytes `base` to `base + n - 1` become `f 0` to `f (n - 1)`, where `none` makes a byte unspecified;
every other byte keeps its content. -/
def Memory.fill (m : Memory) (base n : Nat) (f : Nat → Option Byte) : Memory :=
  (m.filter fun c => decide (c.1 < base)) ++ Memory.cells base n f ++ (m.filter fun c => decide (base + n ≤ c.1))

/-- `rows` ranges of `cols` bytes, row `i` at `base + i * stride` holding `f i 0` to `f i (cols - 1)`. -/
def Memory.fillBlock (m : Memory) (base stride cols : Nat) (f : Nat → Nat → Option Byte) : Nat → Memory
  | 0 => m
  | rows + 1 => (Memory.fillBlock m base stride cols f rows).fill (base + rows * stride) cols (f rows)

/-- R64: the bus address of `MAT[id][i][j]`, `{1, 0, id, i, j}`. -/
def matAddr (id i j : Nat) : Nat := 0x10000000 + id * 2 ^ 16 + i * 2 ^ 8 + j

/-- R65: the bus address of `LIST[id][p]`, `{2, 0, id, p}`. -/
def listAddr (id p : Nat) : Nat := 0x20000000 + id * 2 ^ 8 + p

/-- R66: the bus address of `FRAG[i][o]`, `{3, i, o}`. -/
def fragAddr (i o : Nat) : Nat := 0x30000000 + i * 2 ^ 20 + o

/-- R66: the bus address of `PAY[o]`, `{4, o}`. -/
def payAddr (o : Nat) : Nat := 0x40000000 + o

/-- R40: the ids of the matrix memories. -/
def idG : Nat := 0
/-- R40 -/
def idB : Nat := 1
/-- R40 -/
def idBinv : Nat := 2
/-- R40 -/
def idD : Nat := 3
/-- R40 -/
def idT : Nat := 4
/-- R42: the ids of the list memories. -/
def idErrl : Nat := 0
/-- R42 -/
def idDidx : Nat := 1

/-- R120: the top-left `rows × cols` corner of matrix memory `id` becomes `f`; other elements keep their content. -/
def Memory.fillMatrix (m : Memory) (id rows cols : Nat) (f : Nat → Nat → Option Byte) : Memory :=
  m.fillBlock (matAddr id 0 0) (2 ^ 8) cols f rows

/-- R42: the first `n` positions of list memory `id` become `f`. -/
def Memory.fillList (m : Memory) (id n : Nat) (f : Nat → Option Byte) : Memory := m.fill (listAddr id 0) n f

/-- R43: bytes `[0..n)` of fragment buffer `i` become `f`. -/
def Memory.fillFragment (m : Memory) (i n : Nat) (f : Nat → Option Byte) : Memory := m.fill (fragAddr i 0) n f

/-- R43: bytes `[0..n)` of the `count` fragment buffers from `first` on become `f 0`, `f 1`, … -/
def Memory.fillFragments (m : Memory) (first count n : Nat) (f : Nat → Nat → Option Byte) : Memory :=
  m.fillBlock (fragAddr first 0) (2 ^ 20) n f count

/-- R45: bytes `[0..n)` of the payload memory become `f`. -/
def Memory.fillPayload (m : Memory) (n : Nat) (f : Nat → Option Byte) : Memory := m.fill (payAddr 0) n f

/-- R41: all of `G`, every row of 256 addresses, becomes unspecified. -/
def Memory.forgetG (m : Memory) : Memory :=
  m.filter fun c => !(decide (matAddr idG 0 0 ≤ c.1) && decide (c.1 < matAddr idG 0 0 + 2 ^ 16))

/-- The content of the byte at a bus address, `none` where it is unspecified. -/
def State.valueAt (s : State) (a : Nat) : Option Byte := s.mem.byteAt a

/-- A draw of the byte at a bus address: its content, or where it is unspecified a free value (U1, R257; log 4). -/
def State.sample (s : State) (a : Nat) : Byte := (s.valueAt a).getD (Config.freeByte s.epoch a)

/-- `s` with another memory. -/
def State.withMem (s : State) (m : Memory) : State := { s with mem := m }

/-! ## How a command ends -/

/-- R224: what a command's own operation comes to, before its end is reported: the state with its results, or an error with its
`EINFO` detail and the state written before the `raise`. -/
inductive CommandEnd where
  | ok (s : State)
  | error (e : CommandError) (info : Nat) (s : State)

/-- R224: "A command that ends without `raise` ends by `STATUS.ERR <- 0; BUSY <- 0` and leaves `EINFO` and `ESTICKY`
unchanged." The next draw is a fresh one. -/
def State.finish (s : State) : State := { s with err := .ok, busy := false, busyLeft := 0, epoch := s.epoch + 1 }

/-- R224: `raise E(info)`: `STATUS.ERR`, `EINFO`, the sticky bit, `BUSY`. Nothing else of the block changes. -/
def State.raise (s : State) (e : CommandError) (info : Nat) : State :=
  { s with
    err := .failed e
    einfo := BitVec.ofNat 32 info
    esticky := s.esticky ||| e.stickyBit
    busy := false
    busyLeft := 0
    epoch := s.epoch + 1 }

/-- R224: the end of a command. Both ends are next states: the block goes on after any error (R226). -/
def CommandEnd.report : CommandEnd → Host.Outcome State Fault Refusal
  | .ok s => .next s.finish
  | .error e info s => .next (s.raise e info)

/-- R85: an illegal word "starts a command that changes nothing and ends `IllegalCommand` with `EINFO = 0`". -/
def illegalWord (s : State) : Host.Outcome State Fault Refusal := (CommandEnd.error .illegalCommand 0 s).report

end Sys2Proof.Machine
end

