-- ==== Sys2Proof/Machine/Bus.lean ====
section
/-! DEFINITION. Host transactions (20_memory.md R60 to R76) and reset (70_reset_and_hazards.md R250, R251). -/

namespace Sys2Proof.Machine

/-- R22: the registers by name. -/
inductive RegName where
  | cmd
  | status
  | esticky
  | einfo
  | res
  | cfg
  | len
  | plen
  | dim1
  | dim2
  | dim3
  | nerrs
  | nsrcerrs
  /-- `PRESENTw`, `w < 8` -/
  | present (w : Nat)
  deriving DecidableEq, Repr

/-- R22, R63: the register at a byte offset of space REG; `none` is a misaligned or reserved offset. -/
def regAtOffset (index : Nat) : Option RegName :=
  match index with
  | 0x00 => some .cmd
  | 0x04 => some .status
  | 0x08 => some .esticky
  | 0x0C => some .einfo
  | 0x10 => some .res
  | 0x14 => some .cfg
  | 0x18 => some .len
  | 0x1C => some .plen
  | 0x20 => some .dim1
  | 0x24 => some .dim2
  | 0x28 => some .dim3
  | 0x2C => some .nerrs
  | 0x30 => some .nsrcerrs
  | i => if 0x40 ≤ i ∧ i < 0x60 ∧ i % 4 = 0 then some (.present ((i - 0x40) / 4)) else none

/-- R60: what a legal address names: a register, or a byte of one of the four byte spaces. -/
inductive Place where
  | reg (r : RegName)
  | mat (id i j : Nat)
  | list (id p : Nat)
  | frag (i o : Nat)
  | pay (o : Nat)
  deriving DecidableEq, Repr

/-- R62: `space = addr[31:28]`. -/
def addrSpace (addr : Word) : Nat := addr.toNat / 2 ^ 28

/-- R62: `index = addr[27:0]`. -/
def addrIndex (addr : Word) : Nat := addr.toNat % 2 ^ 28

/-- R63 to R67, R76: the place a transaction of width `n` at `addr` reaches; `none` is a reserved address or a wrong width. -/
def placeAt (p : Params) (addr : Word) (n : Width) : Option Place :=
  let index := addrIndex addr
  match addrSpace addr, n with
  | 0, .four => (regAtOffset index).map .reg
  | 1, .one =>
    let id := index / 2 ^ 16
    let i := index / 2 ^ 8 % 2 ^ 8
    let j := index % 2 ^ 8
    if id ≤ 4 ∧ i < p.mmax ∧ j < p.mmax then some (.mat id i j) else none
  | 2, .one =>
    let id := index / 2 ^ 8
    let q := index % 2 ^ 8
    if id ≤ 1 ∧ q < p.mmax then some (.list id q) else none
  | 3, .one =>
    let i := index / 2 ^ 20
    let o := index % 2 ^ 20
    if i < p.mmax ∧ o < p.lmax then some (.frag i o) else none
  | 4, .one => if index < p.psize then some (.pay index) else none
  | _, _ => none

/-- The bus address of a byte place. -/
def Place.byteAddr : Place → Option Nat
  | .reg _ => none
  | .mat id i j => some (matAddr id i j)
  | .list id p => some (listAddr id p)
  | .frag i o => some (fragAddr i o)
  | .pay o => some (payAddr o)

/-- R64, R65, R70: whether the host may write a byte place: not `G`, not the lists. -/
def Place.hostWritable : Place → Bool
  | .reg _ => false
  | .mat id _ _ => decide (id ≠ idG)
  | .list _ _ => false
  | .frag _ _ => true
  | .pay _ => true

/-- R22 to R33, R63: a register as the host reads it, "with its unnamed bits 0". -/
def State.readReg (s : State) : RegName → Word
  | .cmd => s.cmd
  | .status => s.statusWord
  | .esticky => s.esticky
  | .einfo => s.einfo
  | .res => s.res.setWidth 32
  | .cfg => s.cfgWord
  | .len => s.len.setWidth 32
  | .plen => s.plen
  | .dim1 => s.dim1.setWidth 32
  | .dim2 => s.dim2.setWidth 32
  | .dim3 => s.dim3.setWidth 32
  | .nerrs => s.nerrs.setWidth 32
  | .nsrcerrs => s.nsrcerrs.setWidth 32
  | .present w => presentWord s.present w

/-- R23, R89: a write of `CMD` stores the word and starts the command. How many transactions it will keep waiting is free (log 3). -/
def State.startCommand (s : State) (w : Word) : State :=
  { s with cmd := w, busy := true, busyLeft := Config.busyWindow s.epoch }

/-- R63: a host write of a register; `none` is the `ERROR` of a read-only register. -/
def State.writeReg (s : State) (r : RegName) (v : Word) : Option State :=
  match r with
  | .cmd => some (s.startCommand v)
  | .esticky => some { s with esticky := s.esticky &&& ~~~v }
  | .len => some { s with len := v.setWidth 21 }
  | .plen => some { s with plen := v }
  | .dim1 => some { s with dim1 := v.setWidth 8 }
  | .dim2 => some { s with dim2 := v.setWidth 8 }
  | .dim3 => some { s with dim3 := v.setWidth 8 }
  | .present w => some { s with present := writePresentWord s.params.mmax s.present w v, dv := false }
  | .status | .einfo | .res | .cfg | .nerrs | .nsrcerrs => none

/-- R75: the one transaction that is not refused while a command runs, `MemRead` of `STATUS`. -/
def isStatusRead (p : Params) (addr : Word) (n : Width) : Bool := decide (placeAt p addr n = some (.reg .status))

/-- R61 to R66, R75: the data of a read, or `none` for `ERROR`. A byte that is unspecified is drawn (U1). -/
def State.hostRead (s : State) (addr : Word) (n : Width) : Option Data :=
  if s.busy = true ∧ isStatusRead s.params addr n = false then none
  else
    match placeAt s.params addr n with
    | none => none
    | some (.reg r) => some (.word (s.readReg r))
    | some place => place.byteAddr.map fun a => .byte (s.sample a)

/-- R61: the width of data. -/
def Data.width : Data → Width
  | .byte _ => .one
  | .word _ => .four

/-- R66: the byte of one-byte data. (A word never reaches a byte place, R67.) -/
def Data.toByte : Data → Byte
  | .byte b => b
  | .word w => w.setWidth 8

/-- R63: the word of four-byte data. -/
def Data.toWord : Data → Word
  | .byte b => b.setWidth 32
  | .word w => w

/-- R64, R66: a host write of a byte. -/
def Memory.store (m : Memory) (a : Nat) (b : Byte) : Memory := m.fill a 1 fun _ => some b

/-- R61 to R66, R75: the state after a write, or `none` for `ERROR`. -/
def State.hostWrite (s : State) (addr : Word) (v : Data) : Option State :=
  if s.busy then none
  else
    match placeAt s.params addr v.width with
    | none => none
    | some (.reg r) => s.writeReg r v.toWord
    | some place =>
      if place.hostWritable then place.byteAddr.map fun a => s.withMem (s.mem.store a v.toByte) else none

/-- U10: the unspecified data of a read answered `ERROR`. -/
def State.freeData (s : State) (addr : Word) : Width → Data
  | .one => .byte (Config.freeByte s.epoch addr.toNat)
  | .four => .word (Config.freeWord s.epoch)

/-- R61: the answer is delivered; the next draw is a fresh one. -/
def State.respond (s : State) (r : Response) : State := { s with responses := r :: s.responses, epoch := s.epoch + 1 }

/-- R250, R251: reset, also while a command runs: registers at their reset values, every byte of memory unspecified. The
parameters, the events still to come and the answers already given are not the block's (log 12). -/
def State.resetBlock (s : State) : State :=
  { State.reset with params := s.params, host := s.host, responses := s.responses, epoch := s.epoch + 1 }

/-- R61: one event of the outside world. "A transaction with response `ERROR` changes no state." -/
def State.serve (s : State) : HostEvent → State
  | .memRead addr n =>
    match s.hostRead addr n with
    | some d => s.respond (.okayData d)
    | none => s.respond (.errorData (s.freeData addr n))
  | .memWrite addr v =>
    match s.hostWrite addr v with
    | some t => t.respond .okay
    | none => s.respond .error
  | .reset => s.resetBlock

end Sys2Proof.Machine
end

