-- ==== Sys2Proof/Machine/Gf.lean ====
section
/-! DEFINITION. The field GF(2^8) (41_gf256_field.md R100 to R106), and its two operations lifted to bytes that may be
unspecified (70_reset_and_hazards.md R257). -/

namespace Sys2Proof.Machine

/-- R102: the 15-bit carry-less product. -/
def clmul (a b : Byte) : BitVec 15 :=
  (List.range 8).foldl (fun p i => if b.getLsbD i then p ^^^ (a.setWidth 15 <<< i) else p) 0#15

/-- R102: the reduction, "clear bit i with POLY shifted" from bit 14 down to bit 8. -/
def reduce (poly : BitVec 9) (p : BitVec 15) : BitVec 15 :=
  [14, 13, 12, 11, 10, 9, 8].foldl (fun p i => if p.getLsbD i then p ^^^ (poly.setWidth 15 <<< (i - 8)) else p) p

/-- R102: `mul(a, b)`. -/
def mul (poly : BitVec 9) (a b : Byte) : Byte := (reduce poly (clmul a b)).setWidth 8

/-- R106: `gpow(a, e)`. -/
def gpow (poly : BitVec 9) (a : Byte) : Nat → Byte
  | 0 => 1#8
  | e + 1 => mul poly (gpow poly a e) a

/-- `gpow(a, 2^n - 1)`, by squaring. -/
def gpowOnes (poly : BitVec 9) (a : Byte) : Nat → Byte
  | 0 => 1#8
  | n + 1 => mul poly (mul poly (gpowOnes poly a n) (gpowOnes poly a n)) a

/-- R104: `inverse(a)` by Fermat, `a^254 = (a^127)^2` (R107 leaves the method free); "the zero test is part of the inverter", so
0 has none (U2). -/
def inverse (poly : BitVec 9) (a : Byte) : Option Byte :=
  if a = 0#8 then none else some (mul poly (gpowOnes poly a 7) (gpowOnes poly a 7))

/-- R105: `gdiv(a, b) = mul(a, inverse(b))`; it does not exist for `b = 0`. -/
def gdiv (poly : BitVec 9) (a b : Byte) : Option Byte := (inverse poly b).map (mul poly a)

/-- R12: `XOR_{j<n} f(j)`. -/
def xorSum (f : Nat → Byte) : Nat → Byte
  | 0 => 0#8
  | n + 1 => xorSum f n ^^^ f n

/-- `mul` where an operand may be unspecified: the product is unspecified unless the other operand is 0, which makes it 0
whatever the byte is (R103 `mul(a, 0) = 0`, R257; log 5). -/
def mulValue (poly : BitVec 9) (a b : Option Byte) : Option Byte :=
  match a, b with
  | some x, some y => some (mul poly x y)
  | some x, none => if x = 0#8 then some 0#8 else none
  | none, some y => if y = 0#8 then some 0#8 else none
  | none, none => none

/-- Field addition (R101) where an operand may be unspecified. -/
def addValue (a b : Option Byte) : Option Byte :=
  match a, b with
  | some x, some y => some (x ^^^ y)
  | _, _ => none

/-- `XOR_{j<n} f(j)` where a term may be unspecified. -/
def xorSumValue (f : Nat → Option Byte) : Nat → Option Byte
  | 0 => some 0#8
  | n + 1 => addValue (xorSumValue f n) (f n)

end Sys2Proof.Machine
end

