-- ==== Sys2Proof/Machine/Linear.lean ====
section
/-! DEFINITION. Matrices over GF(2^8) and Gauss-Jordan elimination (42_matrix_algebra.md R120 to R125). -/

namespace Sys2Proof.Machine

/-- R120: a matrix, row by row. -/
abbrev Matrix := List (List Byte)

/-- R120: element `[i][j]`. -/
def Matrix.at (M : Matrix) (i j : Nat) : Byte := (M.getD i []).getD j 0#8

/-- The `rows × cols` matrix with element `[i][j] = f i j`. -/
def Matrix.tabulate (rows cols : Nat) (f : Nat → Nat → Byte) : Matrix :=
  (List.range rows).map fun i => (List.range cols).map fun j => f i j

/-- R120: `identity(n)`, element by element. -/
def identityAt (i j : Nat) : Byte := if i = j then 1#8 else 0#8

/-- R121: `matmul(A, B)[i][j]` for an inner dimension `n`. -/
def dot (poly : BitVec 9) (n : Nat) (A B : Nat → Nat → Byte) (i j : Nat) : Byte :=
  xorSum (fun t => mul poly (A i t) (B t j)) n

/-- R124: row `i` of the working copy `W` with row `i` of `V`; every row operation acts on both. -/
abbrev RowPair := List Byte × List Byte

/-- R124: "the least row index with c <= p < n and W[p][c] != 0". -/
def findPivot (n c : Nat) (rows : List RowPair) : Option Nat :=
  (List.range n).find? fun p => decide (c ≤ p) && decide ((rows.getD p ([], [])).1.getD c 0#8 ≠ 0#8)

/-- R124: "swap rows p and c". -/
def swapRows (c p : Nat) (rows : List RowPair) : List RowPair :=
  (rows.set c (rows.getD p ([], []))).set p (rows.getD c ([], []))

/-- R124: `W[c][j] <- mul(W[c][j], s)` and the same for `V`. -/
def scaleRow (poly : BitVec 9) (s : Byte) (r : RowPair) : RowPair :=
  (r.1.map fun x => mul poly x s, r.2.map fun x => mul poly x s)

/-- R124: `W[i][j] <- W[i][j] XOR mul(f, W[c][j])` and the same for `V`, skipped for `f = 0`. -/
def eliminateRow (poly : BitVec 9) (c : Nat) (pivot r : RowPair) : RowPair :=
  if r.1.getD c 0#8 = 0#8 then r
  else
    (List.zipWith (fun x y => x ^^^ mul poly (r.1.getD c 0#8) y) r.1 pivot.1,
      List.zipWith (fun x y => x ^^^ mul poly (r.1.getD c 0#8) y) r.2 pivot.2)

/-- R124: the work of pivot column `c`, or `none` where it has no pivot. (The second `none` cannot arise: a pivot is not 0.) -/
def pivotColumn (poly : BitVec 9) (n c : Nat) (rows : List RowPair) : Option (List RowPair) :=
  match findPivot n c rows with
  | none => none
  | some p =>
    let swapped := swapRows c p rows
    let pivot := swapped.getD c ([], [])
    match inverse poly (pivot.1.getD c 0#8) with
    | none => none
    | some s =>
      let scaled := scaleRow poly s pivot
      some (swapped.mapIdx fun i r => if i = c then scaled else eliminateRow poly c scaled r)

/-- R124: columns `c`, `c + 1`, …, `todo` of them; an error is the column without a pivot. -/
def eliminateFrom (poly : BitVec 9) (n : Nat) : (todo c : Nat) → List RowPair → Except Nat (List RowPair)
  | 0, _, rows => .ok rows
  | todo + 1, c, rows =>
    match pivotColumn poly n c rows with
    | none => .error c
    | some rows' => eliminateFrom poly n todo (c + 1) rows'

/-- R124: `invert(M, n)`: the inverse, or `SingularMatrix(c)`. -/
def invert (poly : BitVec 9) (n : Nat) (M : Matrix) : Except Nat Matrix :=
  match eliminateFrom poly n n 0 (List.zip M (Matrix.tabulate n n identityAt)) with
  | .ok rows => .ok (rows.map fun r => r.2)
  | .error c => .error c

end Sys2Proof.Machine
end

