-- ==== Sys2Proof/Machine/Operands.lean ====
section
/-! DEFINITION. The operands commands take from the registers (30_encoding.md R82) and their checks (60_exceptions.md R223). -/

namespace Sys2Proof.Machine

/-- R28: `m = CFG.M`. -/
def State.m (s : State) : Nat := s.cfgM.toNat

/-- R28: `k = CFG.K`. -/
def State.k (s : State) : Nat := s.cfgK.toNat

/-- R28: `r = CFG.M − CFG.K`. -/
def State.r (s : State) : Nat := s.m - s.k

/-- R29: the fragment length `L`. -/
def State.l (s : State) : Nat := s.len.toNat

/-- R29: "Legal values for a command that reads it are `1 ≤ L ≤ LMAX`". -/
def State.lengthLegal (s : State) : Bool := decide (1 ≤ s.l) && decide (s.l ≤ s.params.lmax)

/-- R31: "legal values `1 ≤ n ≤ MMAX`". -/
def dimLegal (p : Params) (n : Byte) : Bool := decide (1 ≤ n.toNat) && decide (n.toNat ≤ p.mmax)

/-- R191, R192: the least `i < k` with `PRESENT[i] = 0`. -/
def State.firstMissing (s : State) : Option Nat := (List.range s.k).find? fun i => !s.isPresent i

end Sys2Proof.Machine
end

