-- ==== Sys2Proof/Machine/Algebra.lean ====
section
/-! DEFINITION. The matrix commands MATMUL and INVERT (42_matrix_algebra.md R130, R131). -/

namespace Sys2Proof.Machine

/-- R130: element `[i][j]` of the product of the corners of `MAT[s1]` and `MAT[s2]`; "Source elements that are unspecified make
the result elements that depend on them unspecified." -/
def State.productAt (s : State) (s1 s2 n2 i j : Nat) : Option Byte :=
  xorSumValue (fun t => mulValue s.params.poly (s.valueAt (matAddr s1 i t)) (s.valueAt (matAddr s2 t j))) n2

/-- MATMUL, R130. -/
def matmulEnd (dst s1 s2 : Nat) (s : State) : CommandEnd :=
  if 4 < dst ∨ 4 < s1 ∨ 4 < s2 ∨ dst = idG ∨ dst = s1 ∨ dst = s2 then .error .illegalCommand 1 s
  else if ¬(dimLegal s.params s.dim1 = true ∧ dimLegal s.params s.dim2 = true ∧ dimLegal s.params s.dim3 = true) then
    .error .illegalCommand 2 s
  else if (s1 = idG ∨ s2 = idG) ∧ s.cfgv = false then .error .notConfigured 0 s
  else .ok (s.withMem (s.mem.fillMatrix dst s.dim1.toNat s.dim3.toNat (s.productAt s1 s2 s.dim2.toNat)))

/-- MATMUL, R130. -/
def execMatmul (dst s1 s2 : Nat) (s : State) : Host.Outcome State Fault Refusal := (matmulEnd dst s1 s2 s).report

/-- R131: `MAT[id][0..n)[0..n)`, with a draw for an unspecified element. -/
def State.cornerSample (s : State) (id n : Nat) : Matrix := Matrix.tabulate n n fun i j => s.sample (matAddr id i j)

/-- The positions `(a, b)` of the unspecified elements of `MAT[id][0..n)[0..n)`. -/
def State.unspecifiedIn (s : State) (id n : Nat) : List (Nat × Nat) :=
  (List.range n).flatMap fun a =>
    (List.range n).filterMap fun b => if s.valueAt (matAddr id a b) = none then some (a, b) else none

/-- R257, U1: element `[i][j]` of the inverse `V` of a matrix whose elements at `unknown` are unspecified: unspecified where it
depends on one of them. Adding `d` to element `(a, b)` of the matrix adds `c·V[i][a]·V[b][j]` to `V[i][j]`, with `c` not 0 when `d`
is not, so `V[i][j]` depends on that element exactly where neither factor is 0 (log 6). -/
def inverseValue (V : Matrix) (unknown : List (Nat × Nat)) (i j : Nat) : Option Byte :=
  if unknown.any fun p => decide (V.at i p.1 ≠ 0#8) && decide (V.at p.2 j ≠ 0#8) then none else some (V.at i j)

/-- INVERT, R131. Which of the two ends it takes, and the column it reports, follow the drawn matrix (log 6); the destination
corner becomes the inverse, unspecified where it depends on an unspecified element, or all unspecified after `SingularMatrix`
(U5). -/
def invertEnd (dst s1 : Nat) (s : State) : CommandEnd :=
  let n := s.dim1.toNat
  if 4 < dst ∨ 4 < s1 ∨ dst = idG ∨ dst = s1 then .error .illegalCommand 1 s
  else if ¬dimLegal s.params s.dim1 = true then .error .illegalCommand 2 s
  else if s1 = idG ∧ s.cfgv = false then .error .notConfigured 0 s
  else
    match invert s.params.poly n (s.cornerSample s1 n) with
    | .ok V => .ok (s.withMem (s.mem.fillMatrix dst n n (inverseValue V (s.unspecifiedIn s1 n))))
    | .error c => .error .singularMatrix c (s.withMem (s.mem.fillMatrix dst n n fun _ _ => none))

/-- INVERT, R131. -/
def execInvert (dst s1 : Nat) (s : State) : Host.Outcome State Fault Refusal := (invertEnd dst s1 s).report

end Sys2Proof.Machine
end

