-- ==== Sys2Proof/Machine/Framing.lean ====
section
/-! DEFINITION. The fragmentation protocol (45_framing.md): FRAME (R190), PARITY (R191), UNFRAME (R192). -/

namespace Sys2Proof.Machine

/-- R181 by division: one digit for `n < 10`, else one more than `n / 10` has; `fuel` bounds the divisions. -/
def digitsWithin (n : Nat) : (fuel : Nat) → Nat
  | 0 => 1
  | fuel + 1 => if n < 10 then 1 else 1 + digitsWithin (n / 10) fuel

/-- R181: `digits(n)`, "the least `d ≥ 1` with `n < 10^d`". (`n` divisions are more than enough.) -/
def digits (n : Nat) : Nat := digitsWithin n n

/-- R182: `frame_length(n, k) = ceil((n + digits(n) + 1) / k)`. -/
def frameLength (n k : Nat) : Nat := (n + digits n + 1 + k - 1) / k

/-- R180: byte `i` of the frame of the payload bytes `P`, `n` of them, in a buffer of `total` bytes. -/
def frameByte (pad : Byte) (P : Nat → Option Byte) (n total i : Nat) : Option Byte :=
  if i < n then P i
  else if i < total - digits n then some pad
  else some (BitVec.ofNat 8 (0x30 + n / 10 ^ (total - 1 - i) % 10))

/-- FRAME, R190. -/
def frameEnd (s : State) : CommandEnd :=
  let n := s.plen.toNat
  let lf := frameLength n s.k
  if s.cfgv = false then .error .notConfigured 0 s
  else if s.params.lmax < lf then .error .allocationFailure 0 s
  else
    .ok { s with
      mem := s.mem.fillFragments 0 s.k lf fun i o =>
        frameByte s.params.pad (fun j => s.valueAt (payAddr j)) n (s.k * lf) (i * lf + o)
      len := BitVec.ofNat 21 lf
      present := clearPresentRange (setPresentRange s.present 0 s.k) s.k s.m
      dv := false }

/-- FRAME, R190. -/
def execFrame (s : State) : Host.Outcome State Fault Refusal := (frameEnd s).report

/-- R191: byte `o` of parity fragment `i`, `XOR_{j<k} mul(G[i][j], FRAG[j][o])`. -/
def State.parityAt (s : State) (i o : Nat) : Option Byte :=
  xorSumValue (fun j => mulValue s.params.poly (s.valueAt (matAddr idG i j)) (s.valueAt (fragAddr j o))) s.k

/-- PARITY, R191. -/
def parityEnd (s : State) : CommandEnd :=
  if s.cfgv = false then .error .notConfigured 0 s
  else if s.lengthLegal = false then .error .illegalCommand 3 s
  else
    match s.firstMissing with
    | some i => .error .missingOperand i s
    | none =>
      .ok { s with
        mem := s.mem.fillFragments s.k s.r s.l fun i o => s.parityAt (s.k + i) o
        present := setPresentRange s.present s.k s.m
        dv := false }

/-- PARITY, R191. -/
def execParity (s : State) : Host.Outcome State Fault Refusal := (parityEnd s).report

/-- R184: the backward scan over the `i` bytes not yet read, with `pos` digits collected that make `n`: what is left of `i`, how
many digits there were, and their number. -/
def scanDigits (X : Nat → Byte) : (i pos n : Nat) → Nat × Nat × Nat
  | 0, pos, n => (0, pos, n)
  | i + 1, pos, n =>
    if isDigit (X i) then scanDigits X i (pos + 1) (n + ((X i).toNat - 0x30) * 10 ^ pos) else (i + 1, pos, n)

/-- R184: `unframe(X, k, L)` on a buffer of `total = k·L` bytes: the payload length, or the case of `FramingCorruption`. -/
def unframeLength (pad : Byte) (X : Nat → Byte) (total : Nat) : Except Nat Nat :=
  match scanDigits X total 0 0 with
  | (i, pos, n) =>
    if pos = 0 then .error 1
    else if i = 0 ∨ X (i - 1) ≠ pad then .error 2
    else if total < n then .error 3
    else .ok n

/-- R183: the bus address of byte `i` of the concatenation of the data fragments. -/
def frameAddr (l i : Nat) : Nat := fragAddr (i / l) (i % l)

/-- UNFRAME, R192. The scan draws a byte that is unspecified; a payload byte copied from one is unspecified (log 6). -/
def unframeEnd (s : State) : CommandEnd :=
  if s.cfgv = false then .error .notConfigured 0 s
  else if s.lengthLegal = false then .error .illegalCommand 3 s
  else
    match s.firstMissing with
    | some i => .error .missingOperand i s
    | none =>
      match unframeLength s.params.pad (fun i => s.sample (frameAddr s.l i)) (s.k * s.l) with
      | .error c => .error .framingCorruption c s
      | .ok n =>
        .ok { s with
          mem := s.mem.fillPayload n fun o => s.valueAt (frameAddr s.l o)
          plen := BitVec.ofNat 32 n }

/-- UNFRAME, R192. -/
def execUnframe (s : State) : Host.Outcome State Fault Refusal := (unframeEnd s).report

end Sys2Proof.Machine
end

