-- ==== Sys2Proof/Machine/Synthesis.lean ====
section
/-! DEFINITION. The decode matrix synthesizer and reconstruction (44_decode_synth.md): GENDEC (R170) and RECON (R171). -/

namespace Sys2Proof.Machine

/-- R160: `error_list`, the absent indices `i < m` in increasing order. -/
def State.errorList (s : State) : List Nat := (List.range s.m).filter fun i => !s.isPresent i

/-- R160: `nerrs`. -/
def State.errorCount (s : State) : Nat := s.errorList.length

/-- R160: `nsrcerrs`, the absent indices `< k`. -/
def State.sourceErrorCount (s : State) : Nat := (s.errorList.filter fun i => decide (i < s.k)).length

/-- R161: `survivors`, the present indices `i < m` in increasing order. -/
def State.survivors (s : State) : List Nat := (List.range s.m).filter fun i => s.isPresent i

/-- R161: `B[j][c] = G[didx[j]][c]`. -/
def selectRows (G : Nat → Nat → Byte) (k : Nat) (didx : List Nat) : Matrix :=
  didx.map fun i => (List.range k).map fun c => G i c

/-- R161 to R164: with the first `k - 1` slots `first`, try the candidates for the last slot in increasing order until the
selected rows are invertible; none left is `NoInvertibleSubmatrix`. The survivors from the step-1 value of the last slot on
are exactly the values step 3 gives it (R164; log 10). The result is the decode index, `B` and `BINV`. -/
def synthesize (poly : BitVec 9) (G : Nat → Nat → Byte) (k : Nat) (first : List Nat) :
    List Nat → Option (List Nat × Matrix × Matrix)
  | [] => none
  | last :: later =>
    match invert poly k (selectRows G k (first ++ [last])) with
    | .ok V => some (first ++ [last], selectRows G k (first ++ [last]), V)
    | .error _ => synthesize poly G k first later

/-- R165: `D[p][i]` for the absent fragment `e = error_list[p]`. -/
def decodeRowAt (poly : BitVec 9) (G : Nat → Nat → Byte) (k : Nat) (Binv : Matrix) (e i : Nat) : Byte :=
  if e < k then Binv.at e i else xorSum (fun j => mul poly (Binv.at j i) (G e j)) k

/-- `G[i][j]` as GENDEC reads it. (Under an active configuration it is specified, R41.) -/
def State.gAt (s : State) (i j : Nat) : Byte := s.sample (matAddr idG i j)

/-- R170: `DV <- 0`, `NERRS`, `NSRCERRS`, `ERRL[0..nerrs)`. -/
def State.writeDescriptor (s : State) : State :=
  { s with
    dv := false
    nerrs := BitVec.ofNat 8 s.errorCount
    nsrcerrs := BitVec.ofNat 8 s.sourceErrorCount
    mem := s.mem.fillList idErrl s.errorCount fun p => some (BitVec.ofNat 8 (s.errorList.getD p 0)) }

/-- R161 to R164 on the state's `PRESENT` and `G`. -/
def State.synthesis (s : State) : Option (List Nat × Matrix × Matrix) :=
  synthesize s.params.poly s.gAt s.k (s.survivors.take (s.k - 1)) (s.survivors.drop (s.k - 1))

/-- R170: `DIDX`, `B`, `BINV` unspecified after `NoInvertibleSubmatrix` (U6). -/
def Memory.forgetSynthesis (m : Memory) (k : Nat) : Memory :=
  ((m.fillList idDidx k fun _ => none).fillMatrix idB k k fun _ _ => none).fillMatrix idBinv k k fun _ _ => none

/-- R170: `DIDX`, `B`, `BINV`, `D` after a successful synthesis; row `p` of `D` is `rows p`. -/
def Memory.writeSynthesis (m : Memory) (k nerrs : Nat) (didx : List Nat) (B Binv : Matrix) (rows : Nat → Nat → Byte) : Memory :=
  (((m.fillList idDidx k fun j => some (BitVec.ofNat 8 (didx.getD j 0))).fillMatrix idB k k fun i j =>
        some (B.at i j)).fillMatrix idBinv k k fun i j => some (Binv.at i j)).fillMatrix idD nerrs k fun p i => some (rows p i)

/-- GENDEC after its `NotConfigured` check, R170. -/
def gendecBody (s : State) : CommandEnd :=
  let t := s.writeDescriptor
  if s.r < s.errorCount then .error .tooManyErrors s.errorCount t
  else
    match s.synthesis with
    | none => .error .noInvertibleSubmatrix (s.r - s.errorCount + 1) (t.withMem (t.mem.forgetSynthesis s.k))
    | some (didx, B, Binv) =>
      .ok { t with
        dv := true
        mem := t.mem.writeSynthesis s.k s.errorCount didx B Binv fun p i =>
          decodeRowAt s.params.poly s.gAt s.k Binv (s.errorList.getD p 0) i }

/-- GENDEC, R170. -/
def gendecEnd (s : State) : CommandEnd := if s.cfgv = false then .error .notConfigured 0 s else gendecBody s

/-- GENDEC, R170. -/
def execGendec (s : State) : Host.Outcome State Fault Refusal := (gendecEnd s).report

/-- R171: byte `o` of the rebuilt fragment `ERRL[p]`, `XOR_{j<k} mul(D[p][j], FRAG[DIDX[j]][o])`. -/
def State.rebuiltAt (s : State) (p o : Nat) : Option Byte :=
  xorSumValue
    (fun j =>
      mulValue s.params.poly (s.valueAt (matAddr idD p j))
        ((s.valueAt (listAddr idDidx j)).bind fun i => s.valueAt (fragAddr i.toNat o)))
    s.k

/-- R171: the fragment index `ERRL[p]`. (With `DV = 1` it is specified, R34.) -/
def State.lostFragment (s : State) (p : Nat) : Nat := (s.sample (listAddr idErrl p)).toNat

/-- R171: the loop over `p < NERRS`; the bytes read are those before the command (R72; log 9). -/
def State.rebuild (s : State) : Nat → State
  | 0 => s
  | p + 1 =>
    { s.rebuild p with
      present := setPresent (s.rebuild p).present (s.lostFragment p)
      mem := (s.rebuild p).mem.fillFragment (s.lostFragment p) s.l (s.rebuiltAt p) }

/-- RECON, R171. -/
def reconEnd (s : State) : CommandEnd :=
  if s.cfgv = false then .error .notConfigured 0 s
  else if s.dv = false then .error .illegalCommand 4 s
  else if s.lengthLegal = false then .error .illegalCommand 3 s
  else .ok (s.rebuild s.nerrs.toNat)

/-- RECON, R171. -/
def execRecon (s : State) : Host.Outcome State Fault Refusal := (reconEnd s).report

end Sys2Proof.Machine
end

