-- ==== Sys2Proof/Machine/Facade.lean ====
section
/-! DEFINITION. NOP (46_facade.md R200) and the façade commands ENCODE (R201) and DECODE (R202). -/

namespace Sys2Proof.Machine

/-- R201, R202: perform `next` on the state a stage ended `OK` in; a stage that raised ends the command. -/
def CommandEnd.andThen (first : CommandEnd) (next : State → CommandEnd) : CommandEnd :=
  match first with
  | .ok s => next s
  | .error e info s => .error e info s

/-- NOP, R200: `STATUS.ERR <- 0`. -/
def execNop (s : State) : Host.Outcome State Fault Refusal := (CommandEnd.ok s).report

/-- ENCODE, R201: FRAME, then PARITY, as one command. -/
def encodeEnd (s : State) : CommandEnd := (frameEnd s).andThen parityEnd

/-- ENCODE, R201. -/
def execEncode (s : State) : Host.Outcome State Fault Refusal := (encodeEnd s).report

/-- R202: "if it raised E: DV <- 0; raise E" for the UNFRAME stage. -/
def CommandEnd.clearDvOnError : CommandEnd → CommandEnd
  | .ok s => .ok s
  | .error e info s => .error e info { s with dv := false }

/-- DECODE, R202: GENDEC, RECON, UNFRAME, as one command. -/
def decodeEnd (s : State) : CommandEnd :=
  if s.cfgv = false then .error .notConfigured 0 s
  else if s.lengthLegal = false then .error .illegalCommand 3 s
  else ((gendecEnd s).andThen reconEnd).andThen fun t => (unframeEnd t).clearDvOnError

/-- DECODE, R202. -/
def execDecode (s : State) : Host.Outcome State Fault Refusal := (decodeEnd s).report

end Sys2Proof.Machine
end

