-- ==== Sys2Proof/Machine/Field.lean ====
section
/-! DEFINITION. The field commands GFMUL, GFDIV, GFINV (41_gf256_field.md R110 to R112). -/

namespace Sys2Proof.Machine

/-- A scalar result that may not exist: `RES` takes it, or `FieldInverseOfZero(0)` with `RES` unchanged (R111, R112). -/
def scalarResult (s : State) (v : Option Byte) : CommandEnd :=
  match v with
  | some x => .ok { s with res := x }
  | none => .error .fieldInverseOfZero 0 s

/-- GFMUL, R110: `RES[7:0] <- mul(a, b)`. -/
def execGfmul (a b : Byte) (s : State) : Host.Outcome State Fault Refusal :=
  (scalarResult s (some (mul s.params.poly a b))).report

/-- GFDIV, R111: `RES[7:0] <- mul(a, inverse(b))`, `FieldInverseOfZero` when `b = 0`. -/
def execGfdiv (a b : Byte) (s : State) : Host.Outcome State Fault Refusal :=
  (scalarResult s (gdiv s.params.poly a b)).report

/-- GFINV, R112: `RES[7:0] <- inverse(a)`, `FieldInverseOfZero` when `a = 0`. -/
def execGfinv (a : Byte) (s : State) : Host.Outcome State Fault Refusal :=
  (scalarResult s (inverse s.params.poly a)).report

end Sys2Proof.Machine
end

