-- ==== Sys2Proof/Machine/Generator.lean ====
section
/-! DEFINITION. The generator matrix (43_generator_builder.md R140 to R143) and the commands INIT, DEINIT (R150, R151). -/

namespace Sys2Proof.Machine

/-- R142: the Vandermonde coefficient, `gpow(gpow(0x02, i - k), j)`. -/
def vandermondeAt (poly : BitVec 9) (k i j : Nat) : Byte := gpow poly (gpow poly 0x02#8 (i - k)) j

/-- R143: the Cauchy coefficient, `inverse(i XOR j)`. (`i ≠ j` in every parity row, so the inverse exists.) -/
def cauchyAt (poly : BitVec 9) (i j : Nat) : Byte :=
  (inverse poly (BitVec.ofNat 8 i ^^^ BitVec.ofNat 8 j)).getD 0#8

/-- R140, R141: `build_generator(m, k, strat)[i][j]`: identity atop the strategy's coefficients. -/
def generatorAt (poly : BitVec 9) (k : Nat) (strat : Strategy) (i j : Nat) : Byte :=
  if i < k then identityAt i j
  else
    match strat with
    | .vandermonde => vandermondeAt poly k i j
    | .cauchy => cauchyAt poly i j

/-- R150: whether INIT refuses its operands. -/
def configurationInvalid (p : Params) (m k : Nat) (strat : Strategy) : Bool :=
  decide (k = 0) || decide (m ≤ k) || decide (p.mmax < m) || (decide (strat = .cauchy) && !p.hasCauchy)

/-- R150, R151: `CFGV <- 0; CFG <- 0; DV <- 0; G <- unspecified`. -/
def State.unconfigure (s : State) : State :=
  { s with cfgv := false, cfgM := 0#8, cfgK := 0#8, cfgStrat := .vandermonde, dv := false, mem := s.mem.forgetG }

/-- INIT, R150. Elements of `G` outside the new shape are unspecified (R41; log 7). `EINFO` of a refusal is `{strat, k, m}`. -/
def initEnd (m k : Nat) (strat : Strategy) (s : State) : CommandEnd :=
  if configurationInvalid s.params m k strat = true then
    .error .invalidConfiguration (m + k * 2 ^ 8 + strategyNumber strat * 2 ^ 16) s.unconfigure
  else
    .ok { s with
      cfgv := true
      cfgM := BitVec.ofNat 8 m
      cfgK := BitVec.ofNat 8 k
      cfgStrat := strat
      dv := false
      mem := s.mem.forgetG.fillMatrix idG m k fun i j => some (generatorAt s.params.poly k strat i j) }

/-- INIT, R150. -/
def execInit (m k : Nat) (strat : Strategy) (s : State) : Host.Outcome State Fault Refusal := (initEnd m k strat s).report

/-- DEINIT, R151. -/
def execDeinit (s : State) : Host.Outcome State Fault Refusal := (CommandEnd.ok s.unconfigure).report

end Sys2Proof.Machine
end

