-- ==== Sys2Proof/Machine/Dispatch.lean ====
section
/-! DEFINITION. One arm for each command (30_encoding.md R84). -/

namespace Sys2Proof.Machine

def exec (i : Instr) (s : State) : Host.Outcome State Fault Refusal :=
  match i with
  | .nop => Sys2Proof.Machine.execNop s
  | .gfmul a b => Sys2Proof.Machine.execGfmul a b s
  | .gfdiv a b => Sys2Proof.Machine.execGfdiv a b s
  | .gfinv a => Sys2Proof.Machine.execGfinv a s
  | .matmul dst s1 s2 => Sys2Proof.Machine.execMatmul dst s1 s2 s
  | .invert dst s1 => Sys2Proof.Machine.execInvert dst s1 s
  | .init m k strat => Sys2Proof.Machine.execInit m k strat s
  | .deinit => Sys2Proof.Machine.execDeinit s
  | .gendec => Sys2Proof.Machine.execGendec s
  | .recon => Sys2Proof.Machine.execRecon s
  | .frame => Sys2Proof.Machine.execFrame s
  | .parity => Sys2Proof.Machine.execParity s
  | .unframe => Sys2Proof.Machine.execUnframe s
  | .encode => Sys2Proof.Machine.execEncode s
  | .decode => Sys2Proof.Machine.execDecode s

end Sys2Proof.Machine
end

