-- ==== Sys2Proof/Machine/Step.lean ====
section
/-! DEFINITION. One step of the GFRS core: the running command ends with its whole effect (20_memory.md R72), or the next event
of the outside world is served (R61), or the block is idle (60_exceptions.md R231). -/

namespace Sys2Proof.Machine

/-- R74, R85, R89: the command whose word stands in `CMD`, executed whole. -/
def runCommand (s : State) : Host.Outcome State Fault Refusal :=
  match decode s.cmd with
  | .ok i => exec i s
  | .error _ => illegalWord s

/-- R71, R72, R75: while `BUSY = 1`, `busyLeft` more events are served (refused, but for `STATUS` reads and reset) and then the
command ends; it ends as well when no event is left. While `BUSY = 0` the next event is served; without one the block idles. -/
def step (s : State) : Host.Outcome State Fault Refusal :=
  match s.busy, s.busyLeft, s.host with
  | true, 0, _ => runCommand s
  | true, _ + 1, [] => runCommand s
  | true, left + 1, e :: rest => .next ({ s with host := rest, busyLeft := left }.serve e)
  | false, _, [] => .next s
  | false, _, e :: rest => .next ({ s with host := rest }.serve e)

/-- Where step takes its next command: the word in `CMD` while `BUSY = 1` and no transaction comes before the command's end
(R23, R74; log 15). -/
def State.withFetchWord (s : State) (nbits w : Nat) : State :=
  { s with cmd := BitVec.ofNat 32 (w % 2 ^ nbits), busy := true, busyLeft := 0 }

end Sys2Proof.Machine
end

