-- ==== Sys2Proof/Safety.lean ====
section
/-! DEFINITION. What counts as a safe state of the GFRS core: the invariants the rules of spec/ give its state, which rule out
states no run reaches. -/

namespace Sys2Proof.Machine

/-- R60 to R66: a byte of MAT, LIST, FRAG or PAY exists at this bus address. -/
def byteExists (p : Params) (a : Nat) : Prop :=
  (∃ id i j, id ≤ 4 ∧ i < p.mmax ∧ j < p.mmax ∧ a = matAddr id i j) ∨
  (∃ id q, id ≤ 1 ∧ q < p.mmax ∧ a = listAddr id q) ∨
  (∃ i o, i < p.mmax ∧ o < p.lmax ∧ a = fragAddr i o) ∨
  (∃ o, o < p.psize ∧ a = payAddr o)

/-- Every specified byte is one that exists. -/
def State.MemoryInRange (s : State) : Prop := ∀ c ∈ s.mem, byteExists s.params c.1

/-- R25, R33: the bits that read 0: `ESTICKY[0]` and `[31:11]`, `PRESENT[i]` for `i ≥ MMAX`. -/
def State.ReservedBitsZero (s : State) : Prop :=
  s.esticky &&& 0xFFFFF801#32 = 0#32 ∧ ∀ i, s.params.mmax ≤ i → s.isPresent i = false

/-- R8, R28, R34: an active configuration is a valid one; without one `CFG` reads 0 and `DV` is 0. -/
def State.ConfigurationLegal (s : State) : Prop :=
  (s.cfgv = true →
    1 ≤ s.k ∧ s.k < s.m ∧ s.m ≤ s.params.mmax ∧ (s.cfgStrat = .cauchy → s.params.hasCauchy = true)) ∧
  (s.cfgv = false → s.cfgM = 0#8 ∧ s.cfgK = 0#8 ∧ s.cfgStrat = .vandermonde ∧ s.dv = false)

/-- R41: under an active configuration `G` holds `build_generator(m, k, strat)`; every other element is unspecified. -/
def State.GeneratorHeld (s : State) : Prop :=
  ∀ i j, i < 256 → j < 256 →
    s.valueAt (matAddr idG i j) =
      if s.cfgv = true ∧ i < s.m ∧ j < s.k then some (generatorAt s.params.poly s.k s.cfgStrat i j) else none

/-- R34, R42, R161: while `DV = 1` the lists hold a decode descriptor: `ERRL` the absent and `DIDX` the chosen present indices of
one GENDEC, both strictly increasing and with no index in common. -/
def State.DescriptorHeld (s : State) : Prop :=
  s.dv = true →
    ∃ errl didx : List Nat,
      errl.length = s.nerrs.toNat ∧ errl.length ≤ s.r ∧ (errl.filter fun e => decide (e < s.k)).length = s.nsrcerrs.toNat ∧
      didx.length = s.k ∧ errl.Pairwise (· < ·) ∧ didx.Pairwise (· < ·) ∧
      (∀ e ∈ errl, e < s.m ∧ e ∉ didx) ∧ (∀ i ∈ didx, i < s.m) ∧
      (∀ p, p < errl.length → s.valueAt (listAddr idErrl p) = some (BitVec.ofNat 8 (errl.getD p 0))) ∧
      (∀ j, j < didx.length → s.valueAt (listAddr idDidx j) = some (BitVec.ofNat 8 (didx.getD j 0)))

/-- The invariant of the block: valid parameters (R7), the canonical form of memory, and the four properties above. -/
def State.Inv (s : State) : Prop :=
  s.params.Valid ∧ s.mem.wf ∧ s.MemoryInRange ∧ s.ReservedBitsZero ∧ s.ConfigurationLegal ∧ s.GeneratorHeld ∧
    s.DescriptorHeld

end Sys2Proof.Machine
end

