-- ==== Sys2Proof/Certificates/Slice0/Obligations.lean ====
section
/-! DEFINITION. The statements about the GFRS core for the provers. Each formalises rules of spec/, which its docstring names.
The names of `Claims` restate the spec's own words, so that a statement can be read without the model's operations. -/

namespace Sys2Proof.Claims

open Sys2Proof.Machine

/-- R224: a command that ends without error on the state `s` its operation leaves: `ERR` is 0, `BUSY` is 0, `EINFO` and
`ESTICKY` are as in `s`. (The model's own fields: the command's transactions are over and the next draw is a fresh one.) -/
def okEnd (s : State) : State := { s with err := .ok, busy := false, busyLeft := 0, epoch := s.epoch + 1 }

/-- R220, R224: a command that ends with error `e` and detail `info`: `ERR`, `EINFO`, the sticky bit and `BUSY`, nothing else. -/
def errorEnd (s : State) (e : CommandError) (info : Nat) : State :=
  { s with
    err := .failed e
    einfo := BitVec.ofNat 32 info
    esticky := s.esticky ||| (1#32 <<< e.code)
    busy := false
    busyLeft := 0
    epoch := s.epoch + 1 }

/-- The state after an event of the outside world that is answered `r`. -/
def answered (s : State) (rest : List HostEvent) (r : Response) : State :=
  { s with host := rest, responses := r :: s.responses, epoch := s.epoch + 1 }

/-- R120: the top-left `rows × cols` corner of `MAT[id]` holds the specified elements `A`. -/
def Corner (s : State) (id rows cols : Nat) (A : Nat → Nat → Byte) : Prop :=
  ∀ i j, i < rows → j < cols → s.valueAt (matAddr id i j) = some (A i j)

/-- R120, R121: `A · B = identity(n)`. -/
def ProductIsIdentity (poly : BitVec 9) (n : Nat) (A B : Nat → Nat → Byte) : Prop :=
  ∀ i j, i < n → j < n → xorSum (fun t => mul poly (A i t) (B t j)) n = if i = j then 1#8 else 0#8

/-- R125: `M` is invertible. -/
def Invertible (poly : BitVec 9) (n : Nat) (M : Nat → Nat → Byte) : Prop := ∃ X, ProductIsIdentity poly n X M

/-- R125: columns `0..c` of the `n × n` matrix `M` are linearly dependent. -/
def ColumnsDependent (poly : BitVec 9) (n c : Nat) (M : Nat → Nat → Byte) : Prop :=
  ∃ x : Nat → Byte, (∃ j, j ≤ c ∧ x j ≠ 0#8) ∧
    ∀ i, i < n → xorSum (fun j => mul poly (M i j) (x j)) (c + 1) = 0#8

/-- R181: `d = digits(n)`, "the least `d ≥ 1` with `n < 10^d`". -/
def IsDigitCount (n d : Nat) : Prop := 1 ≤ d ∧ n < 10 ^ d ∧ ∀ e, 1 ≤ e → n < 10 ^ e → d ≤ e

/-- R182: `l = frame_length(n, k)`, the least `L` with `k·L ≥ n + digits(n) + 1`, where `digits(n) = d`. -/
def IsFrameLength (n d k l : Nat) : Prop := n + d + 1 ≤ k * l ∧ ∀ l', n + d + 1 ≤ k * l' → l ≤ l'

/-- R160: `errl` is `error_list`, the absent indices below `m` in increasing order. -/
def IsErrorList (s : State) (errl : List Nat) : Prop :=
  errl.Pairwise (· < ·) ∧ ∀ e, e ∈ errl ↔ e < s.m ∧ s.isPresent e = false

/-- R161: `surv` is `survivors`, the present indices below `m` in increasing order. -/
def IsSurvivorList (s : State) (surv : List Nat) : Prop :=
  surv.Pairwise (· < ·) ∧ ∀ e, e ∈ surv ↔ e < s.m ∧ s.isPresent e = true

/-- R161, R163: the decode index after `t` substitutions: the first `k − 1` survivors and the survivor `t` places after the one
that follows them (each step-3 candidate is the next present index above the last slot). -/
def decodeIndex (k : Nat) (surv : List Nat) (t : Nat) : List Nat := surv.take (k - 1) ++ [surv.getD (k - 1 + t) 0]

/-- R161: the working submatrix of a decode index: row `j` is row `didx[j]` of `G`. -/
def selected (G : Nat → Nat → Byte) (didx : List Nat) (j c : Nat) : Byte := G (didx.getD j 0) c

/-- R183: byte `x` of the concatenation of data fragments of length `l` has this bus address. -/
def frameByteAddr (l x : Nat) : Nat := fragAddr (x / l) (x % l)

/-- R184: the last `d` bytes of the buffer `X` of `total` bytes are decimal digits. -/
def DigitRun (X : Nat → Byte) (total d : Nat) : Prop := ∀ t, t < d → isDigit (X (total - 1 - t)) = true

/-- R184: the number a digit run stands for, `digit * 10^position` summed from the end. -/
def trailerNumber (X : Nat → Byte) (total : Nat) : Nat → Nat
  | 0 => 0
  | d + 1 => trailerNumber X total d + ((X (total - 1 - d)).toNat - 0x30) * 10 ^ d

/-- R150: the operands INIT accepts. -/
def ConfigurationAccepted (p : Params) (m k : Nat) (strat : Strategy) : Prop :=
  1 ≤ k ∧ k < m ∧ m ≤ p.mmax ∧ (strat = .cauchy → p.hasCauchy = true)

/-- R41: the bus addresses of the memory `G`. -/
def InG (a : Nat) : Prop := 0x10000000 ≤ a ∧ a < 0x10010000

/-- R42: the bus addresses of the lists `ERRL` and `DIDX`. -/
def InLists (a : Nat) : Prop := 0x20000000 ≤ a ∧ a < 0x20000200

/-- R43: the bus addresses of space FRAG. -/
def InFrag (a : Nat) : Prop := 0x30000000 ≤ a ∧ a < 0x40000000

/-- R45: the bus addresses of space PAY. -/
def InPay (a : Nat) : Prop := 0x40000000 ≤ a

/-- R22, R24 to R33: the registers of space REG, each with its offset and the word it reads as, the fields at their places. -/
def registerWords (s : State) : List (Nat × Word) :=
  [(0x00, s.cmd),
    (0x04, BitVec.ofNat 32 ((if s.busy then 1 else 0) + (if s.cfgv then 2 else 0) + (if s.dv then 4 else 0) + 0x100 * s.err.code)),
    (0x08, s.esticky), (0x0C, s.einfo), (0x10, BitVec.ofNat 32 s.res.toNat),
    (0x14, BitVec.ofNat 32 (s.cfgM.toNat + 0x100 * s.cfgK.toNat + if s.cfgStrat = .cauchy then 0x10000 else 0)),
    (0x18, BitVec.ofNat 32 s.len.toNat), (0x1C, s.plen), (0x20, BitVec.ofNat 32 s.dim1.toNat),
    (0x24, BitVec.ofNat 32 s.dim2.toNat), (0x28, BitVec.ofNat 32 s.dim3.toNat), (0x2C, BitVec.ofNat 32 s.nerrs.toNat),
    (0x30, BitVec.ofNat 32 s.nsrcerrs.toNat)] ++
  (List.range 8).map fun w => (0x40 + 4 * w, BitVec.ofNat 32 (s.present.toNat / 2 ^ (32 * w)))

/-- R102: `a` times `x` to the power `e`, modulo `POLY`: `e` shifts to the left, each reduced by the low bits of `POLY` where bit 7
leaves the byte. -/
def timesX (poly : BitVec 9) (a : Byte) : Nat → Byte
  | 0 => a
  | e + 1 => (timesX poly a e <<< 1) ^^^ if (timesX poly a e).getLsbD 7 then poly.setWidth 8 else 0#8

/-- R257: `X` has the specified elements of the top-left `n × n` corner of `MAT[id]`, and any bytes for the others. -/
def Fills (s : State) (id n : Nat) (X : Nat → Nat → Byte) : Prop :=
  ∀ i j v, i < n → j < n → s.valueAt (matAddr id i j) = some v → X i j = v

/-- R62 to R66: the legal addresses for a width. -/
def LegalAddress (p : Params) (addr : Word) (n : Width) : Prop :=
  match n with
  | .four => addr.toNat ∈ [0x00, 0x04, 0x08, 0x0C, 0x10, 0x14, 0x18, 0x1C, 0x20, 0x24, 0x28, 0x2C, 0x30, 0x40, 0x44, 0x48, 0x4C,
      0x50, 0x54, 0x58, 0x5C]
  | .one => byteExists p addr.toNat

end Sys2Proof.Claims

open Sys2Proof Sys2Proof.Machine Sys2Proof.Claims

/-! ## Encoding (30_encoding.md) -/

/-- R81, R82: decoding the word of a well-formed command gives it back, every operand at every value its field admits. -/
def Obligations.DecodeOfEncodeIsTheCommand : Prop :=
  ∀ i : Instr, i.WellFormed → decode (encode i) = .ok i

/-- R81, R85: a word that decodes is the word of the command it decodes to, which is well formed: no two words decode to one
command and no bit of a legal word is without effect. -/
def Obligations.EncodeOfDecodeIsTheWord : Prop :=
  ∀ (w : Word) (i : Instr), decode w = .ok i → i.WellFormed ∧ encode i = w

/-- R83: the decoder agrees with the table's `match` and `mask`: a word that a row accepts decodes to that row's command, at most
one row accepts a word, and a word no row accepts is illegal. -/
def Obligations.DecoderFollowsTheOpcodeTable : Prop :=
  (∀ (w : Word) (r : OpcodeRow), r ∈ opcodeTable → w &&& r.mask = r.matchWord →
    ∃ i, decode w = .ok i ∧ i.mnemonic = r.mnemonic) ∧
  (∀ (w : Word) (r q : OpcodeRow), r ∈ opcodeTable → q ∈ opcodeTable → w &&& r.mask = r.matchWord →
    w &&& q.mask = q.matchWord → r = q) ∧
  (∀ w : Word, (∀ r ∈ opcodeTable, w &&& r.mask ≠ r.matchWord) → ∃ e, decode w = .error e)

/-- R87's worked words decode to the commands they stand for. -/
def Obligations.WorkedWordsDecode : Prop :=
  decode 0x00835701#32 = .ok (.gfmul 0x57 0x83) ∧ decode 0x00040620#32 = .ok (.init 6 4 .vandermonde) ∧
  decode 0x01060C20#32 = .ok (.init 12 6 .cauchy) ∧ decode 0x00021410#32 = .ok (.matmul 4 1 2) ∧
  decode 0x00001211#32 = .ok (.invert 2 1) ∧ decode 0x00000031#32 = .ok .recon

/-- R85: a word no row of the table accepts starts a command that changes nothing and ends `IllegalCommand` with `EINFO = 0`. -/
def Obligations.IllegalWordEndsIllegalCommand : Prop :=
  ∀ s : State, s.busy = true → s.busyLeft = 0 → (∀ r ∈ opcodeTable, s.cmd &&& r.mask ≠ r.matchWord) →
    step s = .next (errorEnd s .illegalCommand 0)

/-! ## Steps, transactions, reset (20_memory.md, 70_reset_and_hazards.md) -/

/-- R72, R89, R231: a running command that ends now has the whole effect of the command its word decodes to. It ends when the
free number of transactions it keeps waiting is used up, or when no event is left. A block that is idle and has no event keeps
all its state. -/
def Obligations.StepRunsTheDecodedCommand : Prop :=
  (∀ (s : State) (i : Instr), s.busy = true → s.busyLeft = 0 ∨ s.host = [] → decode s.cmd = .ok i → step s = exec i s) ∧
  ∀ s : State, s.busy = false → s.host = [] → step s = .next s

/-- R23: a write of `CMD` while idle stores the word and starts the command (with a free number of transactions kept waiting); a
read returns the stored word and has no side effect; nothing but such a write and reset changes it, so that it holds the last word
written; reset stores 0 and starts no command. -/
def Obligations.CmdRegisterFollowsItsRule : Prop :=
  (∀ (s : State) (w : Word) (rest : List HostEvent), s.busy = false → s.host = .memWrite 0#32 (.word w) :: rest →
    ∃ left, step s = .next { answered s rest .okay with cmd := w, busy := true, busyLeft := left }) ∧
  (∀ (s : State) (rest : List HostEvent), s.busy = false → s.host = .memRead 0#32 .four :: rest →
    step s = .next (answered s rest (.okayData (.word s.cmd)))) ∧
  (∀ s t : State, step s = .next t → t.cmd ≠ s.cmd →
    s.host.head? = some .reset ∨ (s.busy = false ∧ ∃ w, s.host.head? = some (.memWrite 0#32 (.word w)))) ∧
  State.reset.cmd = 0#32 ∧ State.reset.busy = false

/-- R75: while `BUSY = 1` every transaction but a `STATUS` read is answered `ERROR` and changes nothing; a `STATUS` read returns
`BUSY = 1` and the values `CFGV`, `DV`, `ERR` have. -/
def Obligations.BusyRefusesAllButStatusReads : Prop :=
  ∀ (s : State) (left : Nat) (e : HostEvent) (rest : List HostEvent), s.busy = true → s.busyLeft = left + 1 → s.host = e :: rest →
    (∀ addr v, e = .memWrite addr v → step s = .next { answered s rest .error with busyLeft := left }) ∧
    (∀ addr n, e = .memRead addr n → ¬(addr = 4#32 ∧ n = .four) →
      ∃ d, step s = .next { answered s rest (.errorData d) with busyLeft := left }) ∧
    (e = .memRead 4#32 .four →
      ∃ w : Word, step s = .next { answered s rest (.okayData (.word w)) with busyLeft := left } ∧
        w.getLsbD 0 = true ∧ w.getLsbD 1 = s.cfgv ∧ w.getLsbD 2 = s.dv ∧ w.toNat / 256 = s.err.code)

/-- R259, R72: every command ends: from a state with `BUSY = 1` the block comes to `BUSY = 0` in at most one step more than the
number of events it still serves first. -/
def Obligations.EveryCommandEnds : Prop :=
  ∀ s : State, s.busy = true → ∃ n t, n ≤ s.busyLeft + 1 ∧ core.run n s = .next t ∧ t.busy = false

/-- R226, R259, U12: the block never stops: every step answers a next state, and so does every command. -/
def Obligations.NothingStopsTheBlock : Prop :=
  (∀ s : State, ∃ t, step s = .next t) ∧ ∀ (i : Instr) (s : State), ∃ t, exec i s = .next t ∧ t.busy = false

/-- R50, R250, R251: the state after reset: every register 0 (every fragment absent, no configuration, nothing running), every
byte of memory unspecified; and a reset event, also while a command runs, leaves exactly that. (That it keeps the parameters,
the coming events and the given answers is the model's choice, log 12.) -/
def Obligations.ResetLeavesTheResetValues : Prop :=
  ((∀ r, State.reset.readReg r = 0#32) ∧ (∀ i, State.reset.isPresent i = false) ∧ State.reset.busy = false ∧
    State.reset.err = .ok ∧ ∀ a, State.reset.valueAt a = none) ∧
  ∀ (s : State) (rest : List HostEvent), s.host = .reset :: rest → s.busy = false ∨ 0 < s.busyLeft →
    step s = .next { State.reset with
      params := s.params, host := rest, responses := s.responses, epoch := s.epoch + 1 }

/-- R22, R24 to R33, R63: a four-byte read of a register's offset, while idle, is answered `OKAY` with that register's word and
changes nothing; and how the words read: the fields of `STATUS`, the presence words, and 0 in the bits not named in a register's
rule. (For `ESTICKY` and the presence bits from `MMAX` on, in a state that keeps the invariant.) -/
def Obligations.RegistersReadAsTheirFields : Prop :=
  (∀ (s : State) (off : Nat) (w : Word) (rest : List HostEvent), s.busy = false → (off, w) ∈ registerWords s →
    s.host = .memRead (BitVec.ofNat 32 off) .four :: rest → step s = .next (answered s rest (.okayData (.word w)))) ∧
  ∀ s : State,
    ((s.readReg .status).getLsbD 0 = s.busy ∧ (s.readReg .status).getLsbD 1 = s.cfgv ∧
      (s.readReg .status).getLsbD 2 = s.dv ∧ (∀ i, 3 ≤ i → i < 8 → (s.readReg .status).getLsbD i = false) ∧
      (s.readReg .status).toNat / 256 = s.err.code ∧ s.err.code ≤ 10) ∧
    ((s.readReg .res).toNat = s.res.toNat ∧ (s.readReg .len).toNat = s.len.toNat ∧ (s.readReg .dim1).toNat = s.dim1.toNat ∧
      (s.readReg .dim2).toNat = s.dim2.toNat ∧ (s.readReg .dim3).toNat = s.dim3.toNat ∧
      (s.readReg .nerrs).toNat = s.nerrs.toNat ∧ (s.readReg .nsrcerrs).toNat = s.nsrcerrs.toNat) ∧
    ((s.readReg .cfg).toNat % 2 ^ 8 = s.m ∧ (s.readReg .cfg).toNat / 2 ^ 8 % 2 ^ 8 = s.k ∧
      (s.readReg .cfg).toNat / 2 ^ 16 = if s.cfgStrat = .cauchy then 1 else 0) ∧
    (∀ w i, w < 8 → i < 32 → (s.readReg (.present w)).getLsbD i = s.isPresent (32 * w + i)) ∧
    (s.Inv → (s.readReg .esticky &&& 0xFFFFF801#32 = 0#32) ∧ (s.cfgv = false → s.readReg .cfg = 0#32) ∧
      ∀ w i, w < 8 → i < 32 → s.params.mmax ≤ 32 * w + i → (s.readReg (.present w)).getLsbD i = false)

/-- R33, R34: a host write of `PRESENTw` stores the bits below `MMAX`, leaves the other words alone and clears `DV`. -/
def Obligations.PresentWriteStoresAndClearsDv : Prop :=
  ∀ (s : State) (w : Nat) (v : Word) (rest : List HostEvent), s.Inv → s.busy = false → w < 8 →
    s.host = .memWrite (BitVec.ofNat 32 (0x40 + 4 * w)) (.word v) :: rest →
    ∃ p : BitVec 256, step s = .next { answered s rest .okay with present := p, dv := false } ∧
      ∀ i, p.getLsbD i =
        if i < s.params.mmax ∧ i / 32 = w then v.getLsbD (i % 32) else s.isPresent i

/-- R63: a host write of `L`, `PLEN`, `DIM1..3` stores the named bits. -/
def Obligations.OperandRegisterWrites : Prop :=
  ∀ (s : State) (v : Word) (addr : Word) (rest : List HostEvent), s.busy = false → s.host = .memWrite addr (.word v) :: rest →
    (addr = 0x18#32 → step s = .next { answered s rest .okay with len := BitVec.ofNat 21 v.toNat }) ∧
    (addr = 0x1C#32 → step s = .next { answered s rest .okay with plen := v }) ∧
    (addr = 0x20#32 → step s = .next { answered s rest .okay with dim1 := BitVec.ofNat 8 v.toNat }) ∧
    (addr = 0x24#32 → step s = .next { answered s rest .okay with dim2 := BitVec.ofNat 8 v.toNat }) ∧
    (addr = 0x28#32 → step s = .next { answered s rest .okay with dim3 := BitVec.ofNat 8 v.toNat })

/-- R63, R64, R65: a host write of a read-only register, of `G` or of a list is answered `ERROR` and changes nothing. -/
def Obligations.ProtectedPlacesRefuseWrites : Prop :=
  ∀ (s : State) (addr : Word) (v : Data) (rest : List HostEvent), s.busy = false → s.host = .memWrite addr v :: rest →
    addr.toNat ∈ [0x04, 0x0C, 0x10, 0x14, 0x2C, 0x30] ∨ InG addr.toNat ∨ addr.toNat / 2 ^ 28 = 2 →
    step s = .next (answered s rest .error)

/-- R64, R66: a byte the host writes to `B`, `BINV`, `D`, `T`, `FRAG` or `PAY` is the byte it reads there next; no register and no
other byte changes (`PRESENT` does not). -/
def Obligations.HostByteReadsBackAsWritten : Prop :=
  ∀ (s : State) (a : Nat) (b : Byte) (rest : List HostEvent), s.params.Valid → s.busy = false →
    ((∃ id i j, 1 ≤ id ∧ id ≤ 4 ∧ i < s.params.mmax ∧ j < s.params.mmax ∧
        a = 0x10000000 + id * 0x10000 + i * 0x100 + j) ∨
      (∃ i o, i < s.params.mmax ∧ o < s.params.lmax ∧ a = 0x30000000 + i * 0x100000 + o) ∨
      (∃ o, o < s.params.psize ∧ a = 0x40000000 + o)) →
    s.host = .memWrite (BitVec.ofNat 32 a) (.byte b) :: .memRead (BitVec.ofNat 32 a) .one :: rest →
    ∃ t, step s = .next t ∧ t = { answered s (.memRead (BitVec.ofNat 32 a) .one :: rest) .okay with mem := t.mem } ∧
      step t = .next (answered t rest (.okayData (.byte b))) ∧ ∀ x, x ≠ a → t.valueAt x = s.valueAt x

/-- R64, R65, R66: a read of a legal byte that is specified returns it and has no side effect; a read of one that is not is
answered `OKAY` as well (with a free value, log 4). -/
def Obligations.HostReadOfAByte : Prop :=
  ∀ (s : State) (a : Nat) (rest : List HostEvent), s.params.Valid → s.busy = false → byteExists s.params a →
    s.host = .memRead (BitVec.ofNat 32 a) .one :: rest →
    ∃ b, step s = .next (answered s rest (.okayData (.byte b))) ∧ ∀ v, s.valueAt a = some v → b = v

/-- R62 to R67, R76: a transaction at an address that is not legal for its width is answered `ERROR` and changes nothing. -/
def Obligations.ReservedAddressesAnswerError : Prop :=
  ∀ (s : State) (addr : Word) (rest : List HostEvent), s.params.Valid → s.busy = false →
    (∀ n, ¬LegalAddress s.params addr n → s.host = .memRead addr n :: rest →
      ∃ d, step s = .next (answered s rest (.errorData d))) ∧
    (∀ v : Data, ¬LegalAddress s.params addr v.width → s.host = .memWrite addr v :: rest →
      step s = .next (answered s rest .error))

/-! ## Errors and status (60_exceptions.md, 10_state.md R25, R34) -/

/-- R220, R224: a command ends with `BUSY = 0`; one that ends `OK` (code 0) leaves `EINFO` and `ESTICKY` as they were, one that
ends with an error sets the sticky bit of that error's code and no other; the codes. -/
def Obligations.CommandEndsReportAsTheRuleSays : Prop :=
  (∀ (i : Instr) (s t : State), exec i s = .next t →
    t.busy = false ∧ (t.err = .ok → t.einfo = s.einfo ∧ t.esticky = s.esticky) ∧
    ∀ e, t.err = .failed e → t.esticky = s.esticky ||| (1#32 <<< e.code)) ∧
  ResultCode.ok.code = 0 ∧
  [CommandError.invalidConfiguration, .allocationFailure, .singularMatrix, .noInvertibleSubmatrix, .tooManyErrors,
      .framingCorruption, .fieldInverseOfZero, .notConfigured, .illegalCommand, .missingOperand].map CommandError.code =
    [1, 2, 3, 4, 5, 6, 7, 8, 9, 10]

/-- R25: `ESTICKY`: a command that ends with error code `c` sets bit `c` and no command clears a bit; a host write clears exactly
the bits written 1, and is refused while a command runs; bits [0] and [31:11] stay 0; reset makes it 0. -/
def Obligations.StickyBitsFollowTheirRule : Prop :=
  (∀ (i : Instr) (s t : State), exec i s = .next t →
    (∀ e, t.err = .failed e → 1 ≤ e.code ∧ e.code ≤ 10 ∧ t.esticky.getLsbD e.code = true) ∧
    ∀ c, s.esticky.getLsbD c = true → t.esticky.getLsbD c = true) ∧
  (∀ (s : State) (left : Nat) (v : Word) (rest : List HostEvent), s.busy = true → s.busyLeft = left + 1 →
    s.host = .memWrite 8#32 (.word v) :: rest → step s = .next { answered s rest .error with busyLeft := left }) ∧
  (∀ (s : State) (v : Word) (rest : List HostEvent), s.busy = false → s.host = .memWrite 8#32 (.word v) :: rest →
    ∃ e : Word, step s = .next { answered s rest .okay with esticky := e } ∧
      ∀ c, e.getLsbD c = (s.esticky.getLsbD c && !v.getLsbD c)) ∧
  (∀ s t : State, step s = .next t → s.esticky &&& 0xFFFFF801#32 = 0#32 → t.esticky &&& 0xFFFFF801#32 = 0#32) ∧
  State.reset.esticky = 0#32

/-- R221: which commands raise which error. -/
def Obligations.ErrorsComeFromTheirCommandsOnly : Prop :=
  ∀ (i : Instr) (s t : State) (e : CommandError), s.Inv → exec i s = .next t → t.err = .failed e →
    match e with
    | .invalidConfiguration => ∃ m k strat, i = .init m k strat
    | .allocationFailure => i = .frame ∨ i = .encode
    | .singularMatrix => ∃ dst s1, i = .invert dst s1
    | .noInvertibleSubmatrix => i = .gendec ∨ i = .decode
    | .tooManyErrors => i = .gendec ∨ i = .decode
    | .framingCorruption => i = .unframe ∨ i = .decode
    | .fieldInverseOfZero => (∃ a, i = .gfinv a) ∨ ∃ a b, i = .gfdiv a b
    | .notConfigured =>
      i ∈ [.gendec, .recon, .frame, .parity, .unframe, .encode, .decode] ∨ (∃ dst s1 s2, i = .matmul dst s1 s2) ∨
        ∃ dst s1, i = .invert dst s1
    | .illegalCommand =>
      i ∈ [.recon, .parity, .unframe, .decode] ∨ (∃ dst s1 s2, i = .matmul dst s1 s2) ∨ ∃ dst s1, i = .invert dst s1
    | .missingOperand => i = .parity ∨ i = .unframe

/-- R225: after an error detected by checks nothing but `STATUS.ERR`, `EINFO`, `ESTICKY` (and `BUSY`) has changed. -/
def Obligations.CheckErrorsChangeNothingElse : Prop :=
  ∀ (i : Instr) (s t : State) (e : CommandError), s.Inv → exec i s = .next t → t.err = .failed e →
    e ∈ [.illegalCommand, .notConfigured, .missingOperand, .fieldInverseOfZero, .allocationFailure] →
    t = errorEnd s e t.einfo.toNat

/-- R34: `DV` is 1 after a command only if it was 1 and the command is none of those that clear it, or the command is a GENDEC or
DECODE that ended `OK`; those two set it. -/
def Obligations.DvFollowsItsRule : Prop :=
  ∀ (i : Instr) (s t : State), s.Inv → exec i s = .next t →
    t.dv =
      match i with
      | .init _ _ _ | .deinit => false
      | .gendec | .decode =>
        if t.err = .ok then true
        else if t.err = .failed .notConfigured ∨ t.err = .failed .illegalCommand then s.dv
        else false
      | .frame | .parity | .encode => if t.err = .ok then false else s.dv
      | .nop | .gfmul _ _ | .gfdiv _ _ | .gfinv _ | .matmul _ _ _ | .invert _ _ | .recon | .unframe => s.dv

/-- R70 (column "E write") with R27, R28, R32, R42: what a command may change. Every byte it changes lies in a memory the table
gives it. -/
def Obligations.CommandsWriteOnlyWhatTheTableAllows : Prop :=
  ∀ (i : Instr) (s t : State), s.params.Valid → exec i s = .next t →
    t.cmd = s.cmd ∧ t.dim1 = s.dim1 ∧ t.dim2 = s.dim2 ∧ t.dim3 = s.dim3 ∧ t.params = s.params ∧ t.host = s.host ∧
    t.responses = s.responses ∧
    ((∀ a b, i ≠ .gfmul a b ∧ i ≠ .gfdiv a b ∧ i ≠ .gfinv a) → t.res = s.res) ∧
    ((∀ m k strat, i ≠ .init m k strat) → i ≠ .deinit →
      t.cfgv = s.cfgv ∧ t.cfgM = s.cfgM ∧ t.cfgK = s.cfgK ∧ t.cfgStrat = s.cfgStrat ∧ ∀ a, InG a → t.valueAt a = s.valueAt a) ∧
    (i ∉ [.frame, .encode] → t.len = s.len) ∧
    (i ∉ [.unframe, .decode] → t.plen = s.plen ∧ ∀ a, InPay a → t.valueAt a = s.valueAt a) ∧
    (i ∉ [.frame, .parity, .encode, .recon, .decode] → t.present = s.present ∧ ∀ a, InFrag a → t.valueAt a = s.valueAt a) ∧
    (i ∉ [.gendec, .decode] →
      t.nerrs = s.nerrs ∧ t.nsrcerrs = s.nsrcerrs ∧ ∀ a, InLists a → t.valueAt a = s.valueAt a) ∧
    (∀ id, 1 ≤ id → id ≤ 3 → i ∉ [.gendec, .decode] → (∀ s1 s2, i ≠ .matmul id s1 s2 ∧ i ≠ .invert id s1) →
      ∀ r c, r < 256 → c < 256 → t.valueAt (matAddr id r c) = s.valueAt (matAddr id r c)) ∧
    ((∀ s1 s2, i ≠ .matmul 4 s1 s2 ∧ i ≠ .invert 4 s1) →
      ∀ r c, r < 256 → c < 256 → t.valueAt (matAddr idT r c) = s.valueAt (matAddr idT r c))

/-- R145, R41: `G`, `CFG` and `CFGV` are changed by INIT, DEINIT and reset only, by no other command and no host write. -/
def Obligations.OnlyInitDeinitAndResetChangeG : Prop :=
  ∀ s t : State, step s = .next t →
    ((∃ a, InG a ∧ t.valueAt a ≠ s.valueAt a) ∨ t.cfgv ≠ s.cfgv ∨ t.cfgM ≠ s.cfgM ∨ t.cfgK ≠ s.cfgK ∨ t.cfgStrat ≠ s.cfgStrat) →
    (s.busy = true ∧ ((∃ m k strat, decode s.cmd = .ok (.init m k strat)) ∨ decode s.cmd = .ok .deinit)) ∨
      s.host.head? = some .reset

/-! ## NOP and the field unit (46_facade.md R200, 41_gf256_field.md) -/

/-- R200: NOP, the all-zero word, sets `ERR` to `OK` and nothing else; it needs no configuration. -/
def Obligations.NopOnlyClearsErr : Prop := decode 0x00000000#32 = .ok .nop ∧ ∀ s : State, exec .nop s = .next (okEnd s)

/-- R110: GFMUL, opcode 0x01 with `a = cmd[15:8]` and `b = cmd[23:16]`, writes `mul(a, b)` to `RES`, needs no configuration and
raises nothing; its corner cases and its example. -/
def Obligations.GfmulWritesTheProduct : Prop :=
  (∀ a b : Byte, decode (BitVec.ofNat 32 (0x01 + a.toNat * 2 ^ 8 + b.toNat * 2 ^ 16)) = .ok (.gfmul a b)) ∧
  (∀ (a b : Byte) (s : State), exec (.gfmul a b) s = .next (okEnd { s with res := mul s.params.poly a b })) ∧
  (∀ (poly : BitVec 9) (a : Byte), mul poly a 0#8 = 0#8 ∧ mul poly 0#8 a = 0#8 ∧ mul poly a 1#8 = a) ∧
  mul 0x11D#9 0x57#8 0x83#8 = 0x31#8

/-- R111: GFDIV, opcode 0x02 with `a = cmd[15:8]` and `b = cmd[23:16]`, writes `mul(a, inverse(b))` to `RES`, and ends
`FieldInverseOfZero` with `RES` unchanged when `b = 0`; its corner cases and its example. -/
def Obligations.GfdivWritesTheQuotient : Prop :=
  (∀ a b : Byte, decode (BitVec.ofNat 32 (0x02 + a.toNat * 2 ^ 8 + b.toNat * 2 ^ 16)) = .ok (.gfdiv a b)) ∧
  (∀ (a : Byte) (s : State), exec (.gfdiv a 0#8) s = .next (errorEnd s .fieldInverseOfZero 0)) ∧
  (∀ (a b : Byte) (s : State), irreducibleOfDegree8 s.params.poly = true → b ≠ 0#8 →
    exec (.gfdiv a b) s = .next (okEnd { s with res := mul s.params.poly a (gpow s.params.poly b 254) })) ∧
  (∀ (b : Byte) (s : State), irreducibleOfDegree8 s.params.poly = true → b ≠ 0#8 →
    exec (.gfdiv 0#8 b) s = .next (okEnd { s with res := 0#8 }) ∧
    exec (.gfdiv b 1#8) s = .next (okEnd { s with res := b }) ∧
    exec (.gfdiv b b) s = .next (okEnd { s with res := 1#8 })) ∧
  gdiv 0x11D#9 0x31#8 0x83#8 = some 0x57#8

/-- R112: GFINV, opcode 0x03 with `a = cmd[15:8]` and `cmd[23:16] = 0`, writes `inverse(a)` to `RES`, and ends
`FieldInverseOfZero` with `RES` unchanged when `a = 0`; its corner cases and its example. -/
def Obligations.GfinvWritesTheInverse : Prop :=
  (∀ a b : Byte, b = 0#8 → decode (BitVec.ofNat 32 (0x03 + a.toNat * 2 ^ 8 + b.toNat * 2 ^ 16)) = .ok (.gfinv a)) ∧
  (∀ a b : Byte, b ≠ 0#8 → ∃ e, decode (BitVec.ofNat 32 (0x03 + a.toNat * 2 ^ 8 + b.toNat * 2 ^ 16)) = .error e) ∧
  (∀ s : State, exec (.gfinv 0#8) s = .next (errorEnd s .fieldInverseOfZero 0)) ∧
  (∀ (a : Byte) (s : State), irreducibleOfDegree8 s.params.poly = true → a ≠ 0#8 →
    exec (.gfinv a) s = .next (okEnd { s with res := gpow s.params.poly a 254 })) ∧
  (∀ poly : BitVec 9, irreducibleOfDegree8 poly = true →
    inverse poly 1#8 = some 1#8 ∧ ∀ a b, inverse poly a = some b → inverse poly b = some a) ∧
  inverse 0x11D#9 0x02#8 = some 0x8E#8

/-- R102, R103: for every `POLY` with bit 8 set, `mul` is the product modulo that `POLY`: twice `b` is `b` shifted left, reduced
where its bit 7 is set, and `mul(a, b)` is the sum of the shifted and reduced `a` over the bits of `b`. For every irreducible
`POLY` it has its laws: commutative, associative, distributive over XOR, zero, one, no zero divisors. -/
def Obligations.FieldLaws : Prop :=
  (∀ poly : BitVec 9, poly.getLsbD 8 = true → ∀ a b : Byte,
    mul poly 2#8 b = ((b <<< 1) ^^^ if b.getLsbD 7 then poly.setWidth 8 else 0#8) ∧
    mul poly a b = xorSum (fun i => if b.getLsbD i then timesX poly a i else 0#8) 8) ∧
  ∀ poly : BitVec 9, irreducibleOfDegree8 poly = true → ∀ a b c : Byte,
    mul poly a b = mul poly b a ∧ mul poly a (mul poly b c) = mul poly (mul poly a b) c ∧
    mul poly a (b ^^^ c) = mul poly a b ^^^ mul poly a c ∧ mul poly a 0#8 = 0#8 ∧ mul poly a 1#8 = a ∧
    (mul poly a b = 0#8 → a = 0#8 ∨ b = 0#8)

/-- R104: every non-zero byte has exactly one inverse, which `inverse` gives and `gpow(a, 254)` is; `inverse(0)` does not exist,
though `gpow(0, 254)` is 0. -/
def Obligations.InverseIsTheFieldInverse : Prop :=
  ∀ poly : BitVec 9, irreducibleOfDegree8 poly = true →
    inverse poly 0#8 = none ∧ gpow poly 0#8 254 = 0#8 ∧
    ∀ a : Byte, a ≠ 0#8 →
      ∃ v, inverse poly a = some v ∧ v = gpow poly a 254 ∧ mul poly a v = 1#8 ∧ ∀ w, mul poly a w = 1#8 → w = v

/-- R106: powers: the recursion, the order of the multiplicative group, and that `0x02` generates it under `0x11D`. -/
def Obligations.PowersFollowTheirRule : Prop :=
  (∀ (poly : BitVec 9) (a : Byte) (e : Nat), gpow poly a 0 = 1#8 ∧ gpow poly a (e + 1) = mul poly (gpow poly a e) a) ∧
  (∀ (poly : BitVec 9) (a : Byte) (e : Nat), irreducibleOfDegree8 poly = true → a ≠ 0#8 →
    gpow poly a 255 = 1#8 ∧ gpow poly a e = gpow poly a (e % 255)) ∧
  ∀ b : Byte, b ≠ 0#8 → ∃ e, e < 255 ∧ gpow 0x11D#9 0x02#8 e = b ∧ ∀ f, f < 255 → gpow 0x11D#9 0x02#8 f = b → f = e

/-! ## The matrix unit (42_matrix_algebra.md) -/

/-- R130, R131, R223: the three checks of MATMUL and of INVERT, in their order; nothing but the report changes. -/
def Obligations.MatrixOperandRefusals : Prop :=
  (∀ (dst s1 s2 : Nat) (s : State),
    let badIds := 4 < dst ∨ 4 < s1 ∨ 4 < s2 ∨ dst = 0 ∨ dst = s1 ∨ dst = s2
    let badDims := ∃ n ∈ [s.dim1, s.dim2, s.dim3], n.toNat = 0 ∨ s.params.mmax < n.toNat
    (badIds → exec (.matmul dst s1 s2) s = .next (errorEnd s .illegalCommand 1)) ∧
    (¬badIds → badDims → exec (.matmul dst s1 s2) s = .next (errorEnd s .illegalCommand 2)) ∧
    (¬badIds → ¬badDims → s1 = 0 ∨ s2 = 0 → s.cfgv = false →
      exec (.matmul dst s1 s2) s = .next (errorEnd s .notConfigured 0))) ∧
  ∀ (dst s1 : Nat) (s : State),
    let badIds := 4 < dst ∨ 4 < s1 ∨ dst = 0 ∨ dst = s1
    let badDim := s.dim1.toNat = 0 ∨ s.params.mmax < s.dim1.toNat
    (badIds → exec (.invert dst s1) s = .next (errorEnd s .illegalCommand 1)) ∧
    (¬badIds → badDim → exec (.invert dst s1) s = .next (errorEnd s .illegalCommand 2)) ∧
    (¬badIds → ¬badDim → s1 = 0 → s.cfgv = false → exec (.invert dst s1) s = .next (errorEnd s .notConfigured 0))

/-- R121, R130: MATMUL with legal operands completes and writes the product to the corner of `MAT[dst]`, nothing else. An element
whose row and column are specified is their dot product; one that depends on an unspecified element is unspecified. -/
def Obligations.MatmulWritesTheProduct : Prop :=
  ∀ (dst s1 s2 : Nat) (s : State), dst ≤ 4 → s1 ≤ 4 → s2 ≤ 4 → dst ≠ 0 → dst ≠ s1 → dst ≠ s2 →
    (∀ n ∈ [s.dim1, s.dim2, s.dim3], 1 ≤ n.toNat ∧ n.toNat ≤ s.params.mmax) → (s1 = 0 ∨ s2 = 0 → s.cfgv = true) →
    ∃ t, exec (.matmul dst s1 s2) s = .next t ∧ t = okEnd { s with mem := t.mem } ∧
      (∀ (i j : Nat) (x y : Nat → Byte), i < s.dim1.toNat → j < s.dim3.toNat →
        (∀ u, u < s.dim2.toNat → s.valueAt (matAddr s1 i u) = some (x u) ∧ s.valueAt (matAddr s2 u j) = some (y u)) →
        t.valueAt (matAddr dst i j) = some (xorSum (fun u => mul s.params.poly (x u) (y u)) s.dim2.toNat)) ∧
      (∀ i j u, i < s.dim1.toNat → j < s.dim3.toNat → u < s.dim2.toNat →
        (s.valueAt (matAddr s1 i u) = none ∧ s.valueAt (matAddr s2 u j) ≠ some 0#8) ∨
          (s.valueAt (matAddr s1 i u) ≠ some 0#8 ∧ s.valueAt (matAddr s2 u j) = none) →
        t.valueAt (matAddr dst i j) = none) ∧
      (∀ a, (∀ i j, i < s.dim1.toNat → j < s.dim3.toNat → a ≠ matAddr dst i j) → t.valueAt a = s.valueAt a)

/-- R125, R131: INVERT of an invertible matrix completes and writes the two-sided inverse to the corner of `MAT[dst]`, nothing
else. R257, U1: where source elements are unspecified it does so for some bytes `X` in their place, the same ones for its verdict
(that the bytes are drawn once is the model's choice, log 6), and leaves a destination element unspecified only where it depends on
them: an element with one value in the inverses of all such `Y` holds that value. -/
def Obligations.InvertWritesTheInverse : Prop :=
  (∀ (dst s1 : Nat) (s : State) (M : Nat → Nat → Byte), s.params.Valid → dst ≤ 4 → s1 ≤ 4 → dst ≠ 0 → dst ≠ s1 →
    1 ≤ s.dim1.toNat → s.dim1.toNat ≤ s.params.mmax → (s1 = 0 → s.cfgv = true) →
    Corner s s1 s.dim1.toNat s.dim1.toNat M → Invertible s.params.poly s.dim1.toNat M →
    ∃ t V, exec (.invert dst s1) s = .next t ∧ t = okEnd { s with mem := t.mem } ∧
      Corner t dst s.dim1.toNat s.dim1.toNat V ∧ ProductIsIdentity s.params.poly s.dim1.toNat M V ∧
      ProductIsIdentity s.params.poly s.dim1.toNat V M ∧
      ∀ a, (∀ i j, i < s.dim1.toNat → j < s.dim1.toNat → a ≠ matAddr dst i j) → t.valueAt a = s.valueAt a) ∧
  ∀ (dst s1 : Nat) (s : State), s.params.Valid → dst ≤ 4 → s1 ≤ 4 → dst ≠ 0 → dst ≠ s1 →
    1 ≤ s.dim1.toNat → s.dim1.toNat ≤ s.params.mmax → (s1 = 0 → s.cfgv = true) →
    ∃ X t, Fills s s1 s.dim1.toNat X ∧ exec (.invert dst s1) s = .next t ∧
      (Invertible s.params.poly s.dim1.toNat X →
        t = okEnd { s with mem := t.mem } ∧
        (∀ V, ProductIsIdentity s.params.poly s.dim1.toNat V X → ∀ i j, i < s.dim1.toNat → j < s.dim1.toNat →
          t.valueAt (matAddr dst i j) = some (V i j) ∨ t.valueAt (matAddr dst i j) = none) ∧
        ∀ i j v, i < s.dim1.toNat → j < s.dim1.toNat →
          (∀ Y W, Fills s s1 s.dim1.toNat Y → ProductIsIdentity s.params.poly s.dim1.toNat W Y → W i j = v) →
          t.valueAt (matAddr dst i j) = some v) ∧
      (¬Invertible s.params.poly s.dim1.toNat X →
        (∃ c, c < s.dim1.toNat ∧ t = errorEnd { s with mem := t.mem } .singularMatrix c ∧
          ColumnsDependent s.params.poly s.dim1.toNat c X ∧ ∀ b, b < c → ¬ColumnsDependent s.params.poly s.dim1.toNat b X) ∧
        ∀ i j, i < s.dim1.toNat → j < s.dim1.toNat → t.valueAt (matAddr dst i j) = none) ∧
      ∀ a, (∀ i j, i < s.dim1.toNat → j < s.dim1.toNat → a ≠ matAddr dst i j) → t.valueAt a = s.valueAt a

/-- R125, R131: INVERT of a singular matrix ends `SingularMatrix` with `EINFO` the least `c` such that columns `0..c` are
linearly dependent; the destination corner becomes unspecified and nothing else changes. -/
def Obligations.InvertReportsTheFirstDependentColumn : Prop :=
  ∀ (dst s1 : Nat) (s : State) (M : Nat → Nat → Byte), s.params.Valid → dst ≤ 4 → s1 ≤ 4 → dst ≠ 0 → dst ≠ s1 →
    1 ≤ s.dim1.toNat → s.dim1.toNat ≤ s.params.mmax → (s1 = 0 → s.cfgv = true) →
    Corner s s1 s.dim1.toNat s.dim1.toNat M → ¬Invertible s.params.poly s.dim1.toNat M →
    ∃ t c, exec (.invert dst s1) s = .next t ∧ t = errorEnd { s with mem := t.mem } .singularMatrix c ∧
      c < s.dim1.toNat ∧ ColumnsDependent s.params.poly s.dim1.toNat c M ∧
      (∀ b, b < c → ¬ColumnsDependent s.params.poly s.dim1.toNat b M) ∧
      (∀ i j, i < s.dim1.toNat → j < s.dim1.toNat → t.valueAt (matAddr dst i j) = none) ∧
      ∀ a, (∀ i j, i < s.dim1.toNat → j < s.dim1.toNat → a ≠ matAddr dst i j) → t.valueAt a = s.valueAt a

/-! ## The generator (43_generator_builder.md) -/

/-- R140 to R143, R150: INIT with a valid configuration completes: `CFG`, `CFGV`, `DV`, and `G` with identity rows and the
strategy's parity rows; the rest of `G` is unspecified (R41) and no other byte changes. -/
def Obligations.InitBuildsTheGenerator : Prop :=
  ∀ (m k : Nat) (strat : Strategy) (s : State), s.params.Valid → ConfigurationAccepted s.params m k strat →
    ∃ t, exec (.init m k strat) s = .next t ∧
      t = okEnd { s with
        cfgv := true, cfgM := BitVec.ofNat 8 m, cfgK := BitVec.ofNat 8 k, cfgStrat := strat, dv := false, mem := t.mem } ∧
      t.m = m ∧ t.k = k ∧
      (∀ i j, i < k → j < k → t.valueAt (matAddr 0 i j) = some (if i = j then 1#8 else 0#8)) ∧
      (strat = .vandermonde → ∀ i j, k ≤ i → i < m → j < k →
        t.valueAt (matAddr 0 i j) = some (gpow s.params.poly (gpow s.params.poly 2#8 (i - k)) j)) ∧
      (strat = .cauchy → ∀ i j, k ≤ i → i < m → j < k →
        ∃ g, t.valueAt (matAddr 0 i j) = some g ∧ mul s.params.poly (BitVec.ofNat 8 (i ^^^ j)) g = 1#8) ∧
      (∀ i j, i < 256 → j < 256 → m ≤ i ∨ k ≤ j → t.valueAt (matAddr 0 i j) = none) ∧
      ∀ a, ¬InG a → t.valueAt a = s.valueAt a

/-- R150: INIT refuses any other configuration with `EINFO = cmd[24:8]` and leaves the block unconfigured. -/
def Obligations.InitRefusesOtherConfigurations : Prop :=
  ∀ (m k : Nat) (strat : Strategy) (s : State), m < 256 → k < 256 → ¬ConfigurationAccepted s.params m k strat →
    ∃ t, exec (.init m k strat) s = .next t ∧
      t = errorEnd { s with
          cfgv := false, cfgM := 0#8, cfgK := 0#8, cfgStrat := .vandermonde, dv := false, mem := t.mem }
        .invalidConfiguration ((encode (.init m k strat)).toNat / 2 ^ 8) ∧
      ∀ a, t.valueAt a = if 0x10000000 ≤ a ∧ a < 0x10010000 then none else s.valueAt a

/-- R151: DEINIT clears `CFGV`, `CFG`, `DV` and makes `G` unspecified; on an unconfigured block it changes nothing but `ERR`. -/
def Obligations.DeinitReleasesTheConfiguration : Prop :=
  ∀ s : State,
    (∃ t, exec .deinit s = .next t ∧
      t = okEnd { s with
        cfgv := false, cfgM := 0#8, cfgK := 0#8, cfgStrat := .vandermonde, dv := false, mem := t.mem } ∧
      ∀ a, t.valueAt a = if 0x10000000 ≤ a ∧ a < 0x10010000 then none else s.valueAt a) ∧
    (s.Inv → s.cfgv = false → exec .deinit s = .next (okEnd s))

/-- R221: without a configuration the commands that need one end `NotConfigured` and change nothing else. -/
def Obligations.UnconfiguredCommandsEndNotConfigured : Prop :=
  ∀ (i : Instr) (s : State), i ∈ [.gendec, .recon, .frame, .parity, .unframe, .encode, .decode] → s.cfgv = false →
    exec i s = .next (errorEnd s .notConfigured 0)

/-! ## Synthesis and reconstruction (44_decode_synth.md) -/

/-- R160, R170: with more than `r` fragments absent GENDEC writes the error descriptor and ends `TooManyErrors(nerrs)`; `DIDX`,
`B`, `BINV`, `D` are unchanged. -/
def Obligations.GendecRefusesTooManyErrors : Prop :=
  ∀ (s : State) (errl : List Nat), s.Inv → s.cfgv = true → IsErrorList s errl → s.r < errl.length →
    ∃ t, exec .gendec s = .next t ∧
      t = errorEnd { s with
          dv := false, nerrs := BitVec.ofNat 8 errl.length,
          nsrcerrs := BitVec.ofNat 8 (errl.filter fun e => decide (e < s.k)).length, mem := t.mem }
        .tooManyErrors errl.length ∧
      (∀ p, p < errl.length → t.valueAt (listAddr 0 p) = some (BitVec.ofNat 8 (errl.getD p 0))) ∧
      ∀ a, (∀ p, p < errl.length → a ≠ listAddr 0 p) → t.valueAt a = s.valueAt a

/-- R160 to R166, R170: with at most `r` fragments absent, GENDEC takes the first substitution count for which the selected rows
of `G` are invertible, and writes the error descriptor, the decode index, the selected rows, their two-sided inverse and the
decode matrix of R165, nothing else. -/
def Obligations.GendecSynthesizesTheDecodeMatrix : Prop :=
  ∀ (s : State) (G : Nat → Nat → Byte) (errl surv : List Nat) (t₀ : Nat), s.Inv → s.cfgv = true → Corner s 0 s.m s.k G →
    IsErrorList s errl → IsSurvivorList s surv → errl.length ≤ s.r → t₀ ≤ s.r - errl.length →
    Invertible s.params.poly s.k (selected G (decodeIndex s.k surv t₀)) →
    (∀ t, t < t₀ → ¬Invertible s.params.poly s.k (selected G (decodeIndex s.k surv t))) →
    ∃ u Binv, exec .gendec s = .next u ∧
      u = okEnd { s with
        dv := true, nerrs := BitVec.ofNat 8 errl.length,
        nsrcerrs := BitVec.ofNat 8 (errl.filter fun e => decide (e < s.k)).length, mem := u.mem } ∧
      (∀ p, p < errl.length → u.valueAt (listAddr 0 p) = some (BitVec.ofNat 8 (errl.getD p 0))) ∧
      (∀ j, j < s.k → u.valueAt (listAddr 1 j) = some (BitVec.ofNat 8 ((decodeIndex s.k surv t₀).getD j 0))) ∧
      Corner u 1 s.k s.k (selected G (decodeIndex s.k surv t₀)) ∧ Corner u 2 s.k s.k Binv ∧
      ProductIsIdentity s.params.poly s.k (selected G (decodeIndex s.k surv t₀)) Binv ∧
      ProductIsIdentity s.params.poly s.k Binv (selected G (decodeIndex s.k surv t₀)) ∧
      Corner u 3 errl.length s.k (fun p i =>
        if errl.getD p 0 < s.k then Binv (errl.getD p 0) i
        else xorSum (fun j => mul s.params.poly (Binv j i) (G (errl.getD p 0) j)) s.k) ∧
      ∀ a, (∀ p, p < errl.length → a ≠ listAddr 0 p) → (∀ j, j < s.k → a ≠ listAddr 1 j) →
        (∀ i j, i < s.k → j < s.k → a ≠ matAddr 1 i j ∧ a ≠ matAddr 2 i j) →
        (∀ p i, p < errl.length → i < s.k → a ≠ matAddr 3 p i) → u.valueAt a = s.valueAt a

/-- R164, R170: if none of the substitutions gives invertible rows GENDEC ends `NoInvertibleSubmatrix(r − nerrs + 1)` with the error
descriptor written, `DIDX`, `B`, `BINV` unspecified and everything else unchanged. -/
def Obligations.GendecReportsNoInvertibleSubmatrix : Prop :=
  ∀ (s : State) (G : Nat → Nat → Byte) (errl surv : List Nat), s.Inv → s.cfgv = true → Corner s 0 s.m s.k G →
    IsErrorList s errl → IsSurvivorList s surv → errl.length ≤ s.r →
    (∀ t, t ≤ s.r - errl.length → ¬Invertible s.params.poly s.k (selected G (decodeIndex s.k surv t))) →
    ∃ u, exec .gendec s = .next u ∧
      u = errorEnd { s with
          dv := false, nerrs := BitVec.ofNat 8 errl.length,
          nsrcerrs := BitVec.ofNat 8 (errl.filter fun e => decide (e < s.k)).length, mem := u.mem }
        .noInvertibleSubmatrix (s.r - errl.length + 1) ∧
      (∀ p, p < errl.length → u.valueAt (listAddr 0 p) = some (BitVec.ofNat 8 (errl.getD p 0))) ∧
      (∀ j, j < s.k → u.valueAt (listAddr 1 j) = none) ∧
      (∀ i j, i < s.k → j < s.k → u.valueAt (matAddr 1 i j) = none ∧ u.valueAt (matAddr 2 i j) = none) ∧
      ∀ a, (∀ p, p < errl.length → a ≠ listAddr 0 p) → (∀ j, j < s.k → a ≠ listAddr 1 j) →
        (∀ i j, i < s.k → j < s.k → a ≠ matAddr 1 i j ∧ a ≠ matAddr 2 i j) → u.valueAt a = s.valueAt a

/-- R143, R144: under the Cauchy strategy every `k` rows of `G` are independent, so the synthesis always succeeds (and never
retries). -/
def Obligations.CauchySynthesisAlwaysSucceeds : Prop :=
  ∀ s t : State, s.Inv → s.cfgv = true → s.cfgStrat = .cauchy → s.errorCount ≤ s.r → exec .gendec s = .next t →
    t.err = .ok ∧ ∀ surv, IsSurvivorList s surv →
      ∀ j, j < s.k → t.valueAt (listAddr 1 j) = some (BitVec.ofNat 8 (surv.getD j 0))

/-- R171, R191, R192, R202, R223: the checks after `NotConfigured` of RECON, PARITY, UNFRAME and DECODE, in their order:
`IllegalCommand(4)` without a descriptor, `IllegalCommand(3)` for an illegal `L`, then `MissingOperand` with the least absent
index for PARITY and UNFRAME. Nothing but the report changes. -/
def Obligations.DescriptorLengthAndPresenceRefusals : Prop :=
  ∀ s : State, s.cfgv = true →
    (s.dv = false → exec .recon s = .next (errorEnd s .illegalCommand 4)) ∧
    (s.len.toNat = 0 ∨ s.params.lmax < s.len.toNat →
      (s.dv = true → exec .recon s = .next (errorEnd s .illegalCommand 3)) ∧
      ∀ i, i ∈ [.parity, .unframe, .decode] → exec i s = .next (errorEnd s .illegalCommand 3)) ∧
    ∀ i, 1 ≤ s.len.toNat → s.len.toNat ≤ s.params.lmax → i < s.k → s.isPresent i = false →
      (∀ j, j < i → s.isPresent j = true) →
      exec .parity s = .next (errorEnd s .missingOperand i) ∧ exec .unframe s = .next (errorEnd s .missingOperand i)

/-- R171: RECON with a valid descriptor and a legal `L` completes: every absent fragment becomes the dot product of its row of `D`
with the fragments of the decode index, per byte offset, and is marked present; nothing else changes. -/
def Obligations.ReconRebuildsTheAbsentFragments : Prop :=
  ∀ (s : State) (errl didx : List Nat), s.Inv → s.cfgv = true → s.dv = true → 1 ≤ s.len.toNat → s.len.toNat ≤ s.params.lmax →
    errl.length = s.nerrs.toNat → didx.length = s.k →
    (∀ p, p < errl.length → errl.getD p 0 < s.m ∧ s.valueAt (listAddr 0 p) = some (BitVec.ofNat 8 (errl.getD p 0))) →
    (∀ j, j < s.k → didx.getD j 0 < s.m ∧ s.valueAt (listAddr 1 j) = some (BitVec.ofNat 8 (didx.getD j 0))) →
    ∃ t, exec .recon s = .next t ∧ t = okEnd { s with present := t.present, mem := t.mem } ∧
      (∀ i, t.isPresent i = (s.isPresent i || decide (i ∈ errl))) ∧
      (∀ (p o : Nat) (x y : Nat → Byte), p < errl.length → o < s.len.toNat →
        (∀ j, j < s.k → s.valueAt (matAddr 3 p j) = some (x j) ∧ s.valueAt (fragAddr (didx.getD j 0) o) = some (y j)) →
        t.valueAt (fragAddr (errl.getD p 0) o) = some (xorSum (fun j => mul s.params.poly (x j) (y j)) s.k)) ∧
      ∀ a, (∀ p o, p < errl.length → o < s.len.toNat → a ≠ fragAddr (errl.getD p 0) o) → t.valueAt a = s.valueAt a

/-! ## Framing (45_framing.md) -/

/-- R180 to R183, R190: FRAME of a payload that fits completes: the data fragments hold payload, pad and trailer, `L` is the frame
length, exactly the data fragments of the configuration are present, `DV` is 0; nothing else changes. -/
def Obligations.FrameBuildsTheFrame : Prop :=
  ∀ (s : State) (n d l : Nat), s.Inv → s.cfgv = true → n = s.plen.toNat → IsDigitCount n d → IsFrameLength n d s.k l →
    l ≤ s.params.lmax →
    ∃ t, exec .frame s = .next t ∧
      t = okEnd { s with len := BitVec.ofNat 21 l, present := t.present, dv := false, mem := t.mem } ∧ t.len.toNat = l ∧
      (∀ i, t.isPresent i = if i < s.k then true else if i < s.m then false else s.isPresent i) ∧
      (∀ x, x < n → t.valueAt (frameByteAddr l x) = s.valueAt (payAddr x)) ∧
      (∀ x, n ≤ x → x < s.k * l - d → t.valueAt (frameByteAddr l x) = some s.params.pad) ∧
      (∀ u, u < d → t.valueAt (frameByteAddr l (s.k * l - 1 - u)) = some (BitVec.ofNat 8 (0x30 + n / 10 ^ u % 10))) ∧
      ∀ a, (∀ i o, i < s.k → o < l → a ≠ fragAddr i o) → t.valueAt a = s.valueAt a

/-- R190, R221: a frame that does not fit is `AllocationFailure` for FRAME and for ENCODE, with nothing else changed. -/
def Obligations.FrameThatDoesNotFitIsRefused : Prop :=
  ∀ (s : State) (d l : Nat), s.Inv → s.cfgv = true → IsDigitCount s.plen.toNat d → IsFrameLength s.plen.toNat d s.k l →
    s.params.lmax < l →
    exec .frame s = .next (errorEnd s .allocationFailure 0) ∧ exec .encode s = .next (errorEnd s .allocationFailure 0)

/-- R191, R122: PARITY with a legal `L` and all data fragments present completes: the parity fragments are the dot products of
`G`'s parity rows with the data fragments, per byte offset, and are marked present, `DV` is 0; nothing else changes. -/
def Obligations.ParityComputesTheParityFragments : Prop :=
  ∀ (s : State) (G : Nat → Nat → Byte), s.Inv → s.cfgv = true → 1 ≤ s.len.toNat → s.len.toNat ≤ s.params.lmax →
    (∀ i, i < s.k → s.isPresent i = true) → Corner s 0 s.m s.k G →
    ∃ t, exec .parity s = .next t ∧ t = okEnd { s with present := t.present, dv := false, mem := t.mem } ∧
      (∀ i, t.isPresent i = (s.isPresent i || decide (s.k ≤ i ∧ i < s.m))) ∧
      (∀ (i o : Nat) (y : Nat → Byte), s.k ≤ i → i < s.m → o < s.len.toNat →
        (∀ j, j < s.k → s.valueAt (fragAddr j o) = some (y j)) →
        t.valueAt (fragAddr i o) = some (xorSum (fun j => mul s.params.poly (G i j) (y j)) s.k)) ∧
      ∀ a, (∀ i o, s.k ≤ i → i < s.m → o < s.len.toNat → a ≠ fragAddr i o) → t.valueAt a = s.valueAt a

/-- R184, R192: UNFRAME of a buffer that ends in a pad byte and a digit run whose number does not exceed it completes: `PLEN` is
that number and `PAY` the first that many bytes of the buffer; nothing else changes. -/
def Obligations.UnframeRecoversThePayload : Prop :=
  ∀ (s : State) (X : Nat → Byte) (d n : Nat), s.Inv → s.cfgv = true → 1 ≤ s.len.toNat → s.len.toNat ≤ s.params.lmax →
    (∀ i, i < s.k → s.isPresent i = true) →
    (∀ x, x < s.k * s.len.toNat → s.valueAt (frameByteAddr s.len.toNat x) = some (X x)) →
    1 ≤ d → d < s.k * s.len.toNat → DigitRun X (s.k * s.len.toNat) d → X (s.k * s.len.toNat - 1 - d) = s.params.pad →
    n = trailerNumber X (s.k * s.len.toNat) d → n ≤ s.k * s.len.toNat →
    ∃ t, exec .unframe s = .next t ∧ t = okEnd { s with plen := BitVec.ofNat 32 n, mem := t.mem } ∧ t.plen.toNat = n ∧
      (∀ x, x < n → t.valueAt (payAddr x) = some (X x)) ∧
      ∀ a, (∀ x, x < n → a ≠ payAddr x) → t.valueAt a = s.valueAt a

/-- R184, R192: the three cases of `FramingCorruption`: no digit at the end; a digit run that no pad byte ends; a number that
exceeds the buffer. Nothing else changes. -/
def Obligations.UnframeReportsCorruption : Prop :=
  ∀ (s : State) (X : Nat → Byte), s.Inv → s.cfgv = true → 1 ≤ s.len.toNat → s.len.toNat ≤ s.params.lmax →
    (∀ i, i < s.k → s.isPresent i = true) →
    (∀ x, x < s.k * s.len.toNat → s.valueAt (frameByteAddr s.len.toNat x) = some (X x)) →
    (isDigit (X (s.k * s.len.toNat - 1)) = false → exec .unframe s = .next (errorEnd s .framingCorruption 1)) ∧
    (DigitRun X (s.k * s.len.toNat) (s.k * s.len.toNat) → exec .unframe s = .next (errorEnd s .framingCorruption 2)) ∧
    (∀ d, 1 ≤ d → d < s.k * s.len.toNat → DigitRun X (s.k * s.len.toNat) d →
      (isDigit (X (s.k * s.len.toNat - 1 - d)) = false → X (s.k * s.len.toNat - 1 - d) ≠ s.params.pad →
        exec .unframe s = .next (errorEnd s .framingCorruption 2)) ∧
      (X (s.k * s.len.toNat - 1 - d) = s.params.pad → s.k * s.len.toNat < trailerNumber X (s.k * s.len.toNat) d →
        exec .unframe s = .next (errorEnd s .framingCorruption 3)))

/-- R185, R192: UNFRAME returns the payload FRAME built its frame from, whatever bytes it holds, in every later state with the
same parameters, configuration, `L` and data fragments, all present, and any `PLEN` and `PAY`. -/
def Obligations.UnframeOfFrameIsThePayload : Prop :=
  ∀ s t u : State, s.Inv → exec .frame s = .next t → t.err = .ok →
    u.Inv → u.params = t.params → u.cfgv = t.cfgv → u.cfgM = t.cfgM → u.cfgK = t.cfgK → u.cfgStrat = t.cfgStrat → u.len = t.len →
    (∀ i, i < t.k → u.isPresent i = t.isPresent i) →
    (∀ i o, i < t.k → o < t.len.toNat → u.valueAt (fragAddr i o) = t.valueAt (fragAddr i o)) →
    ∃ v, exec .unframe u = .next v ∧ v = okEnd { u with plen := s.plen, mem := v.mem } ∧
      (∀ x, x < s.plen.toNat → v.valueAt (payAddr x) = s.valueAt (payAddr x)) ∧
      ∀ a, (∀ x, x < s.plen.toNat → a ≠ payAddr x) → v.valueAt a = u.valueAt a

/-! ## The façade (46_facade.md) -/

/-- R201: ENCODE is FRAME and, if it ended `OK`, PARITY, as one command (one draw of the model's counter instead of two); after a
frame that fits PARITY cannot fail and all `m` fragments are present. -/
def Obligations.EncodeIsFrameThenParity : Prop :=
  ∀ s t : State, exec .frame s = .next t →
    (t.err ≠ .ok → exec .encode s = .next t) ∧
    (t.err = .ok → ∃ u, exec .parity t = .next u ∧ exec .encode s = .next { u with epoch := s.epoch + 1 } ∧
      (s.Inv → u.err = .ok ∧ u.dv = false ∧ ∀ i, i < s.m → u.isPresent i = true))

/-- R201, R190: ENCODE completes for every payload that fits. -/
def Obligations.EncodeCompletesForEveryPayloadThatFits : Prop :=
  ∀ (s : State) (d l : Nat), s.Inv → s.cfgv = true → IsDigitCount s.plen.toNat d → IsFrameLength s.plen.toNat d s.k l →
    l ≤ s.params.lmax →
    ∃ t, exec .encode s = .next t ∧
      t = okEnd { s with len := BitVec.ofNat 21 l, present := t.present, dv := false, mem := t.mem } ∧
      (∀ i, t.isPresent i = (s.isPresent i || decide (i < s.m))) ∧
      ∀ a, (∀ i o, i < s.m → o < l → a ≠ fragAddr i o) → t.valueAt a = s.valueAt a

/-- R202: DECODE is GENDEC, then RECON, then UNFRAME, as one command, each stage only if the one before ended `OK`; a
`FramingCorruption` of the last clears `DV`. (Where the present fragments are specified, so that no free value is drawn.) -/
def Obligations.DecodeIsGendecReconUnframe : Prop :=
  ∀ s t : State, s.Inv → s.cfgv = true → 1 ≤ s.len.toNat → s.len.toNat ≤ s.params.lmax →
    (∀ i o, i < s.m → s.isPresent i = true → o < s.len.toNat → ∃ b, s.valueAt (fragAddr i o) = some b) →
    exec .gendec s = .next t →
    (t.err ≠ .ok → exec .decode s = .next t) ∧
    (t.err = .ok → ∃ u v, exec .recon t = .next u ∧ u.err = .ok ∧ exec .unframe u = .next v ∧
      exec .decode s = .next { v with epoch := s.epoch + 1, dv := decide (v.err = .ok) })

/-- R202 corner case: without holes DECODE completes as UNFRAME does, with an empty descriptor and the identity as `B` and `BINV`. -/
def Obligations.DecodeWithoutHolesUnframes : Prop :=
  ∀ (s : State) (X : Nat → Byte) (d n : Nat), s.Inv → s.cfgv = true → 1 ≤ s.len.toNat → s.len.toNat ≤ s.params.lmax →
    (∀ i, i < s.m → s.isPresent i = true) →
    (∀ x, x < s.k * s.len.toNat → s.valueAt (frameByteAddr s.len.toNat x) = some (X x)) →
    1 ≤ d → d < s.k * s.len.toNat → DigitRun X (s.k * s.len.toNat) d → X (s.k * s.len.toNat - 1 - d) = s.params.pad →
    n = trailerNumber X (s.k * s.len.toNat) d → n ≤ s.k * s.len.toNat →
    ∃ t, exec .decode s = .next t ∧
      t = okEnd { s with dv := true, nerrs := 0#8, nsrcerrs := 0#8, plen := BitVec.ofNat 32 n, mem := t.mem } ∧
      (∀ j, j < s.k → t.valueAt (listAddr 1 j) = some (BitVec.ofNat 8 j)) ∧
      Corner t 1 s.k s.k (fun i j => if i = j then 1#8 else 0#8) ∧ Corner t 2 s.k s.k (fun i j => if i = j then 1#8 else 0#8) ∧
      (∀ x, x < n → t.valueAt (payAddr x) = some (X x)) ∧
      ∀ a, (∀ x, x < n → a ≠ payAddr x) → (∀ j, j < s.k → a ≠ listAddr 1 j) →
        (∀ i j, i < s.k → j < s.k → a ≠ matAddr 1 i j ∧ a ≠ matAddr 2 i j) → t.valueAt a = s.valueAt a

/-- R203: round trip under loss. After ENCODE of a payload, in any later state with the same configuration, `L` and unmodified
present fragments, at most `r` of them absent, DECODE either returns exactly that payload and restores every fragment, or ends
`NoInvertibleSubmatrix`; it never returns another payload. -/
def Obligations.DecodeOfEncodeIsThePayload : Prop :=
  ∀ s t u : State, s.Inv → s.cfgv = true → (∀ x, x < s.plen.toNat → ∃ b, s.valueAt (payAddr x) = some b) →
    exec .encode s = .next t → t.err = .ok →
    u.Inv → u.params = t.params → u.cfgv = true → u.cfgM = t.cfgM → u.cfgK = t.cfgK → u.cfgStrat = t.cfgStrat → u.len = t.len →
    u.errorCount ≤ u.r →
    (∀ i o, i < t.m → o < t.len.toNat → u.isPresent i = true → u.valueAt (fragAddr i o) = t.valueAt (fragAddr i o)) →
    ∃ v, exec .decode u = .next v ∧
      (v.err = .failed .noInvertibleSubmatrix ∨
        (v.err = .ok ∧ v.plen = s.plen ∧ (∀ x, x < s.plen.toNat → v.valueAt (payAddr x) = s.valueAt (payAddr x)) ∧
          ∀ i o, i < t.m → o < t.len.toNat → v.isPresent i = true ∧ v.valueAt (fragAddr i o) = t.valueAt (fragAddr i o)))

/-! ## Invariants -/

/-- Memory keeps its canonical form in every step (the model's own form, log 4). -/
def Obligations.StepKeepsMemoryCanonical : Prop :=
  ∀ s t : State, s.mem.wf → step s = .next t → t.mem.wf

/-- R8, R25, R28, R33, R34, R41, R42: every step keeps the invariant: valid parameters, canonical memory with bytes that exist
only, reserved bits 0, a legal configuration, `G` the generator of that configuration and unspecified elsewhere, and, while `DV`
is 1, a descriptor in the lists. -/
def Obligations.StepKeepsTheInvariant : Prop :=
  ∀ s t : State, s.Inv → step s = .next t → t.Inv

/-- The state after reset keeps the invariant. (That its parameters are the reference ones is the model's choice, log 1.) -/
def Obligations.ResetSatisfiesTheInvariant : Prop := State.reset.Inv
end

