-- ==== Sys2Proof/Laws/Memory.lean ====
section
/-! SUPPORT. What the memory operations of Machine/Ops.lean do: what a byte reads as after a write, and that every write keeps
the canonical form. -/

namespace Sys2Proof.Machine

@[simp] theorem Memory.byteAt_nil (a : Nat) : Memory.byteAt [] a = none := rfl

theorem Memory.byteAt_append (m n : Memory) (a : Nat) :
    Memory.byteAt (m ++ n) a = (Memory.byteAt m a).or (Memory.byteAt n a) := by
  induction m with
  | nil => simp
  | cons c m ih =>
    simp only [List.cons_append, Memory.byteAt]
    split
    · simp
    · exact ih

theorem Memory.byteAt_filter (m : Memory) (P : Nat → Bool) (a : Nat) :
    Memory.byteAt (m.filter fun c => P c.1) a = if P a then Memory.byteAt m a else none := by
  induction m with
  | nil => simp
  | cons c m ih =>
    by_cases hc : c.1 = a
    · subst hc
      by_cases hp : P c.1 <;> simp [hp, Memory.byteAt, ih]
    · by_cases hp : P c.1 <;> simp [hp, Memory.byteAt, ih, hc]

theorem Memory.cells_succ (b n : Nat) (f : Nat → Option Byte) :
    Memory.cells b (n + 1) f = Memory.cells b n f ++ ((f n).map fun v => (b + n, v)).toList := by
  unfold Memory.cells
  rw [List.range_succ, List.filterMap_append]
  cases h : f n <;> simp [h]

theorem Memory.byteAt_cells (b n : Nat) (f : Nat → Option Byte) (a : Nat) :
    Memory.byteAt (Memory.cells b n f) a = if b ≤ a ∧ a < b + n then f (a - b) else none := by
  induction n with
  | zero => simp [Memory.cells]
  | succ n ih =>
    rw [Memory.cells_succ, Memory.byteAt_append, ih]
    by_cases h : b ≤ a ∧ a < b + n
    · have hn : ¬b + n = a := by omega
      have h' : b ≤ a ∧ a < b + (n + 1) := by omega
      cases hf : f n <;> simp [h, h', hn, Memory.byteAt]
    · by_cases e : b + n = a
      · subst e
        cases hf : f n <;> simp [Memory.byteAt, hf]
      · have h' : ¬(b ≤ a ∧ a < b + (n + 1)) := by omega
        cases hf : f n <;> simp [h, h', e, Memory.byteAt]

/-- What a byte reads as after the one write of memory. -/
theorem Memory.byteAt_fill (m : Memory) (b n : Nat) (f : Nat → Option Byte) (a : Nat) :
    (m.fill b n f).byteAt a = if b ≤ a ∧ a < b + n then f (a - b) else m.byteAt a := by
  unfold Memory.fill
  rw [Memory.byteAt_append, Memory.byteAt_append, Memory.byteAt_cells,
    Memory.byteAt_filter m (fun x => decide (x < b)) a, Memory.byteAt_filter m (fun x => decide (b + n ≤ x)) a]
  by_cases h1 : a < b
  · have h2 : ¬b ≤ a := by omega
    have h3 : ¬b + n ≤ a := by omega
    simp [h1, h2, h3]
  · by_cases h2 : b + n ≤ a
    · have h3 : ¬a < b + n := by omega
      simp [h1, h2, h3]
    · have h3 : b ≤ a ∧ a < b + n := by omega
      simp [h1, h2, h3]

theorem Memory.mem_cells {b n : Nat} {f : Nat → Option Byte} {c : Host.Cell} (h : c ∈ Memory.cells b n f) :
    b ≤ c.1 ∧ c.1 < b + n := by
  simp only [Memory.cells, List.mem_filterMap, List.mem_range, Option.map_eq_some_iff] at h
  obtain ⟨o, ho, v, -, rfl⟩ := h
  exact ⟨by simp, by simpa using ho⟩

theorem Memory.cells_wf (b n : Nat) (f : Nat → Option Byte) : (Memory.cells b n f).wf := by
  induction n with
  | zero => simp [Memory.cells, Memory.wf]
  | succ n ih =>
    rw [Memory.cells_succ]
    refine List.pairwise_append.2 ⟨ih, ?_, ?_⟩
    · cases f n <;> simp
    · intro c hc d hd
      have hb := (Memory.mem_cells hc).2
      cases hf : f n <;> simp [hf] at hd
      subst hd
      simpa using hb

/-- The one write of memory keeps the canonical form. -/
theorem Memory.fill_wf {m : Memory} (h : m.wf) (b n : Nat) (f : Nat → Option Byte) : (m.fill b n f).wf := by
  refine List.pairwise_append.2 ⟨List.pairwise_append.2 ⟨h.filter _, Memory.cells_wf b n f, ?_⟩, h.filter _, ?_⟩
  · intro c hc d hd
    have h1 : c.1 < b := by simpa using (List.mem_filter.1 hc).2
    have h2 := (Memory.mem_cells hd).1
    omega
  · intro c hc d hd
    have h2 : b + n ≤ d.1 := by simpa using (List.mem_filter.1 hd).2
    rcases List.mem_append.1 hc with hc | hc
    · have h1 : c.1 < b := by simpa using (List.mem_filter.1 hc).2
      omega
    · have h1 := (Memory.mem_cells hc).2
      omega

/-- An entry after a write was there before, or lies in the bytes written. -/
theorem Memory.mem_fill {m : Memory} {b n : Nat} {f : Nat → Option Byte} {c : Host.Cell} (h : c ∈ m.fill b n f) :
    c ∈ m ∨ (b ≤ c.1 ∧ c.1 < b + n) := by
  rcases List.mem_append.1 h with h | h
  · rcases List.mem_append.1 h with h | h
    · exact .inl (List.mem_filter.1 h).1
    · exact .inr (Memory.mem_cells h)
  · exact .inl (List.mem_filter.1 h).1

theorem Memory.fillBlock_wf {m : Memory} (h : m.wf) (base stride cols : Nat) (f : Nat → Nat → Option Byte) (rows : Nat) :
    (m.fillBlock base stride cols f rows).wf := by
  induction rows with
  | zero => exact h
  | succ r ih => exact Memory.fill_wf ih _ _ _

/-- What a byte reads as after a block of rows that do not overlap is written. -/
theorem Memory.byteAt_fillBlock (m : Memory) (base stride cols : Nat) (f : Nat → Nat → Option Byte) (rows a : Nat)
    (hc : cols ≤ stride) :
    (m.fillBlock base stride cols f rows).byteAt a =
      if base ≤ a ∧ (a - base) / stride < rows ∧ (a - base) % stride < cols then
        f ((a - base) / stride) ((a - base) % stride)
      else m.byteAt a := by
  induction rows with
  | zero => simp [Memory.fillBlock]
  | succ r ih =>
    rw [Memory.fillBlock, Memory.byteAt_fill, ih]
    by_cases hr : base + r * stride ≤ a ∧ a < base + r * stride + cols
    · have hs : 0 < stride := by omega
      have hd : (a - base) / stride = r := by
        refine Nat.div_eq_of_lt_le ?_ ?_
        · omega
        · rw [Nat.succ_mul]; omega
      have hm : (a - base) % stride = a - (base + r * stride) := by
        have e := Nat.div_add_mod (a - base) stride
        rw [hd, Nat.mul_comm] at e
        omega
      have hlt : a - (base + r * stride) < cols := by omega
      have hb : base ≤ a := by omega
      rw [if_pos hr, hd, hm, if_pos ⟨hb, Nat.lt_succ_self r, hlt⟩]
    · rw [if_neg hr]
      by_cases hq : base ≤ a ∧ (a - base) / stride < r ∧ (a - base) % stride < cols
      · rw [if_pos hq, if_pos ⟨hq.1, by omega, hq.2.2⟩]
      · rw [if_neg hq, if_neg]
        rintro ⟨h1, h2, h3⟩
        rcases Nat.lt_succ_iff_lt_or_eq.1 h2 with h2 | h2
        · exact hq ⟨h1, h2, h3⟩
        · have e := Nat.div_add_mod (a - base) stride
          rw [h2, Nat.mul_comm] at e
          omega

/-- An entry after a block is written was there before, or lies in one of its rows. -/
theorem Memory.mem_fillBlock {m : Memory} {base stride cols : Nat} {f : Nat → Nat → Option Byte} {rows : Nat} {c : Host.Cell}
    (h : c ∈ m.fillBlock base stride cols f rows) :
    c ∈ m ∨ ∃ i, i < rows ∧ base + i * stride ≤ c.1 ∧ c.1 < base + i * stride + cols := by
  induction rows with
  | zero => exact .inl h
  | succ r ih =>
    rcases Memory.mem_fill h with h | h
    · rcases ih h with h | ⟨i, hi, hb⟩
      · exact .inl h
      · exact .inr ⟨i, by omega, hb⟩
    · exact .inr ⟨r, by omega, h⟩

/-! ## The named writes -/

theorem Memory.byteAt_fillMatrix_at (m : Memory) (id rows cols i j : Nat) (f : Nat → Nat → Option Byte) (hc : cols ≤ 2 ^ 8)
    (hi : i < rows) (hj : j < cols) : (m.fillMatrix id rows cols f).byteAt (matAddr id i j) = f i j := by
  have e : matAddr id i j - matAddr id 0 0 = i * 2 ^ 8 + j := by simp [matAddr]; omega
  have h1 : (i * 2 ^ 8 + j) / 2 ^ 8 = i := by omega
  have h2 : (i * 2 ^ 8 + j) % 2 ^ 8 = j := by omega
  have hb : matAddr id 0 0 ≤ matAddr id i j := by simp [matAddr]; omega
  rw [Memory.fillMatrix, Memory.byteAt_fillBlock _ _ _ _ _ _ _ hc, e, h1, h2, if_pos ⟨hb, hi, hj⟩]

theorem Memory.byteAt_fillMatrix_off (m : Memory) (id rows cols a : Nat) (f : Nat → Nat → Option Byte) (hc : cols ≤ 2 ^ 8)
    (h : ∀ i j, i < rows → j < cols → a ≠ matAddr id i j) : (m.fillMatrix id rows cols f).byteAt a = m.byteAt a := by
  rw [Memory.fillMatrix, Memory.byteAt_fillBlock _ _ _ _ _ _ _ hc, if_neg]
  rintro ⟨h1, h2, h3⟩
  refine h _ _ h2 h3 ?_
  have e := Nat.div_add_mod (a - matAddr id 0 0) (2 ^ 8)
  simp only [matAddr] at *
  omega

theorem Memory.byteAt_fillFragments_at (m : Memory) (first count n i o : Nat) (f : Nat → Nat → Option Byte)
    (hn : n ≤ 2 ^ 20) (hi : i < count) (ho : o < n) :
    (m.fillFragments first count n f).byteAt (fragAddr (first + i) o) = f i o := by
  have e : fragAddr (first + i) o - fragAddr first 0 = i * 2 ^ 20 + o := by simp [fragAddr]; omega
  have h1 : (i * 2 ^ 20 + o) / 2 ^ 20 = i := by omega
  have h2 : (i * 2 ^ 20 + o) % 2 ^ 20 = o := by omega
  have hb : fragAddr first 0 ≤ fragAddr (first + i) o := by simp [fragAddr]; omega
  rw [Memory.fillFragments, Memory.byteAt_fillBlock _ _ _ _ _ _ _ hn, e, h1, h2, if_pos ⟨hb, hi, ho⟩]

theorem Memory.byteAt_fillFragments_off (m : Memory) (first count n a : Nat) (f : Nat → Nat → Option Byte) (hn : n ≤ 2 ^ 20)
    (h : ∀ i o, i < count → o < n → a ≠ fragAddr (first + i) o) :
    (m.fillFragments first count n f).byteAt a = m.byteAt a := by
  rw [Memory.fillFragments, Memory.byteAt_fillBlock _ _ _ _ _ _ _ hn, if_neg]
  rintro ⟨h1, h2, h3⟩
  refine h _ _ h2 h3 ?_
  have e := Nat.div_add_mod (a - fragAddr first 0) (2 ^ 20)
  simp only [fragAddr] at *
  omega

theorem Memory.byteAt_fillFragment (m : Memory) (i n a : Nat) (f : Nat → Option Byte) :
    (m.fillFragment i n f).byteAt a = if fragAddr i 0 ≤ a ∧ a < fragAddr i 0 + n then f (a - fragAddr i 0) else m.byteAt a :=
  Memory.byteAt_fill m _ n f a

theorem Memory.byteAt_fillList (m : Memory) (id n a : Nat) (f : Nat → Option Byte) :
    (m.fillList id n f).byteAt a =
      if listAddr id 0 ≤ a ∧ a < listAddr id 0 + n then f (a - listAddr id 0) else m.byteAt a :=
  Memory.byteAt_fill m _ n f a

theorem Memory.byteAt_fillPayload (m : Memory) (n a : Nat) (f : Nat → Option Byte) :
    (m.fillPayload n f).byteAt a = if payAddr 0 ≤ a ∧ a < payAddr 0 + n then f (a - payAddr 0) else m.byteAt a :=
  Memory.byteAt_fill m _ n f a

theorem Memory.byteAt_forgetG (m : Memory) (a : Nat) :
    m.forgetG.byteAt a = if matAddr idG 0 0 ≤ a ∧ a < matAddr idG 0 0 + 2 ^ 16 then none else m.byteAt a := by
  rw [Memory.forgetG,
    Memory.byteAt_filter m (fun x => !(decide (matAddr idG 0 0 ≤ x) && decide (x < matAddr idG 0 0 + 2 ^ 16))) a]
  by_cases h : matAddr idG 0 0 ≤ a ∧ a < matAddr idG 0 0 + 2 ^ 16
  · rw [if_pos h, if_neg]
    simp only [Bool.not_eq_true', Bool.and_eq_false_iff, decide_eq_false_iff_not]
    omega
  · rw [if_neg h, if_pos]
    simp only [Bool.not_eq_true', Bool.and_eq_false_iff, decide_eq_false_iff_not]
    omega

theorem Memory.mem_forgetG {m : Memory} {c : Host.Cell} (h : c ∈ m.forgetG) : c ∈ m := (List.mem_filter.1 h).1

theorem Memory.byteAt_store (m : Memory) (x : Nat) (b : Byte) (a : Nat) :
    (m.store x b).byteAt a = if a = x then some b else m.byteAt a := by
  rw [Memory.store, Memory.byteAt_fill]
  by_cases h : a = x
  · subst h; simp
  · have h' : ¬(x ≤ a ∧ a < x + 1) := by omega
    rw [if_neg h, if_neg h']

/-- Every named write keeps the canonical form. -/
theorem Memory.named_writes_wf {m : Memory} (h : m.wf) :
    (∀ id rows cols f, (m.fillMatrix id rows cols f).wf) ∧ (∀ id n f, (m.fillList id n f).wf) ∧
      (∀ i n f, (m.fillFragment i n f).wf) ∧ (∀ first count n f, (m.fillFragments first count n f).wf) ∧
      (∀ n f, (m.fillPayload n f).wf) ∧ m.forgetG.wf ∧ (∀ a b, (m.store a b).wf) :=
  ⟨fun _ _ _ _ => Memory.fillBlock_wf h _ _ _ _ _, fun _ _ _ => Memory.fill_wf h _ _ _, fun _ _ _ => Memory.fill_wf h _ _ _,
    fun _ _ _ _ => Memory.fillBlock_wf h _ _ _ _ _, fun _ _ => Memory.fill_wf h _ _ _, h.filter _,
    fun _ _ => Memory.fill_wf h _ _ _⟩

end Sys2Proof.Machine
end

