-- ==== Sys2Proof/Laws/State.lean ====
section
/-! SUPPORT. One lemma for each field under each named update of the state, so that no proof unfolds an update. -/

namespace Sys2Proof.Machine

/-! ## R224: the end without error -/

@[simp] theorem State.finish_params (s : State) : s.finish.params = s.params := rfl
@[simp] theorem State.finish_cmd (s : State) : s.finish.cmd = s.cmd := rfl
@[simp] theorem State.finish_busy (s : State) : s.finish.busy = false := rfl
@[simp] theorem State.finish_cfgv (s : State) : s.finish.cfgv = s.cfgv := rfl
@[simp] theorem State.finish_dv (s : State) : s.finish.dv = s.dv := rfl
@[simp] theorem State.finish_err (s : State) : s.finish.err = .ok := rfl
@[simp] theorem State.finish_esticky (s : State) : s.finish.esticky = s.esticky := rfl
@[simp] theorem State.finish_einfo (s : State) : s.finish.einfo = s.einfo := rfl
@[simp] theorem State.finish_res (s : State) : s.finish.res = s.res := rfl
@[simp] theorem State.finish_cfgM (s : State) : s.finish.cfgM = s.cfgM := rfl
@[simp] theorem State.finish_cfgK (s : State) : s.finish.cfgK = s.cfgK := rfl
@[simp] theorem State.finish_cfgStrat (s : State) : s.finish.cfgStrat = s.cfgStrat := rfl
@[simp] theorem State.finish_len (s : State) : s.finish.len = s.len := rfl
@[simp] theorem State.finish_plen (s : State) : s.finish.plen = s.plen := rfl
@[simp] theorem State.finish_dim1 (s : State) : s.finish.dim1 = s.dim1 := rfl
@[simp] theorem State.finish_dim2 (s : State) : s.finish.dim2 = s.dim2 := rfl
@[simp] theorem State.finish_dim3 (s : State) : s.finish.dim3 = s.dim3 := rfl
@[simp] theorem State.finish_nerrs (s : State) : s.finish.nerrs = s.nerrs := rfl
@[simp] theorem State.finish_nsrcerrs (s : State) : s.finish.nsrcerrs = s.nsrcerrs := rfl
@[simp] theorem State.finish_present (s : State) : s.finish.present = s.present := rfl
@[simp] theorem State.finish_mem (s : State) : s.finish.mem = s.mem := rfl
@[simp] theorem State.finish_host (s : State) : s.finish.host = s.host := rfl
@[simp] theorem State.finish_responses (s : State) : s.finish.responses = s.responses := rfl
@[simp] theorem State.finish_busyLeft (s : State) : s.finish.busyLeft = 0 := rfl
@[simp] theorem State.finish_epoch (s : State) : s.finish.epoch = s.epoch + 1 := rfl
@[simp] theorem State.finish_valueAt (s : State) (a : Nat) : s.finish.valueAt a = s.valueAt a := rfl

/-! ## R224: the end with an error -/

@[simp] theorem State.raise_params (s : State) (e : CommandError) (info : Nat) : (s.raise e info).params = s.params := rfl
@[simp] theorem State.raise_cmd (s : State) (e : CommandError) (info : Nat) : (s.raise e info).cmd = s.cmd := rfl
@[simp] theorem State.raise_busy (s : State) (e : CommandError) (info : Nat) : (s.raise e info).busy = false := rfl
@[simp] theorem State.raise_cfgv (s : State) (e : CommandError) (info : Nat) : (s.raise e info).cfgv = s.cfgv := rfl
@[simp] theorem State.raise_dv (s : State) (e : CommandError) (info : Nat) : (s.raise e info).dv = s.dv := rfl
@[simp] theorem State.raise_err (s : State) (e : CommandError) (info : Nat) : (s.raise e info).err = .failed e := rfl
@[simp] theorem State.raise_esticky (s : State) (e : CommandError) (info : Nat) : (s.raise e info).esticky = s.esticky ||| e.stickyBit := rfl
@[simp] theorem State.raise_einfo (s : State) (e : CommandError) (info : Nat) : (s.raise e info).einfo = BitVec.ofNat 32 info := rfl
@[simp] theorem State.raise_res (s : State) (e : CommandError) (info : Nat) : (s.raise e info).res = s.res := rfl
@[simp] theorem State.raise_cfgM (s : State) (e : CommandError) (info : Nat) : (s.raise e info).cfgM = s.cfgM := rfl
@[simp] theorem State.raise_cfgK (s : State) (e : CommandError) (info : Nat) : (s.raise e info).cfgK = s.cfgK := rfl
@[simp] theorem State.raise_cfgStrat (s : State) (e : CommandError) (info : Nat) : (s.raise e info).cfgStrat = s.cfgStrat := rfl
@[simp] theorem State.raise_len (s : State) (e : CommandError) (info : Nat) : (s.raise e info).len = s.len := rfl
@[simp] theorem State.raise_plen (s : State) (e : CommandError) (info : Nat) : (s.raise e info).plen = s.plen := rfl
@[simp] theorem State.raise_dim1 (s : State) (e : CommandError) (info : Nat) : (s.raise e info).dim1 = s.dim1 := rfl
@[simp] theorem State.raise_dim2 (s : State) (e : CommandError) (info : Nat) : (s.raise e info).dim2 = s.dim2 := rfl
@[simp] theorem State.raise_dim3 (s : State) (e : CommandError) (info : Nat) : (s.raise e info).dim3 = s.dim3 := rfl
@[simp] theorem State.raise_nerrs (s : State) (e : CommandError) (info : Nat) : (s.raise e info).nerrs = s.nerrs := rfl
@[simp] theorem State.raise_nsrcerrs (s : State) (e : CommandError) (info : Nat) : (s.raise e info).nsrcerrs = s.nsrcerrs := rfl
@[simp] theorem State.raise_present (s : State) (e : CommandError) (info : Nat) : (s.raise e info).present = s.present := rfl
@[simp] theorem State.raise_mem (s : State) (e : CommandError) (info : Nat) : (s.raise e info).mem = s.mem := rfl
@[simp] theorem State.raise_host (s : State) (e : CommandError) (info : Nat) : (s.raise e info).host = s.host := rfl
@[simp] theorem State.raise_responses (s : State) (e : CommandError) (info : Nat) : (s.raise e info).responses = s.responses := rfl
@[simp] theorem State.raise_busyLeft (s : State) (e : CommandError) (info : Nat) : (s.raise e info).busyLeft = 0 := rfl
@[simp] theorem State.raise_epoch (s : State) (e : CommandError) (info : Nat) : (s.raise e info).epoch = s.epoch + 1 := rfl
@[simp] theorem State.raise_valueAt (s : State) (e : CommandError) (info : Nat) (a : Nat) : (s.raise e info).valueAt a = s.valueAt a := rfl

/-! ## another memory -/

@[simp] theorem State.withMem_params (s : State) (m : Memory) : (s.withMem m).params = s.params := rfl
@[simp] theorem State.withMem_cmd (s : State) (m : Memory) : (s.withMem m).cmd = s.cmd := rfl
@[simp] theorem State.withMem_busy (s : State) (m : Memory) : (s.withMem m).busy = s.busy := rfl
@[simp] theorem State.withMem_cfgv (s : State) (m : Memory) : (s.withMem m).cfgv = s.cfgv := rfl
@[simp] theorem State.withMem_dv (s : State) (m : Memory) : (s.withMem m).dv = s.dv := rfl
@[simp] theorem State.withMem_err (s : State) (m : Memory) : (s.withMem m).err = s.err := rfl
@[simp] theorem State.withMem_esticky (s : State) (m : Memory) : (s.withMem m).esticky = s.esticky := rfl
@[simp] theorem State.withMem_einfo (s : State) (m : Memory) : (s.withMem m).einfo = s.einfo := rfl
@[simp] theorem State.withMem_res (s : State) (m : Memory) : (s.withMem m).res = s.res := rfl
@[simp] theorem State.withMem_cfgM (s : State) (m : Memory) : (s.withMem m).cfgM = s.cfgM := rfl
@[simp] theorem State.withMem_cfgK (s : State) (m : Memory) : (s.withMem m).cfgK = s.cfgK := rfl
@[simp] theorem State.withMem_cfgStrat (s : State) (m : Memory) : (s.withMem m).cfgStrat = s.cfgStrat := rfl
@[simp] theorem State.withMem_len (s : State) (m : Memory) : (s.withMem m).len = s.len := rfl
@[simp] theorem State.withMem_plen (s : State) (m : Memory) : (s.withMem m).plen = s.plen := rfl
@[simp] theorem State.withMem_dim1 (s : State) (m : Memory) : (s.withMem m).dim1 = s.dim1 := rfl
@[simp] theorem State.withMem_dim2 (s : State) (m : Memory) : (s.withMem m).dim2 = s.dim2 := rfl
@[simp] theorem State.withMem_dim3 (s : State) (m : Memory) : (s.withMem m).dim3 = s.dim3 := rfl
@[simp] theorem State.withMem_nerrs (s : State) (m : Memory) : (s.withMem m).nerrs = s.nerrs := rfl
@[simp] theorem State.withMem_nsrcerrs (s : State) (m : Memory) : (s.withMem m).nsrcerrs = s.nsrcerrs := rfl
@[simp] theorem State.withMem_present (s : State) (m : Memory) : (s.withMem m).present = s.present := rfl
@[simp] theorem State.withMem_mem (s : State) (m : Memory) : (s.withMem m).mem = m := rfl
@[simp] theorem State.withMem_host (s : State) (m : Memory) : (s.withMem m).host = s.host := rfl
@[simp] theorem State.withMem_responses (s : State) (m : Memory) : (s.withMem m).responses = s.responses := rfl
@[simp] theorem State.withMem_busyLeft (s : State) (m : Memory) : (s.withMem m).busyLeft = s.busyLeft := rfl
@[simp] theorem State.withMem_epoch (s : State) (m : Memory) : (s.withMem m).epoch = s.epoch := rfl
@[simp] theorem State.withMem_valueAt (s : State) (m : Memory) (a : Nat) : (s.withMem m).valueAt a = m.byteAt a := rfl

/-! ## R150, R151: no configuration -/

@[simp] theorem State.unconfigure_params (s : State) : s.unconfigure.params = s.params := rfl
@[simp] theorem State.unconfigure_cmd (s : State) : s.unconfigure.cmd = s.cmd := rfl
@[simp] theorem State.unconfigure_busy (s : State) : s.unconfigure.busy = s.busy := rfl
@[simp] theorem State.unconfigure_cfgv (s : State) : s.unconfigure.cfgv = false := rfl
@[simp] theorem State.unconfigure_dv (s : State) : s.unconfigure.dv = false := rfl
@[simp] theorem State.unconfigure_err (s : State) : s.unconfigure.err = s.err := rfl
@[simp] theorem State.unconfigure_esticky (s : State) : s.unconfigure.esticky = s.esticky := rfl
@[simp] theorem State.unconfigure_einfo (s : State) : s.unconfigure.einfo = s.einfo := rfl
@[simp] theorem State.unconfigure_res (s : State) : s.unconfigure.res = s.res := rfl
@[simp] theorem State.unconfigure_cfgM (s : State) : s.unconfigure.cfgM = 0#8 := rfl
@[simp] theorem State.unconfigure_cfgK (s : State) : s.unconfigure.cfgK = 0#8 := rfl
@[simp] theorem State.unconfigure_cfgStrat (s : State) : s.unconfigure.cfgStrat = .vandermonde := rfl
@[simp] theorem State.unconfigure_len (s : State) : s.unconfigure.len = s.len := rfl
@[simp] theorem State.unconfigure_plen (s : State) : s.unconfigure.plen = s.plen := rfl
@[simp] theorem State.unconfigure_dim1 (s : State) : s.unconfigure.dim1 = s.dim1 := rfl
@[simp] theorem State.unconfigure_dim2 (s : State) : s.unconfigure.dim2 = s.dim2 := rfl
@[simp] theorem State.unconfigure_dim3 (s : State) : s.unconfigure.dim3 = s.dim3 := rfl
@[simp] theorem State.unconfigure_nerrs (s : State) : s.unconfigure.nerrs = s.nerrs := rfl
@[simp] theorem State.unconfigure_nsrcerrs (s : State) : s.unconfigure.nsrcerrs = s.nsrcerrs := rfl
@[simp] theorem State.unconfigure_present (s : State) : s.unconfigure.present = s.present := rfl
@[simp] theorem State.unconfigure_mem (s : State) : s.unconfigure.mem = s.mem.forgetG := rfl
@[simp] theorem State.unconfigure_host (s : State) : s.unconfigure.host = s.host := rfl
@[simp] theorem State.unconfigure_responses (s : State) : s.unconfigure.responses = s.responses := rfl
@[simp] theorem State.unconfigure_busyLeft (s : State) : s.unconfigure.busyLeft = s.busyLeft := rfl
@[simp] theorem State.unconfigure_epoch (s : State) : s.unconfigure.epoch = s.epoch := rfl

/-! ## R170: the error descriptor -/

@[simp] theorem State.writeDescriptor_params (s : State) : s.writeDescriptor.params = s.params := rfl
@[simp] theorem State.writeDescriptor_cmd (s : State) : s.writeDescriptor.cmd = s.cmd := rfl
@[simp] theorem State.writeDescriptor_busy (s : State) : s.writeDescriptor.busy = s.busy := rfl
@[simp] theorem State.writeDescriptor_cfgv (s : State) : s.writeDescriptor.cfgv = s.cfgv := rfl
@[simp] theorem State.writeDescriptor_dv (s : State) : s.writeDescriptor.dv = false := rfl
@[simp] theorem State.writeDescriptor_err (s : State) : s.writeDescriptor.err = s.err := rfl
@[simp] theorem State.writeDescriptor_esticky (s : State) : s.writeDescriptor.esticky = s.esticky := rfl
@[simp] theorem State.writeDescriptor_einfo (s : State) : s.writeDescriptor.einfo = s.einfo := rfl
@[simp] theorem State.writeDescriptor_res (s : State) : s.writeDescriptor.res = s.res := rfl
@[simp] theorem State.writeDescriptor_cfgM (s : State) : s.writeDescriptor.cfgM = s.cfgM := rfl
@[simp] theorem State.writeDescriptor_cfgK (s : State) : s.writeDescriptor.cfgK = s.cfgK := rfl
@[simp] theorem State.writeDescriptor_cfgStrat (s : State) : s.writeDescriptor.cfgStrat = s.cfgStrat := rfl
@[simp] theorem State.writeDescriptor_len (s : State) : s.writeDescriptor.len = s.len := rfl
@[simp] theorem State.writeDescriptor_plen (s : State) : s.writeDescriptor.plen = s.plen := rfl
@[simp] theorem State.writeDescriptor_dim1 (s : State) : s.writeDescriptor.dim1 = s.dim1 := rfl
@[simp] theorem State.writeDescriptor_dim2 (s : State) : s.writeDescriptor.dim2 = s.dim2 := rfl
@[simp] theorem State.writeDescriptor_dim3 (s : State) : s.writeDescriptor.dim3 = s.dim3 := rfl
@[simp] theorem State.writeDescriptor_nerrs (s : State) : s.writeDescriptor.nerrs = BitVec.ofNat 8 s.errorCount := rfl
@[simp] theorem State.writeDescriptor_nsrcerrs (s : State) : s.writeDescriptor.nsrcerrs = BitVec.ofNat 8 s.sourceErrorCount := rfl
@[simp] theorem State.writeDescriptor_present (s : State) : s.writeDescriptor.present = s.present := rfl
@[simp] theorem State.writeDescriptor_mem (s : State) : s.writeDescriptor.mem = s.mem.fillList idErrl s.errorCount fun p => some (BitVec.ofNat 8 (s.errorList.getD p 0)) := rfl
@[simp] theorem State.writeDescriptor_host (s : State) : s.writeDescriptor.host = s.host := rfl
@[simp] theorem State.writeDescriptor_responses (s : State) : s.writeDescriptor.responses = s.responses := rfl
@[simp] theorem State.writeDescriptor_busyLeft (s : State) : s.writeDescriptor.busyLeft = s.busyLeft := rfl
@[simp] theorem State.writeDescriptor_epoch (s : State) : s.writeDescriptor.epoch = s.epoch := rfl

/-! ## R61: an answer -/

@[simp] theorem State.respond_params (s : State) (r : Response) : (s.respond r).params = s.params := rfl
@[simp] theorem State.respond_cmd (s : State) (r : Response) : (s.respond r).cmd = s.cmd := rfl
@[simp] theorem State.respond_busy (s : State) (r : Response) : (s.respond r).busy = s.busy := rfl
@[simp] theorem State.respond_cfgv (s : State) (r : Response) : (s.respond r).cfgv = s.cfgv := rfl
@[simp] theorem State.respond_dv (s : State) (r : Response) : (s.respond r).dv = s.dv := rfl
@[simp] theorem State.respond_err (s : State) (r : Response) : (s.respond r).err = s.err := rfl
@[simp] theorem State.respond_esticky (s : State) (r : Response) : (s.respond r).esticky = s.esticky := rfl
@[simp] theorem State.respond_einfo (s : State) (r : Response) : (s.respond r).einfo = s.einfo := rfl
@[simp] theorem State.respond_res (s : State) (r : Response) : (s.respond r).res = s.res := rfl
@[simp] theorem State.respond_cfgM (s : State) (r : Response) : (s.respond r).cfgM = s.cfgM := rfl
@[simp] theorem State.respond_cfgK (s : State) (r : Response) : (s.respond r).cfgK = s.cfgK := rfl
@[simp] theorem State.respond_cfgStrat (s : State) (r : Response) : (s.respond r).cfgStrat = s.cfgStrat := rfl
@[simp] theorem State.respond_len (s : State) (r : Response) : (s.respond r).len = s.len := rfl
@[simp] theorem State.respond_plen (s : State) (r : Response) : (s.respond r).plen = s.plen := rfl
@[simp] theorem State.respond_dim1 (s : State) (r : Response) : (s.respond r).dim1 = s.dim1 := rfl
@[simp] theorem State.respond_dim2 (s : State) (r : Response) : (s.respond r).dim2 = s.dim2 := rfl
@[simp] theorem State.respond_dim3 (s : State) (r : Response) : (s.respond r).dim3 = s.dim3 := rfl
@[simp] theorem State.respond_nerrs (s : State) (r : Response) : (s.respond r).nerrs = s.nerrs := rfl
@[simp] theorem State.respond_nsrcerrs (s : State) (r : Response) : (s.respond r).nsrcerrs = s.nsrcerrs := rfl
@[simp] theorem State.respond_present (s : State) (r : Response) : (s.respond r).present = s.present := rfl
@[simp] theorem State.respond_mem (s : State) (r : Response) : (s.respond r).mem = s.mem := rfl
@[simp] theorem State.respond_host (s : State) (r : Response) : (s.respond r).host = s.host := rfl
@[simp] theorem State.respond_responses (s : State) (r : Response) : (s.respond r).responses = r :: s.responses := rfl
@[simp] theorem State.respond_busyLeft (s : State) (r : Response) : (s.respond r).busyLeft = s.busyLeft := rfl
@[simp] theorem State.respond_epoch (s : State) (r : Response) : (s.respond r).epoch = s.epoch + 1 := rfl
@[simp] theorem State.respond_valueAt (s : State) (r : Response) (a : Nat) : (s.respond r).valueAt a = s.valueAt a := rfl

/-! ## R23: a command starts -/

@[simp] theorem State.startCommand_params (s : State) (w : Word) : (s.startCommand w).params = s.params := rfl
@[simp] theorem State.startCommand_cmd (s : State) (w : Word) : (s.startCommand w).cmd = w := rfl
@[simp] theorem State.startCommand_busy (s : State) (w : Word) : (s.startCommand w).busy = true := rfl
@[simp] theorem State.startCommand_cfgv (s : State) (w : Word) : (s.startCommand w).cfgv = s.cfgv := rfl
@[simp] theorem State.startCommand_dv (s : State) (w : Word) : (s.startCommand w).dv = s.dv := rfl
@[simp] theorem State.startCommand_err (s : State) (w : Word) : (s.startCommand w).err = s.err := rfl
@[simp] theorem State.startCommand_esticky (s : State) (w : Word) : (s.startCommand w).esticky = s.esticky := rfl
@[simp] theorem State.startCommand_einfo (s : State) (w : Word) : (s.startCommand w).einfo = s.einfo := rfl
@[simp] theorem State.startCommand_res (s : State) (w : Word) : (s.startCommand w).res = s.res := rfl
@[simp] theorem State.startCommand_cfgM (s : State) (w : Word) : (s.startCommand w).cfgM = s.cfgM := rfl
@[simp] theorem State.startCommand_cfgK (s : State) (w : Word) : (s.startCommand w).cfgK = s.cfgK := rfl
@[simp] theorem State.startCommand_cfgStrat (s : State) (w : Word) : (s.startCommand w).cfgStrat = s.cfgStrat := rfl
@[simp] theorem State.startCommand_len (s : State) (w : Word) : (s.startCommand w).len = s.len := rfl
@[simp] theorem State.startCommand_plen (s : State) (w : Word) : (s.startCommand w).plen = s.plen := rfl
@[simp] theorem State.startCommand_dim1 (s : State) (w : Word) : (s.startCommand w).dim1 = s.dim1 := rfl
@[simp] theorem State.startCommand_dim2 (s : State) (w : Word) : (s.startCommand w).dim2 = s.dim2 := rfl
@[simp] theorem State.startCommand_dim3 (s : State) (w : Word) : (s.startCommand w).dim3 = s.dim3 := rfl
@[simp] theorem State.startCommand_nerrs (s : State) (w : Word) : (s.startCommand w).nerrs = s.nerrs := rfl
@[simp] theorem State.startCommand_nsrcerrs (s : State) (w : Word) : (s.startCommand w).nsrcerrs = s.nsrcerrs := rfl
@[simp] theorem State.startCommand_present (s : State) (w : Word) : (s.startCommand w).present = s.present := rfl
@[simp] theorem State.startCommand_mem (s : State) (w : Word) : (s.startCommand w).mem = s.mem := rfl
@[simp] theorem State.startCommand_host (s : State) (w : Word) : (s.startCommand w).host = s.host := rfl
@[simp] theorem State.startCommand_responses (s : State) (w : Word) : (s.startCommand w).responses = s.responses := rfl
@[simp] theorem State.startCommand_busyLeft (s : State) (w : Word) : (s.startCommand w).busyLeft = Config.busyWindow s.epoch := rfl
@[simp] theorem State.startCommand_epoch (s : State) (w : Word) : (s.startCommand w).epoch = s.epoch := rfl
@[simp] theorem State.startCommand_valueAt (s : State) (w : Word) (a : Nat) : (s.startCommand w).valueAt a = s.valueAt a := rfl

/-- A draw of a specified byte is that byte. -/
theorem State.sample_of_valueAt {s : State} {a : Nat} {b : Byte} (h : s.valueAt a = some b) : s.sample a = b := by
  simp [State.sample, h]

end Sys2Proof.Machine
end

