-- ==== Sys2Proof/Laws/Values.lean ====
section
/-! SUPPORT. The spec lemmas of the arithmetic on bytes that may be unspecified (Machine/Gf.lean), of the presence vector
(Machine/Flags.lean), of the inverse of a matrix with unspecified elements (Machine/Algebra.lean) and of the survivor and error
lists (Machine/Synthesis.lean). -/

namespace Sys2Proof.Machine

@[simp] theorem mulValue_some (poly : BitVec 9) (a b : Byte) : mulValue poly (some a) (some b) = some (mul poly a b) := rfl

@[simp] theorem addValue_some (a b : Byte) : addValue (some a) (some b) = some (a ^^^ b) := rfl

@[simp] theorem addValue_none_right (a : Option Byte) : addValue a none = none := by cases a <;> rfl

@[simp] theorem addValue_none_left (a : Option Byte) : addValue none a = none := by cases a <;> rfl

/-- A product is unspecified exactly when one operand is unspecified and the other not known to be 0. -/
theorem mulValue_eq_none {poly : BitVec 9} {a b : Option Byte} :
    mulValue poly a b = none ↔ (a = none ∧ b ≠ some 0#8) ∨ (a ≠ some 0#8 ∧ b = none) := by
  rcases a with _ | x <;> rcases b with _ | y
  · simp [mulValue]
  · by_cases h : y = 0#8 <;> simp [mulValue, h]
  · by_cases h : x = 0#8 <;> simp [mulValue, h]
  · simp [mulValue]

theorem xorSum_congr {f g : Nat → Byte} {n : Nat} (h : ∀ j, j < n → f j = g j) : xorSum f n = xorSum g n := by
  induction n with
  | zero => rfl
  | succ n ih => rw [xorSum, xorSum, ih fun j hj => h j (by omega), h n (by omega)]

/-- A sum of specified terms is specified. -/
theorem xorSumValue_some {f : Nat → Option Byte} {g : Nat → Byte} {n : Nat} (h : ∀ j, j < n → f j = some (g j)) :
    xorSumValue f n = some (xorSum g n) := by
  induction n with
  | zero => rfl
  | succ n ih => rw [xorSumValue, xorSum, ih fun j hj => h j (by omega), h n (by omega), addValue_some]

/-- A sum with an unspecified term is unspecified. -/
theorem xorSumValue_none {f : Nat → Option Byte} {n j : Nat} (hj : j < n) (h : f j = none) : xorSumValue f n = none := by
  induction n with
  | zero => omega
  | succ n ih =>
    rcases Nat.lt_succ_iff_lt_or_eq.1 hj with hj | rfl
    · rw [xorSumValue, ih hj, addValue_none_left]
    · rw [xorSumValue, h, addValue_none_right]

/-! ## Presence -/

theorem presenceBelow_getLsbD (n i : Nat) : (presenceBelow n).getLsbD i = decide (i < n ∧ i < 256) := by
  rw [presenceBelow, BitVec.getLsbD_ofNat, Nat.testBit_two_pow_sub_one]
  by_cases h1 : i < n <;> by_cases h2 : i < 256 <;> simp [h1, h2]

theorem setPresent_getLsbD (p : BitVec 256) {e : Nat} (he : e < 256) (i : Nat) :
    (setPresent p e).getLsbD i = (p.getLsbD i || decide (i = e)) := by
  rw [setPresent, BitVec.getLsbD_or, BitVec.getLsbD_shiftLeft]
  by_cases h : i = e
  · subst h; simp [he]
  · by_cases h1 : i < e
    · simp [h, h1]
    · have : ¬i - e = 0 := by omega
      simp [h, h1, this]

theorem setPresentRange_getLsbD (p : BitVec 256) (lo hi i : Nat) :
    (setPresentRange p lo hi).getLsbD i = (p.getLsbD i || decide (lo ≤ i ∧ i < hi ∧ i < 256)) := by
  rw [setPresentRange, BitVec.getLsbD_or, BitVec.getLsbD_and, BitVec.getLsbD_not, presenceBelow_getLsbD, presenceBelow_getLsbD]
  congr 1
  by_cases h1 : i < hi <;> by_cases h2 : i < lo <;> by_cases h3 : i < 256 <;> simp [h1, h2, h3, Nat.not_le.2, Nat.not_lt.1]

theorem clearPresentRange_getLsbD (p : BitVec 256) (lo hi i : Nat) :
    (clearPresentRange p lo hi).getLsbD i = (p.getLsbD i && !decide (lo ≤ i ∧ i < hi)) := by
  rw [clearPresentRange, BitVec.getLsbD_and, BitVec.getLsbD_not, BitVec.getLsbD_and, BitVec.getLsbD_not,
    presenceBelow_getLsbD, presenceBelow_getLsbD]
  by_cases h3 : i < 256
  · congr 1
    by_cases h1 : i < hi <;> by_cases h2 : i < lo <;> simp [h1, h2, h3, Nat.not_le.2, Nat.not_lt.1]
  · simp [BitVec.getLsbD_of_ge p i (by omega)]

/-! ## The inverse of a matrix with unspecified elements -/

theorem mem_unspecifiedIn {s : State} {id n a b : Nat} :
    (a, b) ∈ s.unspecifiedIn id n ↔ a < n ∧ b < n ∧ s.valueAt (matAddr id a b) = none := by
  simp only [State.unspecifiedIn, List.mem_flatMap, List.mem_range, List.mem_filterMap, Option.ite_none_right_eq_some,
    Option.some.injEq, Prod.mk.injEq]
  constructor
  · rintro ⟨_, ha, _, hb, h, rfl, rfl⟩
    exact ⟨ha, hb, h⟩
  · rintro ⟨ha, hb, h⟩
    exact ⟨a, ha, b, hb, h, rfl, rfl⟩

/-- A fully specified corner has no unspecified element. -/
theorem unspecifiedIn_eq_nil {s : State} {id n : Nat} (h : ∀ a b, a < n → b < n → s.valueAt (matAddr id a b) ≠ none) :
    s.unspecifiedIn id n = [] :=
  List.eq_nil_iff_forall_not_mem.2 fun ⟨a, b⟩ hp =>
    have ⟨ha, hb, he⟩ := mem_unspecifiedIn.1 hp
    h a b ha hb he

@[simp] theorem inverseValue_nil (V : Matrix) (i j : Nat) : inverseValue V [] i j = some (V.at i j) := rfl

theorem inverseValue_eq_none {V : Matrix} {unknown : List (Nat × Nat)} {i j : Nat} :
    inverseValue V unknown i j = none ↔ ∃ a b, (a, b) ∈ unknown ∧ V.at i a ≠ 0#8 ∧ V.at b j ≠ 0#8 := by
  simp [inverseValue]

/-- A specified element holds the inverse's value. -/
theorem inverseValue_eq_some {V : Matrix} {unknown : List (Nat × Nat)} {i j : Nat} {v : Byte}
    (h : inverseValue V unknown i j = some v) : v = V.at i j := by
  unfold inverseValue at h
  split at h
  · cases h
  · exact (Option.some.inj h).symm

/-! ## Survivors and errors -/

theorem mem_errorList {s : State} {i : Nat} : i ∈ s.errorList ↔ i < s.m ∧ s.isPresent i = false := by
  simp [State.errorList]

theorem mem_survivors {s : State} {i : Nat} : i ∈ s.survivors ↔ i < s.m ∧ s.isPresent i = true := by
  simp [State.survivors]

theorem errorList_pairwise (s : State) : s.errorList.Pairwise (· < ·) := List.pairwise_lt_range.filter _

theorem survivors_pairwise (s : State) : s.survivors.Pairwise (· < ·) := List.pairwise_lt_range.filter _

/-- R161: there are `m − nerrs` survivors. -/
theorem survivors_length (s : State) : s.survivors.length + s.errorCount = s.m := by
  have h := List.length_eq_length_filter_add (l := List.range s.m) (fun i => s.isPresent i)
  simpa [State.survivors, State.errorCount, State.errorList] using h.symm

/-- Two strictly rising lists with the same members are equal. -/
theorem rising_lists_ext {l₁ l₂ : List Nat} (h₁ : l₁.Pairwise (· < ·)) (h₂ : l₂.Pairwise (· < ·))
    (h : ∀ i, i ∈ l₁ ↔ i ∈ l₂) : l₁ = l₂ := by
  have n₁ : l₁.Nodup := h₁.imp fun hab => Nat.ne_of_lt hab
  have n₂ : l₂.Nodup := h₂.imp fun hab => Nat.ne_of_lt hab
  exact ((List.perm_ext_iff_of_nodup n₁ n₂).2 h).eq_of_pairwise
    (fun a b _ _ hab hba => absurd hab (Nat.not_lt.2 hba.le)) h₁ h₂

theorem m_lt (s : State) : s.m < 256 := s.cfgM.isLt

theorem k_lt (s : State) : s.k < 256 := s.cfgK.isLt

theorem errorCount_le (s : State) : s.errorCount ≤ s.m := by
  have := survivors_length s
  omega

end Sys2Proof.Machine
end

