-- ==== Sys2Proof/Laws/Commands.lean ====
section
/-! SUPPORT. What the end of a command can be: every command answers the next state of its own operation's end. -/

namespace Sys2Proof.Machine

/-- What each command's own operation comes to; `exec` reports it (R224). -/
def commandEnd (i : Instr) (s : State) : CommandEnd :=
  match i with
  | .nop => .ok s
  | .gfmul a b => scalarResult s (some (mul s.params.poly a b))
  | .gfdiv a b => scalarResult s (gdiv s.params.poly a b)
  | .gfinv a => scalarResult s (inverse s.params.poly a)
  | .matmul dst s1 s2 => matmulEnd dst s1 s2 s
  | .invert dst s1 => invertEnd dst s1 s
  | .init m k strat => initEnd m k strat s
  | .deinit => .ok s.unconfigure
  | .gendec => gendecEnd s
  | .recon => reconEnd s
  | .frame => frameEnd s
  | .parity => parityEnd s
  | .unframe => unframeEnd s
  | .encode => encodeEnd s
  | .decode => decodeEnd s

/-- Every arm of `exec` reports its command's end. -/
theorem exec_eq_report (i : Instr) (s : State) : exec i s = (commandEnd i s).report := by cases i <;> rfl

/-- The next state an end is reported by. -/
def CommandEnd.next : CommandEnd → State
  | .ok s => s.finish
  | .error e info s => s.raise e info

/-- A command never stops the block (R226). -/
theorem CommandEnd.report_eq_next (c : CommandEnd) : c.report = .next c.next := by cases c <;> rfl

theorem exec_eq_next (i : Instr) (s : State) : exec i s = .next (commandEnd i s).next := by
  rw [exec_eq_report, CommandEnd.report_eq_next]

/-- A state `exec` answers is the one its command's end is reported by. -/
theorem exec_next_iff {i : Instr} {s t : State} : exec i s = .next t ↔ t = (commandEnd i s).next := by
  rw [exec_eq_next]
  constructor
  · intro h
    injection h with h
    exact h.symm
  · rintro rfl
    rfl

/-- R224: an end without error. -/
theorem exec_of_ok {i : Instr} {s t : State} (h : commandEnd i s = .ok t) : exec i s = .next t.finish := by
  rw [exec_eq_next, h]; rfl

/-- R224: an end with an error. -/
theorem exec_of_error {i : Instr} {s t : State} {e : CommandError} {info : Nat} (h : commandEnd i s = .error e info t) :
    exec i s = .next (t.raise e info) := by
  rw [exec_eq_next, h]; rfl

/-- A state a command answers ended `OK` exactly when its operation did. -/
theorem CommandEnd.next_err_ok {c : CommandEnd} : c.next.err = .ok ↔ ∃ t, c = .ok t := by
  cases c <;> simp [CommandEnd.next]

/-- A state a command answers ended with error `e` exactly when its operation did. -/
theorem CommandEnd.next_err_failed {c : CommandEnd} {e : CommandError} :
    c.next.err = .failed e ↔ ∃ info t, c = .error e info t := by
  cases c <;> simp [CommandEnd.next]

@[simp] theorem CommandEnd.andThen_ok (s : State) (f : State → CommandEnd) : (CommandEnd.ok s).andThen f = f s := rfl

@[simp] theorem CommandEnd.andThen_error (e : CommandError) (info : Nat) (s : State) (f : State → CommandEnd) :
    (CommandEnd.error e info s).andThen f = .error e info s := rfl

/-- Every step answers a next state: a command's, or that of the event served, or the idle block's own. -/
theorem step_cases (s : State) :
    (s.busy = true ∧ (s.busyLeft = 0 ∨ s.host = []) ∧ step s = runCommand s) ∨
      (∃ left e rest, s.busy = true ∧ s.busyLeft = left + 1 ∧ s.host = e :: rest ∧
        step s = .next ({ s with host := rest, busyLeft := left }.serve e)) ∨
      (∃ e rest, s.busy = false ∧ s.host = e :: rest ∧ step s = .next ({ s with host := rest }.serve e)) ∨
      (s.busy = false ∧ s.host = [] ∧ step s = .next s) := by
  rcases hb : s.busy with _ | _
  · rcases hh : s.host with _ | ⟨e, rest⟩
    · exact .inr (.inr (.inr ⟨rfl, rfl, by simp [step, hb, hh]⟩))
    · exact .inr (.inr (.inl ⟨e, rest, rfl, rfl, by simp [step, hb, hh]⟩))
  · rcases hl : s.busyLeft with _ | left
    · exact .inl ⟨rfl, .inl rfl, by simp [step, hb, hl]⟩
    · rcases hh : s.host with _ | ⟨e, rest⟩
      · exact .inl ⟨rfl, .inr rfl, by simp [step, hb, hl, hh]⟩
      · exact .inr (.inl ⟨left, e, rest, rfl, rfl, rfl, by simp [step, hb, hl, hh]⟩)

/-- A running command that ends is the command its word decodes to, or an illegal word. -/
theorem runCommand_cases (s : State) :
    (∃ i, decode s.cmd = .ok i ∧ runCommand s = .next (commandEnd i s).next) ∨
      (∃ d, decode s.cmd = .error d ∧ runCommand s = .next (s.raise .illegalCommand 0)) := by
  rcases h : decode s.cmd with d | i
  · exact .inr ⟨d, rfl, by simp [runCommand, h, illegalWord, CommandEnd.report]⟩
  · exact .inl ⟨i, rfl, by simp [runCommand, h, exec_eq_next]⟩

/-- What an event leaves: an answer to a read, to a write that was stored, to one that was refused, or a reset. -/
theorem serve_cases (s : State) (e : HostEvent) :
    (∃ r, s.serve e = s.respond r) ∨
      (∃ addr v t, e = .memWrite addr v ∧ s.hostWrite addr v = some t ∧ s.serve e = t.respond .okay) ∨
      (e = .reset ∧ s.serve e = s.resetBlock) := by
  cases e with
  | memRead addr n =>
    left
    rcases h : s.hostRead addr n with _ | d
    · exact ⟨_, by simp [State.serve, h]; rfl⟩
    · exact ⟨_, by simp [State.serve, h]; rfl⟩
  | memWrite addr v =>
    rcases h : s.hostWrite addr v with _ | t
    · exact .inl ⟨_, by simp [State.serve, h]; rfl⟩
    · exact .inr (.inl ⟨addr, v, t, rfl, h, by simp [State.serve, h]⟩)
  | reset => exact .inr (.inr ⟨rfl, rfl⟩)

end Sys2Proof.Machine
end

