-- ==== Sys2Proof/Laws/Operations.lean ====
section
/-! SUPPORT. The spec lemmas of the larger operations: what the digit count, the frame length, the trailer scan, the address
decoding, the synthesis loop and the reconstruction loop answer, said once; and how the invariant passes to a state with the same
configuration. -/

namespace Sys2Proof.Machine

/-! ## Framing -/

theorem digitsWithin_spec (fuel n : Nat) (h : n ≤ fuel) :
    1 ≤ digitsWithin n fuel ∧ n < 10 ^ digitsWithin n fuel ∧ ∀ e, 1 ≤ e → n < 10 ^ e → digitsWithin n fuel ≤ e := by
  induction fuel generalizing n with
  | zero =>
    obtain rfl : n = 0 := by omega
    exact ⟨Nat.le_refl 1, by decide, fun e he _ => he⟩
  | succ f ih =>
    by_cases hn : n < 10
    · simp only [digitsWithin, if_pos hn]
      exact ⟨Nat.le_refl 1, by omega, fun e he _ => he⟩
    · simp only [digitsWithin, if_neg hn]
      obtain ⟨h1, h2, h3⟩ := ih (n / 10) (by omega)
      refine ⟨by omega, ?_, fun e he hlt => ?_⟩
      · rw [Nat.add_comm, Nat.pow_succ]
        omega
      · obtain ⟨e', rfl⟩ : ∃ e', e = e' + 1 := ⟨e - 1, by omega⟩
        rw [Nat.pow_succ] at hlt
        have he' : 1 ≤ e' := by
          rcases e' with _ | e'
          · simp at hlt; omega
          · omega
        have := h3 e' he' (by omega)
        omega

/-- R181: `digits(n)` is the least `d ≥ 1` with `n < 10^d`. -/
theorem digits_spec (n : Nat) : 1 ≤ digits n ∧ n < 10 ^ digits n ∧ ∀ e, 1 ≤ e → n < 10 ^ e → digits n ≤ e :=
  digitsWithin_spec n n (Nat.le_refl n)

/-- R182: `frame_length(n, k)` is the least `L` with `k·L ≥ n + digits(n) + 1`. -/
theorem frameLength_spec (n : Nat) {k : Nat} (hk : 1 ≤ k) :
    n + digits n + 1 ≤ k * frameLength n k ∧ ∀ l, n + digits n + 1 ≤ k * l → frameLength n k ≤ l := by
  unfold frameLength
  have h := Nat.div_add_mod (n + digits n + 1 + k - 1) k
  have hm := Nat.mod_lt (n + digits n + 1 + k - 1) (show k > 0 by omega)
  refine ⟨by omega, fun l hl => ?_⟩
  rw [Nat.div_le_iff_le_mul_add_pred (by omega)]
  omega

/-- R184: the scan of exactly `d` digits below position `i`: what is left, how many digits there were, and their number. -/
theorem scanDigits_run (X : Nat → Byte) (d : Nat) : ∀ i pos n, d ≤ i → (∀ t, t < d → isDigit (X (i - 1 - t)) = true) →
    (d < i → isDigit (X (i - 1 - d)) = false) →
    scanDigits X i pos n =
      (i - d, pos + d, n + ((List.range d).map fun t => ((X (i - 1 - t)).toNat - 0x30) * 10 ^ (pos + t)).sum) := by
  induction d with
  | zero =>
    intro i pos n _ _ hstop
    rcases i with _ | i
    · rfl
    · have := hstop (by omega)
      simp_all [scanDigits]
  | succ d ih =>
    intro i pos n hi hrun hstop
    obtain ⟨i, rfl⟩ : ∃ i', i = i' + 1 := ⟨i - 1, by omega⟩
    have h0 : isDigit (X i) = true := by simpa using hrun 0 (by omega)
    rw [scanDigits, if_pos h0, ih i (pos + 1) _ (by omega)
      (fun t ht => by have := hrun (t + 1) (by omega); rwa [show i + 1 - 1 - (t + 1) = i - 1 - t by omega] at this)
      (fun hlt => by have := hstop (by omega); rwa [show i + 1 - 1 - (d + 1) = i - 1 - d by omega] at this),
      List.range_succ_eq_map, List.map_cons, List.sum_cons, List.map_map]
    have e : ((fun t => ((X (i + 1 - 1 - t)).toNat - 0x30) * 10 ^ (pos + t)) ∘ Nat.succ) =
        fun t => ((X (i - 1 - t)).toNat - 0x30) * 10 ^ (pos + 1 + t) := by
      funext t
      simp only [Function.comp]
      rw [show i + 1 - 1 - t.succ = i - 1 - t by omega, show pos + t.succ = pos + 1 + t by omega]
    rw [e]
    simp only [Nat.add_sub_cancel, Nat.sub_zero, Nat.add_zero, Prod.mk.injEq]
    omega

/-! ## The places a transaction reaches -/

theorem placeAt_four (p : Params) (addr : Word) :
    placeAt p addr .four = if addrSpace addr = 0 then (regAtOffset (addrIndex addr)).map .reg else none := by
  have h : addrSpace addr < 16 := by unfold addrSpace; omega
  unfold placeAt
  by_cases h0 : addrSpace addr = 0
  · simp [h0]
  · rw [if_neg h0]
    generalize addrSpace addr = n at *
    interval_cases n <;> first | rfl | omega

/-- A byte place lies at the transaction's own address, and exists; the host may not write it in `G` and in the lists. -/
theorem placeAt_one_some {p : Params} {addr : Word} {pl : Place} (h : placeAt p addr .one = some pl) :
    pl.byteAddr = some addr.toNat ∧ byteExists p addr.toNat ∧
      (pl.hostWritable = false ↔ (0x10000000 ≤ addr.toNat ∧ addr.toNat < 0x10010000) ∨ addr.toNat / 2 ^ 28 = 2) := by
  have hd := Nat.div_add_mod addr.toNat (2 ^ 28)
  have hs : addrSpace addr = addr.toNat / 2 ^ 28 := rfl
  have hi : addrIndex addr = addr.toNat % 2 ^ 28 := rfl
  have hlt : addrSpace addr < 16 := by omega
  unfold placeAt at h
  dsimp only at h
  by_cases h1 : addrSpace addr = 1
  · simp only [h1] at h
    split at h
    · rename_i hc
      cases h
      have e : matAddr (addrIndex addr / 2 ^ 16) (addrIndex addr / 2 ^ 8 % 2 ^ 8) (addrIndex addr % 2 ^ 8) = addr.toNat := by
        unfold matAddr; omega
      refine ⟨by rw [Place.byteAddr, e], .inl ⟨_, _, _, hc.1, hc.2.1, hc.2.2, e.symm⟩, ?_⟩
      show decide (addrIndex addr / 2 ^ 16 ≠ 0) = false ↔ _
      rw [decide_eq_false_iff_not]
      omega
    · cases h
  by_cases h2 : addrSpace addr = 2
  · simp only [h2] at h
    split at h
    · rename_i hc
      cases h
      have e : listAddr (addrIndex addr / 2 ^ 8) (addrIndex addr % 2 ^ 8) = addr.toNat := by
        unfold listAddr; omega
      refine ⟨by rw [Place.byteAddr, e], .inr (.inl ⟨_, _, hc.1, hc.2, e.symm⟩), ?_⟩
      have hn : addr.toNat / 2 ^ 28 = 2 := by omega
      exact ⟨fun _ => .inr hn, fun _ => rfl⟩
    · cases h
  by_cases h3 : addrSpace addr = 3
  · simp only [h3] at h
    split at h
    · rename_i hc
      cases h
      have e : fragAddr (addrIndex addr / 2 ^ 20) (addrIndex addr % 2 ^ 20) = addr.toNat := by
        unfold fragAddr; omega
      refine ⟨by rw [Place.byteAddr, e], .inr (.inr (.inl ⟨_, _, hc.1, hc.2, e.symm⟩)), ?_⟩
      simp only [Place.hostWritable, Bool.true_eq_false, false_iff]
      omega
    · cases h
  by_cases h4 : addrSpace addr = 4
  · simp only [h4] at h
    split at h
    · rename_i hc
      cases h
      have e : payAddr (addrIndex addr) = addr.toNat := by unfold payAddr; omega
      refine ⟨by rw [Place.byteAddr, e], .inr (.inr (.inr ⟨_, hc, e.symm⟩)), ?_⟩
      simp only [Place.hostWritable, Bool.true_eq_false, false_iff]
      omega
    · cases h
  · generalize addrSpace addr = n at h h1 h2 h3 h4 hlt
    interval_cases n <;> first | omega | cases h

/-- Every byte that exists is reached, under valid parameters. -/
theorem placeAt_one_of_byteExists {p : Params} (hp : p.Valid) {addr : Word} (h : byteExists p addr.toNat) :
    ∃ pl, placeAt p addr .one = some pl := by
  obtain ⟨_, _, h2, h3, h4, h5⟩ := hp
  have hps : p.psize < 2 ^ 28 := by
    have : p.kmax * p.lmax ≤ 254 * 2 ^ 20 := Nat.mul_le_mul (by unfold Params.kmax; omega) h5
    unfold Params.psize
    omega
  have hs : addrSpace addr = addr.toNat / 2 ^ 28 := rfl
  have hi : addrIndex addr = addr.toNat % 2 ^ 28 := rfl
  rcases h with ⟨id, i, j, h⟩ | ⟨id, q, h⟩ | ⟨i, o, h⟩ | ⟨o, h⟩
  · simp only [matAddr] at h
    have e1 : addrSpace addr = 1 := by omega
    have e2 : addrIndex addr / 2 ^ 16 = id := by omega
    have e3 : addrIndex addr / 2 ^ 8 % 2 ^ 8 = i := by omega
    have e4 : addrIndex addr % 2 ^ 8 = j := by omega
    exact ⟨_, by unfold placeAt; simp only [e1, e2, e3, e4]; exact if_pos ⟨h.1, h.2.1, h.2.2.1⟩⟩
  · simp only [listAddr] at h
    have e1 : addrSpace addr = 2 := by omega
    have e2 : addrIndex addr / 2 ^ 8 = id := by omega
    have e3 : addrIndex addr % 2 ^ 8 = q := by omega
    exact ⟨_, by unfold placeAt; simp only [e1, e2, e3]; exact if_pos ⟨h.1, h.2.1⟩⟩
  · simp only [fragAddr] at h
    have e1 : addrSpace addr = 3 := by omega
    have e2 : addrIndex addr / 2 ^ 20 = i := by omega
    have e3 : addrIndex addr % 2 ^ 20 = o := by omega
    exact ⟨_, by unfold placeAt; simp only [e1, e2, e3]; exact if_pos ⟨h.1, h.2.1⟩⟩
  · simp only [payAddr] at h
    have e1 : addrSpace addr = 4 := by omega
    have e2 : addrIndex addr = o := by omega
    exact ⟨_, by unfold placeAt; simp only [e1, e2]; exact if_pos h.1⟩

/-! ## Synthesis -/

/-- R161 to R164: what a synthesis that succeeds found. -/
theorem synthesize_some {poly : BitVec 9} {G : Nat → Nat → Byte} {k : Nat} {first : List Nat} :
    ∀ {cands : List Nat} {didx : List Nat} {B V : Matrix}, synthesize poly G k first cands = some (didx, B, V) →
      ∃ t, t < cands.length ∧ didx = first ++ [cands.getD t 0] ∧ B = selectRows G k didx ∧ invert poly k B = .ok V ∧
        ∀ t', t' < t → ∃ c, invert poly k (selectRows G k (first ++ [cands.getD t' 0])) = .error c
  | [], _, _, _, h => by cases h
  | last :: later, didx, B, V, h => by
    rw [synthesize] at h
    split at h
    · rename_i V' hV
      cases h
      exact ⟨0, by simp, by simp, rfl, hV, fun t' ht => absurd ht (Nat.not_lt_zero _)⟩
    · rename_i c hc
      obtain ⟨t, h1, h2, h3, h4, h5⟩ := synthesize_some h
      refine ⟨t + 1, by simpa using h1, by simpa using h2, h3, h4, fun t' ht => ?_⟩
      rcases t' with _ | t'
      · exact ⟨c, by simpa using hc⟩
      · simpa using h5 t' (by omega)

/-- R164: a synthesis fails exactly when no candidate gives invertible rows. -/
theorem synthesize_none {poly : BitVec 9} {G : Nat → Nat → Byte} {k : Nat} {first : List Nat} :
    ∀ {cands : List Nat}, synthesize poly G k first cands = none ↔
      ∀ t, t < cands.length → ∃ c, invert poly k (selectRows G k (first ++ [cands.getD t 0])) = .error c
  | [] => by simp [synthesize]
  | last :: later => by
    rw [synthesize]
    split
    · rename_i V hV
      simp only [reduceCtorEq, false_iff]
      intro h
      obtain ⟨c, hc⟩ := h 0 (by simp)
      simp [hV] at hc
    · rename_i c hc
      rw [synthesize_none]
      constructor
      · intro h t ht
        rcases t with _ | t
        · exact ⟨c, by simpa using hc⟩
        · simpa using h t (by simpa using ht)
      · intro h t ht
        simpa using h (t + 1) (by simpa using ht)

/-! ## Reconstruction -/

theorem lostFragment_lt (s : State) (p : Nat) : s.lostFragment p < 256 := (s.sample (listAddr idErrl p)).isLt

/-- R171: RECON changes nothing but memory and presence. -/
theorem rebuild_eq (s : State) (n : Nat) : s.rebuild n = { s with present := (s.rebuild n).present, mem := (s.rebuild n).mem } := by
  induction n with
  | zero => rfl
  | succ n ih =>
    rw [State.rebuild]
    conv_lhs => rw [ih]

/-- R171: exactly the listed fragments become present. -/
theorem rebuild_isPresent (s : State) (n i : Nat) :
    (s.rebuild n).isPresent i = (s.isPresent i || decide (∃ p, p < n ∧ s.lostFragment p = i)) := by
  induction n with
  | zero => simp [State.rebuild]
  | succ n ih =>
    have h : (s.rebuild (n + 1)).isPresent i = ((s.rebuild n).isPresent i || decide (i = s.lostFragment n)) :=
      setPresent_getLsbD _ (lostFragment_lt s n) i
    rw [h, ih, Bool.or_assoc]
    congr 1
    rw [← Bool.decide_or]
    congr 1
    apply propext
    constructor
    · rintro (⟨p, hp, rfl⟩ | rfl)
      · exact ⟨p, by omega, rfl⟩
      · exact ⟨n, by omega, rfl⟩
    · rintro ⟨p, hp, rfl⟩
      by_cases e : p = n
      · exact .inr (by rw [e])
      · exact .inl ⟨p, by omega, rfl⟩

/-- R171: a byte of no listed fragment keeps its content. -/
theorem rebuild_valueAt_off (s : State) (n a : Nat) (h : ∀ p o, p < n → o < s.l → a ≠ fragAddr (s.lostFragment p) o) :
    (s.rebuild n).valueAt a = s.valueAt a := by
  induction n with
  | zero => rfl
  | succ n ih =>
    have e : (s.rebuild (n + 1)).valueAt a =
        ((s.rebuild n).mem.fillFragment (s.lostFragment n) s.l (s.rebuiltAt n)).byteAt a := rfl
    rw [e, Memory.byteAt_fillFragment, if_neg]
    · exact ih fun p o hp ho => h p o (by omega) ho
    · rintro ⟨h1, h2⟩
      exact h n (a - fragAddr (s.lostFragment n) 0) (by omega) (by omega) (by simp only [fragAddr] at *; omega)

/-- R171: byte `o` of a listed fragment is rebuilt by the last entry that names it. -/
theorem rebuild_valueAt_at (s : State) (n p o : Nat) (hp : p < n) (ho : o < s.l) (hl : s.l ≤ 2 ^ 20)
    (h : ∀ q, p < q → q < n → s.lostFragment q ≠ s.lostFragment p) :
    (s.rebuild n).valueAt (fragAddr (s.lostFragment p) o) = s.rebuiltAt p o := by
  induction n with
  | zero => omega
  | succ n ih =>
    have e : (s.rebuild (n + 1)).valueAt (fragAddr (s.lostFragment p) o) =
        ((s.rebuild n).mem.fillFragment (s.lostFragment n) s.l (s.rebuiltAt n)).byteAt (fragAddr (s.lostFragment p) o) := rfl
    rw [e, Memory.byteAt_fillFragment]
    by_cases hpn : p = n
    · subst hpn
      rw [if_pos (by simp only [fragAddr]; omega)]
      congr 1
      simp only [fragAddr]
      omega
    · rw [if_neg]
      · exact ih (by omega) fun q h1 h2 => h q h1 (by omega)
      · have := h n (by omega) (by omega)
        simp only [fragAddr]
        omega

/-! ## The invariant -/

/-- The invariant passes to a state with the same parameters, configuration, `G` and, while `DV` is 1, descriptor, whose memory
is canonical and in range and whose reserved bits are 0. -/
theorem inv_of_same_configuration {s t : State} (h : s.Inv) (hp : t.params = s.params) (hw : t.mem.wf)
    (hr : ∀ c ∈ t.mem, byteExists s.params c.1)
    (hz1 : t.esticky &&& 0xFFFFF801#32 = 0#32) (hz2 : ∀ i, s.params.mmax ≤ i → t.isPresent i = false)
    (hc : t.cfgv = s.cfgv ∧ t.cfgM = s.cfgM ∧ t.cfgK = s.cfgK ∧ t.cfgStrat = s.cfgStrat)
    (hG : ∀ i j, i < 256 → j < 256 → t.valueAt (matAddr 0 i j) = s.valueAt (matAddr 0 i j))
    (hd : t.dv = true → s.dv = true ∧ t.nerrs = s.nerrs ∧ t.nsrcerrs = s.nsrcerrs ∧
      ∀ id q, id ≤ 1 → q < 256 → t.valueAt (listAddr id q) = s.valueAt (listAddr id q)) : t.Inv := by
  obtain ⟨h1, h2, h3, h4, h5, h6, h7⟩ := h
  obtain ⟨c1, c2, c3, c4⟩ := hc
  have em : t.m = s.m := by simp [State.m, c2]
  have ek : t.k = s.k := by simp [State.k, c3]
  have er : t.r = s.r := by simp [State.r, em, ek]
  refine ⟨by rw [hp]; exact h1, hw, fun c hc => by rw [hp]; exact hr c hc, ⟨hz1, fun i hi => hz2 i (by rwa [hp] at hi)⟩,
    ⟨?_, ?_⟩, ?_, ?_⟩
  · rw [c1, em, ek, c4, hp]; exact h5.1
  · intro hcv
    rw [c1] at hcv
    obtain ⟨a, b, c, d⟩ := h5.2 hcv
    refine ⟨by rw [c2, a], by rw [c3, b], by rw [c4, c], ?_⟩
    by_contra hdv
    have := (hd (by simpa using hdv)).1
    rw [d] at this
    cases this
  · intro i j hi hj
    rw [show idG = 0 from rfl, hG i j hi hj, c1, em, ek, hp, c4]
    exact h6 i j hi hj
  · intro hdv
    obtain ⟨d1, d2, d3, d4⟩ := hd hdv
    obtain ⟨errl, didx, e1, e2, e3, e4, e5, e6, e7, e8, e9, e10⟩ := h7 d1
    have : s.m < 256 := m_lt s
    have : s.k < 256 := k_lt s
    have : s.r < 256 := by unfold State.r; omega
    refine ⟨errl, didx, by rw [d2, e1], by rw [er]; exact e2, by rw [d3, ek, e3], by rw [ek, e4], e5, e6,
      by rw [em]; exact e7, by rw [em]; exact e8, fun p hp => ?_, fun j hj => ?_⟩
    · rw [d4 _ _ (by decide) (by omega)]; exact e9 p hp
    · rw [d4 _ _ (by decide) (by omega)]; exact e10 j hj

end Sys2Proof.Machine
end

