-- ==== Sys2Proof/Laws/PerInstr.lean ====
section
/-! SUPPORT. Statements made command by command. EncodedFields: the word of a well-formed command has the opcode of its row in
bits [7:0] and 0 in the reserved bits of its format (30_encoding.md R81, R84). -/

namespace Sys2Proof

/-- R84: the opcode of a command. -/
def Instr.opcode : Instr → Nat
  | .nop => 0x00
  | .gfmul _ _ => 0x01
  | .gfdiv _ _ => 0x02
  | .gfinv _ => 0x03
  | .matmul _ _ _ => 0x10
  | .invert _ _ => 0x11
  | .init _ _ _ => 0x20
  | .deinit => 0x21
  | .gendec => 0x30
  | .recon => 0x31
  | .frame => 0x40
  | .parity => 0x41
  | .unframe => 0x42
  | .encode => 0x50
  | .decode => 0x51

/-- R81, R84: the first reserved bit of a command's word; all bits from it up are 0. -/
def Instr.firstReservedBit : Instr → Nat
  | .gfmul _ _ | .gfdiv _ _ => 24
  | .gfinv _ | .invert _ _ => 16
  | .matmul _ _ _ => 20
  | .init _ _ _ => 25
  | .nop | .deinit | .gendec | .recon | .frame | .parity | .unframe | .encode | .decode => 8

namespace Laws.EncodedFields

/-- The opcode and the reserved bits of a command's word. -/
def Statement (i : Instr) : Prop :=
  i.WellFormed →
    field (encode i) 0 8 = i.opcode ∧ field (encode i) i.firstReservedBit (32 - i.firstReservedBit) = 0

theorem nop : Statement .nop := by intro _; decide

theorem gfmul (a b : Byte) : Statement (.gfmul a b) := by
  intro _
  have ha := a.isLt
  have hb := b.isLt
  simp only [field, encode, formatS, Instr.opcode, Instr.firstReservedBit, BitVec.toNat_ofNat]
  omega

theorem gfdiv (a b : Byte) : Statement (.gfdiv a b) := by
  intro _
  have ha := a.isLt
  have hb := b.isLt
  simp only [field, encode, formatS, Instr.opcode, Instr.firstReservedBit, BitVec.toNat_ofNat]
  omega

theorem gfinv (a : Byte) : Statement (.gfinv a) := by
  intro _
  have ha := a.isLt
  simp only [field, encode, formatS, Instr.opcode, Instr.firstReservedBit, BitVec.toNat_ofNat]
  omega

theorem matmul (dst s1 s2 : Nat) : Statement (.matmul dst s1 s2) := by
  rintro ⟨hd, h1, h2⟩
  simp only [idFits] at hd h1 h2
  simp only [field, encode, formatM, Instr.opcode, Instr.firstReservedBit, BitVec.toNat_ofNat]
  omega

theorem invert (dst s1 : Nat) : Statement (.invert dst s1) := by
  rintro ⟨hd, h1⟩
  simp only [idFits] at hd h1
  simp only [field, encode, formatM, Instr.opcode, Instr.firstReservedBit, BitVec.toNat_ofNat]
  omega

theorem init (m k : Nat) (strat : Strategy) : Statement (.init m k strat) := by
  rintro ⟨hm, hk⟩
  simp only [countFits] at hm hk
  cases strat <;>
    simp only [field, encode, formatC, strategyBit, Instr.opcode, Instr.firstReservedBit, BitVec.toNat_ofNat] <;> omega

theorem deinit : Statement .deinit := by intro _; decide

theorem gendec : Statement .gendec := by intro _; decide

theorem recon : Statement .recon := by intro _; decide

theorem frame : Statement .frame := by intro _; decide

theorem parity : Statement .parity := by intro _; decide

theorem unframe : Statement .unframe := by intro _; decide

theorem encode : Statement .encode := by intro _; decide

theorem decode : Statement .decode := by intro _; decide

end Laws.EncodedFields

end Sys2Proof
end

