-- ==== Sys2Proof/Tests/Slice0.lean ====
section
/-! SUPPORT. Tests of the model against the spec's own numbers (95_test_vectors.md, 30_encoding.md R87), and for each statement a
concrete state and operands that meet its hypotheses together. -/

namespace Sys2Proof.Tests

open Sys2Proof.Machine Sys2Proof.Claims

-- One theorem after another, so that the file needs few threads and little memory.
set_option Elab.async false

/-! ## Well-formedness (R81): each check refuses an ill-formed term -/

theorem test_wellFormed_matmul_dst : (Instr.matmul 16 1 2).wellFormed = false := by decide
theorem test_wellFormed_matmul_s1 : (Instr.matmul 4 16 2).wellFormed = false := by decide
theorem test_wellFormed_matmul_s2 : (Instr.matmul 4 1 16).wellFormed = false := by decide
theorem test_wellFormed_invert_dst : (Instr.invert 16 1).wellFormed = false := by decide
theorem test_wellFormed_invert_s1 : (Instr.invert 2 16).wellFormed = false := by decide
theorem test_wellFormed_init_m : (Instr.init 256 4 .vandermonde).wellFormed = false := by decide
theorem test_wellFormed_init_k : (Instr.init 6 256 .cauchy).wellFormed = false := by decide
theorem test_wellFormed_accepts : (Instr.matmul 15 1 2).wellFormed = true ∧ (Instr.init 255 254 .cauchy).wellFormed = true := by
  decide

/-- The Bool check is the Prop. -/
theorem wellFormed_iff (i : Instr) : i.wellFormed = true ↔ i.WellFormed := by
  cases i <;> simp [Instr.wellFormed, Instr.WellFormed, and_assoc]

/-! ## Decoding (R81, R84, R87): words written out bit by bit from the formats, `{reserved, …, opcode}` -/

theorem test_decode_nop : decode 0b00000000000000000000000000000000#32 = .ok .nop := by decide
theorem test_decode_gfmul : decode 0b00000000100000110101011100000001#32 = .ok (.gfmul 0x57 0x83) := by decide
theorem test_decode_gfdiv : decode 0b00000000100000110011000100000010#32 = .ok (.gfdiv 0x31 0x83) := by decide
theorem test_decode_gfinv : decode 0b00000000000000000101001100000011#32 = .ok (.gfinv 0x53) := by decide
theorem test_decode_matmul : decode 0b00000000000000100001010000010000#32 = .ok (.matmul 4 1 2) := by decide
theorem test_decode_invert : decode 0b00000000000000000001001000010001#32 = .ok (.invert 2 1) := by decide
theorem test_decode_init_vand : decode 0b00000000000001000000011000100000#32 = .ok (.init 6 4 .vandermonde) := by decide
theorem test_decode_init_cauchy : decode 0b00000001000001100000110000100000#32 = .ok (.init 12 6 .cauchy) := by decide
theorem test_decode_deinit : decode 0b00000000000000000000000000100001#32 = .ok .deinit := by decide
theorem test_decode_gendec : decode 0b00000000000000000000000000110000#32 = .ok .gendec := by decide
theorem test_decode_recon : decode 0b00000000000000000000000000110001#32 = .ok .recon := by decide
theorem test_decode_frame : decode 0b00000000000000000000000001000000#32 = .ok .frame := by decide
theorem test_decode_parity : decode 0b00000000000000000000000001000001#32 = .ok .parity := by decide
theorem test_decode_unframe : decode 0b00000000000000000000000001000010#32 = .ok .unframe := by decide
theorem test_decode_encode : decode 0b00000000000000000000000001010000#32 = .ok .encode := by decide
theorem test_decode_decode : decode 0b00000000000000000000000001010001#32 = .ok .decode := by decide

/-- V9: reserved bits and unassigned opcodes are illegal. -/
theorem test_decode_illegal :
    decode 0x02040620#32 = .error (.reservedBits 0x20) ∧ decode 0x00000100#32 = .error (.reservedBits 0) ∧
    decode 0x00015303#32 = .error (.reservedBits 3) ∧ decode 0x00121410#32 = .error (.reservedBits 0x10) ∧
    decode 0x00011211#32 = .error (.reservedBits 0x11) ∧ decode 0x00000004#32 = .error (.unassignedOpcode 4) ∧
    decode 0x000000FF#32 = .error (.unassignedOpcode 0xFF) ∧ decode 0x00000150#32 = .error (.reservedBits 0x50) := by
  decide

/-- R87: the encoder writes the spec's words. -/
theorem test_encode_words :
    encode (.gfmul 0x57 0x83) = 0x00835701#32 ∧ encode (.init 12 6 .cauchy) = 0x01060C20#32 ∧
    encode (.matmul 4 1 2) = 0x00021410#32 ∧ encode (.invert 2 1) = 0x00001211#32 := by
  decide

/-- The rows of spec/opcode_table.json, every operand bit 0. -/
theorem test_table_words :
    [0x00, 0x01, 0x02, 0x03, 0x10, 0x11, 0x20, 0x21, 0x30, 0x31, 0x40, 0x41, 0x42, 0x50, 0x51].map (decodeTableWord 32) =
      [some .nop, some (.gfmul 0 0), some (.gfdiv 0 0), some (.gfinv 0), some (.matmul 0 0 0), some (.invert 0 0),
        some (.init 0 0 .vandermonde), some .deinit, some .gendec, some .recon, some .frame, some .parity, some .unframe,
        some .encode, some .decode] := by
  decide

/-! ## Small states -/

/-- What `f` sees of the state an outcome answers. -/
def observe {α : Type} (o : Host.Outcome State Fault Refusal) (f : State → α) : Option α :=
  match o with
  | .next s => some (f s)
  | .fault _ => none
  | .refused _ => none

/-- A row of bytes, 0 after its end. -/
def bytes (l : List Byte) (j : Nat) : Byte := l.getD j 0#8

/-- Rows of bytes. -/
def rows (l : List (List Byte)) (i j : Nat) : Byte := (l.getD i []).getD j 0#8

/-- The memory of a block configured with the generator of `m`, `k`, `strat`, with the lists `errl`, `didx`, the decode rows `D`,
`m` fragments of `lf` bytes and a payload of `np` bytes. -/
def demoMemory (p : Params) (m k : Nat) (strat : Strategy) (errl didx : List Nat) (D : Nat → Nat → Byte) (lf : Nat)
    (frag : Nat → Nat → Byte) (np : Nat) (pay : Nat → Byte) : Memory :=
  (((((Memory.fillMatrix [] idG m k fun i j => some (generatorAt p.poly k strat i j)).fillList idErrl errl.length fun q =>
      some (BitVec.ofNat 8 (errl.getD q 0))).fillList idDidx didx.length fun q =>
      some (BitVec.ofNat 8 (didx.getD q 0))).fillMatrix idD errl.length k fun i j =>
      some (D i j)).fillFragments 0 m lf fun i o => some (frag i o)).fillPayload np fun o => some (pay o)

/-- A configured block about to run a command. -/
def demo (p : Params) (m k : Nat) (strat : Strategy) (dv : Bool) (errl didx : List Nat) (D : Nat → Nat → Byte)
    (len : BitVec 21) (plen : Word) (present : BitVec 256) (lf : Nat) (frag : Nat → Nat → Byte) (np : Nat)
    (pay : Nat → Byte) : State :=
  { State.reset with
    params := p
    busy := true
    cfgv := true
    cfgM := BitVec.ofNat 8 m
    cfgK := BitVec.ofNat 8 k
    cfgStrat := strat
    dv := dv
    len := len
    plen := plen
    nerrs := BitVec.ofNat 8 errl.length
    nsrcerrs := BitVec.ofNat 8 (errl.filter fun e => decide (e < k)).length
    present := present
    mem := demoMemory p m k strat errl didx D lf frag np pay }

/-- `init 3, 2, vand` with the fragments of "Hi" (V6) and the descriptor of the loss of fragment 0 (V10). -/
def hi (dv : Bool) (present : BitVec 256) (frag : Nat → Nat → Byte) : State :=
  demo .reference 3 2 .vandermonde dv [0] [1, 2] (rows [[1, 1]]) 2#21 2#32 present 2 frag 2 (bytes [0x48, 0x69])

/-- The fragments of "Hi", V6. -/
def hiFragments : Nat → Nat → Byte := rows [[0x48, 0x69], [0x02, 0x32], [0x4A, 0x5B]]

/-- A state with matrices for MATMUL and INVERT. -/
def withMatrices (dim1 dim2 dim3 : Byte) (r c : Nat) (B : Nat → Nat → Byte) (r' c' : Nat) (Binv : Nat → Nat → Byte) : State :=
  { State.reset with
    busy := true
    dim1 := dim1
    dim2 := dim2
    dim3 := dim3
    mem := (Memory.fillMatrix [] idB r c fun i j => some (B i j)).fillMatrix idBinv r' c' fun i j => some (Binv i j) }

/-! ## Commands -/

theorem test_nop : observe (exec .nop { State.reset with err := .failed .illegalCommand, einfo := 3#32 })
    (fun s => (s.err, s.einfo)) = some (.ok, 3#32) := by decide +kernel

/-- V1 -/
theorem test_gfmul : observe (exec (.gfmul 0x57 0x83) State.reset) (fun s => s.res) = some 0x31#8 := by decide +kernel
theorem test_gfmul_reduction : observe (exec (.gfmul 0xFF 0xFF) State.reset) (fun s => s.res) = some 0xE2#8 := by decide +kernel
theorem test_gfdiv : observe (exec (.gfdiv 0x31 0x83) State.reset) (fun s => s.res) = some 0x57#8 := by decide +kernel
theorem test_gfdiv_zero : observe (exec (.gfdiv 0 0) { State.reset with res := 0x57#8 })
    (fun s => (s.statusWord, s.res, s.esticky)) = some (0x00000700#32, 0x57#8, 0x80#32) := by decide +kernel
theorem test_gfinv : observe (exec (.gfinv 0x53) State.reset) (fun s => s.res) = some 0x8C#8 := by decide +kernel
theorem test_gfinv_zero : observe (exec (.gfinv 0) { State.reset with res := 0x57#8 })
    (fun s => (s.statusWord, s.res)) = some (0x00000700#32, 0x57#8) := by decide +kernel

/-- V4 -/
theorem test_matmul :
    observe (exec (.matmul 4 1 2) (withMatrices 1 3 1 1 3 (rows [[1, 2, 3]]) 3 1 (rows [[4], [5], [6]])))
      (fun s => (s.err, s.valueAt 0x10040000, s.valueAt 0x10040001)) = some (.ok, some 0x04#8, none) := by
  decide +kernel

/-- R257: an unspecified element makes the product unspecified, unless the other factor is 0. -/
theorem test_matmul_unspecified :
    observe (exec (.matmul 4 1 2) (withMatrices 2 1 1 2 1 (rows [[1], [0]]) 0 0 (rows [])))
      (fun s => (s.valueAt 0x10040000, s.valueAt 0x10040100)) = some (none, some 0#8) := by
  decide +kernel

/-- V4: an inverse, and a singular matrix. -/
theorem test_invert :
    observe (exec (.invert 2 1) (withMatrices 2 0 0 2 2 (rows [[1, 1], [1, 2]]) 0 0 (rows [])))
      (fun s => [0x10020000, 0x10020001, 0x10020100, 0x10020101].map s.valueAt) =
      some [some 0xF5#8, some 0xF4#8, some 0xF4#8, some 0xF4#8] ∧
    observe (exec (.invert 2 1) (withMatrices 2 0 0 2 2 (rows [[1, 2], [2, 4]]) 0 0 (rows [])))
      (fun s => (s.err, s.einfo)) = some (.failed .singularMatrix, 1#32) := by
  decide +kernel

theorem mul_one_reference : ∀ a : Byte, mul 0x11D#9 a 1#8 = a := by decide +kernel

theorem mul_zero_reference : ∀ a : Byte, mul 0x11D#9 a 0#8 = 0#8 := by decide +kernel

/-- The matrix `[[1, x], [0, 1]]` is its own inverse. -/
theorem invert_shear (x : Byte) : invert 0x11D#9 2 [[1#8, x], [0#8, 1#8]] = .ok [[1#8, x], [0#8, 1#8]] := by
  have hi : inverse 0x11D#9 1#8 = some 1#8 := by decide +kernel
  by_cases h : x = 0#8 <;>
    simp [invert, eliminateFrom, pivotColumn, findPivot, swapRows, scaleRow, eliminateRow, Matrix.tabulate, identityAt,
      List.range_succ, hi, mul_one_reference, mul_zero_reference, h]

/-- The matrix `B = [[1, ?], [0, 1]]`, whose element `[0][1]` nothing has written. -/
def holed : State :=
  { State.reset with busy := true, dim1 := 2, mem := [(0x10010000, 1#8), (0x10010100, 0#8), (0x10010101, 1#8)] }

/-- R257, U1: the inverse of `[[1, x], [0, 1]]` is `[[1, x], [0, 1]]`, of which only `[0][1]` depends on `x`. -/
theorem test_invert_unspecified :
    observe (exec (.invert 2 1) holed)
      (fun s => (s.err, [0x10020000, 0x10020001, 0x10020100, 0x10020101].map s.valueAt)) =
      some (.ok, [some 1#8, none, some 0#8, some 1#8]) := by
  have he : invert holed.params.poly holed.dim1.toNat (holed.cornerSample 1 holed.dim1.toNat) = .ok _ :=
    invert_shear (Config.freeByte 0 0x10010001)
  rw [exec, execInvert, invertEnd, if_neg (by decide), if_neg (by decide), if_neg (by decide), he]
  decide +kernel

/-- V8 -/
theorem test_init_vand :
    observe (exec (.init 6 4 .vandermonde) State.reset)
      (fun s => (s.statusWord, s.cfgWord, [0x10000101, 0x10000102, 0x10000500, 0x10000503].map s.valueAt)) =
      some (0x00000002#32, 0x00000406#32, [some 1#8, some 0#8, some 1#8, some 8#8]) := by
  decide +kernel

/-- V8 -/
theorem test_init_cauchy :
    observe (exec (.init 3 2 .cauchy) State.reset)
      (fun s => (s.cfgWord, [0x10000200, 0x10000201, 0x10000202].map s.valueAt)) =
      some (0x00010203#32, [some 0x8E#8, some 0xF4#8, none]) := by
  decide +kernel

theorem test_deinit : observe (exec .deinit (hi true 0 hiFragments))
    (fun s => (s.statusWord, s.cfgWord, s.valueAt 0x10000201, s.valueAt 0x30000001)) =
    some (0#32, 0#32, none, some 0x69#8) := by
  decide +kernel

/-- V10: `init 3, 2, vand`, fragment 0 absent: the lists, the decode row, `BINV`. -/
theorem test_gendec : observe (exec .gendec (hi false 0b110 hiFragments))
    (fun s => (s.statusWord, s.nerrs, s.nsrcerrs, [0x20000000, 0x20000100, 0x20000101, 0x10030000, 0x10030001, 0x10020000,
      0x10020001, 0x10020100, 0x10020101].map s.valueAt)) =
    some (0x00000006#32, 1#8, 1#8, [0, 1, 2, 1, 1, 1, 1, 1, 0#8].map some) := by
  decide +kernel

/-- P5: two holes, `r = 1`. -/
theorem test_gendec_tooMany : observe (exec .gendec (hi true 0b100 hiFragments))
    (fun s => (s.statusWord, s.einfo, s.nerrs, s.nsrcerrs)) = some (0x00000502#32, 2#32, 2#8, 2#8) := by
  decide +kernel

/-- V10 -/
theorem test_recon : observe (exec .recon (hi true 0b110 (rows [[0xEE, 0xEE], [0x02, 0x32], [0x4A, 0x5B]])))
    (fun s => (s.statusWord, s.present, [0x30000000, 0x30000001, 0x30000002].map s.valueAt)) =
    some (0x00000006#32, 7#256, [some 0x48#8, some 0x69#8, none]) := by
  decide +kernel

theorem test_recon_noDescriptor : observe (exec .recon (hi false 0b110 hiFragments)) (fun s => (s.err, s.einfo)) =
    some (.failed .illegalCommand, 4#32) := by
  decide +kernel

/-- V5, P5: "Hi" -/
theorem test_frame : observe (exec .frame (hi true 0b100 (rows [])))
    (fun s => (s.statusWord, s.len, s.present, [0x30000000, 0x30000001, 0x30100000, 0x30100001].map s.valueAt)) =
    some (0x00000002#32, 2#21, 0b011#256, [some 0x48#8, some 0x69#8, some 0x02#8, some 0x32#8]) := by
  decide +kernel

/-- V5 -/
theorem test_frame_too_long : observe (exec .frame { hi false 0 (rows []) with plen := 0xFFFFFFFF#32 })
    (fun s => (s.err, s.einfo, s.len)) = some (.failed .allocationFailure, 0#32, 2#21) := by
  decide +kernel

/-- V5: frame lengths. -/
theorem test_frameLength :
    [frameLength 0 4, frameLength 0 1, frameLength 9 4, frameLength 10 4, frameLength 13 4, frameLength 14 4, frameLength 15 6,
      frameLength 99 3, frameLength 100 3, frameLength 123 4, frameLength 262137 4, frameLength 262138 4] =
    [1, 2, 3, 4, 4, 5, 3, 34, 35, 32, 65536, 65537] := by
  decide +kernel

/-- V6 -/
theorem test_parity : observe (exec .parity (hi true 0b011 (rows [[0x48, 0x69], [0x02, 0x32]])))
    (fun s => (s.statusWord, s.present, [0x30200000, 0x30200001].map s.valueAt)) =
    some (0x00000002#32, 7#256, [some 0x4A#8, some 0x5B#8]) := by
  decide +kernel

theorem test_parity_missing : observe (exec .parity (hi false 0b001 hiFragments)) (fun s => (s.err, s.einfo)) =
    some (.failed .missingOperand, 1#32) := by
  decide +kernel

/-- V7 -/
theorem test_unframe : observe (exec .unframe (hi false 0b011 (rows [[0x41, 0x42], [0x02, 0x33]])))
    (fun s => (s.err, s.plen, [0x40000000, 0x40000001, 0x40000002].map s.valueAt)) =
    some (.ok, 3#32, [some 0x41#8, some 0x42#8, some 0x02#8]) := by
  decide +kernel

/-- V7: the corrupt buffers. -/
theorem test_unframe_corrupt :
    [[[0x31, 0x32], [0x33, 0x34]], [[0x41, 0x42], [0x41, 0x35]], [[0x41, 0x02], [0x39, 0x39]], [[0x02, 0x30], [0x30, 0x37]],
        [[0x67, 0x02], [0x02, 0x41]]].map
      (fun f => observe (exec .unframe (hi false 0b011 (rows f))) fun s => (s.err, s.einfo)) =
    [2#32, 2#32, 3#32, 3#32, 1#32].map fun c => some (.failed .framingCorruption, c) := by
  decide +kernel

/-- V6 -/
theorem test_encode : observe (exec .encode (hi false 0 (rows [])))
    (fun s => (s.statusWord, s.present, [0x30000000, 0x30100001, 0x30200000, 0x30200001].map s.valueAt)) =
    some (0x00000002#32, 7#256, [some 0x48#8, some 0x32#8, some 0x4A#8, some 0x5B#8]) := by
  decide +kernel

/-- P5 -/
theorem test_decode : observe (exec .decode (hi false 0b110 (rows [[0xEE, 0xEE], [0x02, 0x32], [0x4A, 0x5B]])))
    (fun s => (s.statusWord, s.plen, s.present, [0x30000000, 0x30000001, 0x40000000, 0x40000001].map s.valueAt)) =
    some (0x00000006#32, 2#32, 7#256, [some 0x48#8, some 0x69#8, some 0x48#8, some 0x69#8]) := by
  decide +kernel

/-- R202: `FramingCorruption` in DECODE clears `DV`. -/
theorem test_decode_corrupt : observe (exec .decode (hi true 0b111 (rows [[0x41, 0x42], [0x41, 0x35], [0, 0]])))
    (fun s => (s.statusWord, s.einfo)) = some (0x00000602#32, 2#32) := by
  decide +kernel

/-! ## Steps and transactions -/

/-- Every row of the table, operands 0, runs as the first command after reset. -/
theorem test_first_step :
    [0x00, 0x01, 0x02, 0x03, 0x10, 0x11, 0x20, 0x21, 0x30, 0x31, 0x40, 0x41, 0x42, 0x50, 0x51].map
      (fun w => observe (step (State.reset.withFetchWord 32 w)) fun s => (s.busy, s.err.code, s.cmd.toNat)) =
    [some (false, 0, 0x00), some (false, 0, 0x01), some (false, 7, 0x02), some (false, 7, 0x03), some (false, 9, 0x10),
      some (false, 9, 0x11), some (false, 1, 0x20), some (false, 0, 0x21), some (false, 8, 0x30), some (false, 8, 0x31),
      some (false, 8, 0x40), some (false, 8, 0x41), some (false, 8, 0x42), some (false, 8, 0x50), some (false, 8, 0x51)] := by
  decide +kernel

/-- P1: an unassigned opcode. -/
theorem test_illegal_word : observe (step (State.reset.withFetchWord 32 0xFF)) (fun s => (s.statusWord, s.esticky, s.einfo)) =
    some (0x00000900#32, 0x200#32, 0#32) := by
  decide +kernel

/-- P1, P3: refused writes. -/
theorem test_refused_writes :
    [HostEvent.memWrite 0x10#32 (.word 1), .memWrite 0x11#32 (.byte 1), .memWrite 0x10000000#32 (.byte 1),
        .memWrite 0x20000000#32 (.byte 1), .memWrite 0x34#32 (.word 0), .memWrite 0x100500FF#32 (.byte 0)].map
      (fun e => observe (step { State.reset with host := [e] }) fun s => (s.responses, s.mem)) =
    List.replicate 6 (some ([.error], [])) := by
  decide +kernel

/-- P1: write 1 to clear; P2: a byte of FRAG. -/
theorem test_writes :
    observe (step { State.reset with esticky := 0x280#32, host := [.memWrite 8#32 (.word 0x80)] }) (fun s => s.esticky) =
      some 0x200#32 ∧
    observe (step { State.reset with host := [.memWrite 0x30100002#32 (.byte 0xEE)] }) (fun s => s.mem) =
      some [(0x30100002, 0xEE#8)] ∧
    observe (step { State.reset with dv := true, host := [.memWrite 0x5C#32 (.word 0xFFFFFFFF)] })
      (fun s => (s.dv, s.present.toNat / 2 ^ 224, s.present.toNat % 2 ^ 224)) = some (false, 0x7FFFFFFF, 0) := by
  decide +kernel

/-- R75: while busy a `STATUS` read is answered and a `CMD` write is not. -/
theorem test_busy :
    observe (step { State.reset with busy := true, busyLeft := 1, host := [.memRead 4#32 .four] }) (fun s => s.responses) =
      some [.okayData (.word 1#32)] ∧
    observe (step { State.reset with busy := true, busyLeft := 1, host := [.memWrite 0#32 (.word 0x21)] })
      (fun s => (s.responses, s.cmd)) = some ([.error], 0#32) := by
  decide +kernel

/-! ## Witnesses: concrete states that meet the statements' hypotheses together -/

theorem demoMemory_wf (p : Params) (m k : Nat) (strat : Strategy) (errl didx : List Nat) (D : Nat → Nat → Byte) (lf : Nat)
    (frag : Nat → Nat → Byte) (np : Nat) (pay : Nat → Byte) : (demoMemory p m k strat errl didx D lf frag np pay).wf := by
  have h : Memory.wf [] := List.Pairwise.nil
  exact Memory.fill_wf (Memory.fillBlock_wf (Memory.fillBlock_wf (Memory.fill_wf (Memory.fill_wf (Memory.fillBlock_wf h _ _ _ _ _)
    _ _ _) _ _ _) _ _ _ _ _) _ _ _ _ _) _ _ _

/-- What the demo memory holds at each kind of address. -/
theorem demoMemory_at (p : Params) (m k : Nat) (strat : Strategy) (errl didx : List Nat) (D : Nat → Nat → Byte) (lf : Nat)
    (frag : Nat → Nat → Byte) (np : Nat) (pay : Nat → Byte) (hk : k ≤ 255) (hm : m ≤ 255) (he : errl.length ≤ 255)
    (hd : didx.length ≤ 255) (hl : lf ≤ 2 ^ 20) :
    let M := demoMemory p m k strat errl didx D lf frag np pay
    (∀ i j, i < 256 → j < 256 → M.byteAt (matAddr 0 i j) = if i < m ∧ j < k then some (generatorAt p.poly k strat i j) else none) ∧
    (∀ q, q < errl.length → M.byteAt (listAddr 0 q) = some (BitVec.ofNat 8 (errl.getD q 0))) ∧
    (∀ q, q < didx.length → M.byteAt (listAddr 1 q) = some (BitVec.ofNat 8 (didx.getD q 0))) ∧
    (∀ i j, i < errl.length → j < k → M.byteAt (matAddr 3 i j) = some (D i j)) ∧
    (∀ i o, i < m → o < lf → M.byteAt (fragAddr i o) = some (frag i o)) ∧
    (∀ o, o < np → M.byteAt (payAddr o) = some (pay o)) := by
  have h8 : k ≤ 2 ^ 8 := by omega
  refine ⟨fun i j hi hj => ?_, fun q hq => ?_, fun q hq => ?_, fun i j hi hj => ?_, fun i o hi ho => ?_, fun o ho => ?_⟩
  · rw [demoMemory, Memory.byteAt_fillPayload, if_neg (by simp [matAddr, payAddr]; omega), Memory.byteAt_fillFragments_off _ _ _ _ _ _ hl
      (by intros; simp [matAddr, fragAddr]; omega), Memory.byteAt_fillMatrix_off _ _ _ _ _ _ h8
      (by intros; simp [matAddr, idD]; omega), Memory.byteAt_fillList, if_neg (by simp [matAddr, listAddr]; omega),
      Memory.byteAt_fillList, if_neg (by simp [matAddr, listAddr]; omega)]
    by_cases h : i < m ∧ j < k
    · rw [if_pos h]; exact Memory.byteAt_fillMatrix_at [] idG m k i j _ h8 h.1 h.2
    · rw [if_neg h, Memory.byteAt_fillMatrix_off [] idG m k _ _ h8, Memory.byteAt_nil]
      intro i' j' hi' hj' e
      simp only [matAddr, idG] at e
      apply h
      have : i = i' := by omega
      have : j = j' := by omega
      subst_vars
      exact ⟨hi', hj'⟩
  · rw [demoMemory, Memory.byteAt_fillPayload, if_neg (by simp [listAddr, payAddr]; omega), Memory.byteAt_fillFragments_off _ _ _ _ _ _ hl
      (by intros; simp [listAddr, fragAddr]; omega), Memory.byteAt_fillMatrix_off _ _ _ _ _ _ h8
      (by intros; simp [matAddr, idD, listAddr]; omega), Memory.byteAt_fillList, if_neg (by simp [listAddr, idDidx]; omega),
      Memory.byteAt_fillList, if_pos (by simp [listAddr, idErrl]; omega)]
    simp [listAddr, idErrl]
  · rw [demoMemory, Memory.byteAt_fillPayload, if_neg (by simp [listAddr, payAddr]; omega), Memory.byteAt_fillFragments_off _ _ _ _ _ _ hl
      (by intros; simp [listAddr, fragAddr]; omega), Memory.byteAt_fillMatrix_off _ _ _ _ _ _ h8
      (by intros; simp [matAddr, idD, listAddr]; omega), Memory.byteAt_fillList, if_pos (by simp [listAddr, idDidx]; omega)]
    simp [listAddr, idDidx]
  · rw [demoMemory, Memory.byteAt_fillPayload, if_neg (by simp [matAddr, payAddr]; omega), Memory.byteAt_fillFragments_off _ _ _ _ _ _ hl
      (by intros; simp [matAddr, fragAddr]; omega)]
    exact Memory.byteAt_fillMatrix_at _ idD _ _ i j _ h8 hi hj
  · rw [demoMemory, Memory.byteAt_fillPayload, if_neg (by simp [fragAddr, payAddr]; omega)]
    have := Memory.byteAt_fillFragments_at
      ((((Memory.fillMatrix [] idG m k fun i j => some (generatorAt p.poly k strat i j)).fillList idErrl errl.length fun q =>
        some (BitVec.ofNat 8 (errl.getD q 0))).fillList idDidx didx.length fun q =>
        some (BitVec.ofNat 8 (didx.getD q 0))).fillMatrix idD errl.length k fun i j => some (D i j)) 0 m lf i o
        (fun i o => some (frag i o)) hl hi ho
    rwa [Nat.zero_add] at this
  · rw [demoMemory, Memory.byteAt_fillPayload, if_pos (by simp [payAddr]; omega)]
    simp [payAddr]

theorem demoMemory_inRange (p : Params) (m k : Nat) (strat : Strategy) (errl didx : List Nat) (D : Nat → Nat → Byte) (lf : Nat)
    (frag : Nat → Nat → Byte) (np : Nat) (pay : Nat → Byte) (hm : m ≤ p.mmax) (hk : k ≤ p.mmax) 
    (he : errl.length ≤ p.mmax) (hd : didx.length ≤ p.mmax) (hl : lf ≤ p.lmax) (hn : np ≤ p.psize) :
    ∀ c ∈ demoMemory p m k strat errl didx D lf frag np pay, byteExists p c.1 := by
  intro c hc
  rcases Memory.mem_fill hc with hc | ⟨h1, h2⟩
  · rcases Memory.mem_fillBlock hc with hc | ⟨i, hi, h1, h2⟩
    · rcases Memory.mem_fillBlock hc with hc | ⟨i, hi, h1, h2⟩
      · rcases Memory.mem_fill hc with hc | ⟨h1, h2⟩
        · rcases Memory.mem_fill hc with hc | ⟨h1, h2⟩
          · rcases Memory.mem_fillBlock hc with hc | ⟨i, hi, h1, h2⟩
            · cases hc
            · exact .inl ⟨0, i, c.1 - matAddr 0 i 0, by omega, by omega,
                by simp only [matAddr, idG] at *; omega, by simp only [matAddr, idG] at *; omega⟩
          · exact .inr (.inl ⟨0, c.1 - listAddr 0 0, by omega,
              by simp only [listAddr, idErrl] at *; omega, by simp only [listAddr, idErrl] at *; omega⟩)
        · exact .inr (.inl ⟨1, c.1 - listAddr 1 0, by omega,
            by simp only [listAddr, idDidx] at *; omega, by simp only [listAddr, idDidx] at *; omega⟩)
      · exact .inl ⟨3, i, c.1 - matAddr 3 i 0, by omega, by omega,
          by simp only [matAddr, idD] at *; omega, by simp only [matAddr, idD] at *; omega⟩
    · exact .inr (.inr (.inl ⟨i, c.1 - fragAddr i 0, by omega,
        by simp only [fragAddr] at *; omega, by simp only [fragAddr] at *; omega⟩))
  · exact .inr (.inr (.inr ⟨c.1 - payAddr 0, by simp only [payAddr] at *; omega, by simp only [payAddr] at *; omega⟩))

/-- The demo states keep the invariant. -/
theorem demo_inv {p : Params} {m k : Nat} {strat : Strategy} {dv : Bool} {errl didx : List Nat} {D : Nat → Nat → Byte}
    {len : BitVec 21} {plen : Word} {present : BitVec 256} {lf : Nat} {frag : Nat → Nat → Byte} {np : Nat} {pay : Nat → Byte}
    (hp : p.Valid) (hk : 1 ≤ k ∧ k < m ∧ m ≤ p.mmax ∧ (strat = .cauchy → p.hasCauchy = true)) (hl : lf ≤ p.lmax)
    (hn : np ≤ p.psize) (hpres : present &&& ~~~presenceBelow p.mmax = 0#256) (he : errl.length ≤ m - k) (hd : didx.length ≤ k)
    (hdv : dv = true → didx.length = k ∧ errl.Pairwise (· < ·) ∧ didx.Pairwise (· < ·) ∧ (∀ e ∈ errl, e < m ∧ e ∉ didx) ∧
      ∀ i ∈ didx, i < m) :
    (demo p m k strat dv errl didx D len plen present lf frag np pay).Inv := by
  obtain ⟨hk1, hk2, hk3, hk4⟩ := hk
  obtain ⟨hp1, hp2, hp3, hp4, hp5, hp6⟩ := id hp
  have e1 : (BitVec.ofNat 8 m).toNat = m := by simp; omega
  have e2 : (BitVec.ofNat 8 k).toNat = k := by simp; omega
  have e3 : (BitVec.ofNat 8 errl.length).toNat = errl.length := by simp; omega
  have e4 : (errl.filter fun e => decide (e < k)).length ≤ errl.length := List.length_filter_le _ _
  have at' := demoMemory_at p m k strat errl didx D lf frag np pay (by omega) (by omega) (by omega) (by omega) (by omega)
  refine ⟨hp, demoMemory_wf .., ?_, ⟨by simp [demo, State.reset], ?_⟩, ⟨?_, ?_⟩, ?_, ?_⟩
  · exact demoMemory_inRange p m k strat errl didx D lf frag np pay hk3 (by omega) (by omega) (by omega) hl hn
  · intro i hi
    replace hi : p.mmax ≤ i := hi
    have h : present.getLsbD i = (present &&& ~~~presenceBelow p.mmax).getLsbD i := by
      rw [BitVec.getLsbD_and, BitVec.getLsbD_not, presenceBelow_getLsbD]
      by_cases hi' : i < 256
      · simp [hi', Nat.not_lt.2 hi]
      · simp [hi', BitVec.getLsbD_of_ge present i (by omega)]
    simp only [State.isPresent, demo]
    rw [h, hpres]
    simp
  · intro _
    simp only [demo, State.k, State.m, e1, e2]
    exact ⟨hk1, hk2, hk3, hk4⟩
  · intro h; cases h
  · intro i j hi hj
    have := at'.1 i j hi hj
    simp only [demo, State.k, State.m, e1, e2, State.valueAt, idG, true_and]
    exact this
  · intro h
    obtain ⟨h1, h2, h3, h4, h5⟩ := hdv h
    refine ⟨errl, didx, ?_, ?_, ?_, ?_, h2, h3, ?_, ?_, ?_, ?_⟩
    all_goals simp only [demo, State.k, State.m, State.r, e1, e2, e3, State.valueAt, idErrl, idDidx]
    · exact he
    · simp; omega
    · exact h1
    · exact h4
    · exact h5
    · exact at'.2.1
    · exact at'.2.2.1

theorem reference_valid : Params.reference.Valid := by decide +kernel

theorem hi_inv {dv : Bool} {present : BitVec 256} {frag : Nat → Nat → Byte}
    (h : present &&& ~~~presenceBelow 255 = 0#256) : (hi dv present frag).Inv :=
  demo_inv (by decide +kernel) (by decide) (by decide) (by decide) h (by decide) (by decide) fun _ => by decide

/-- `G`, the lists, the decode row, the fragments and the payload of `hi`. -/
theorem hi_at (dv : Bool) (present : BitVec 256) (frag : Nat → Nat → Byte) :
    (∀ i j, i < 256 → j < 256 → (hi dv present frag).valueAt (matAddr 0 i j) =
      if i < 3 ∧ j < 2 then some (generatorAt 0x11D#9 2 .vandermonde i j) else none) ∧
    (∀ q, q < 1 → (hi dv present frag).valueAt (listAddr 0 q) = some (BitVec.ofNat 8 ([0].getD q 0))) ∧
    (∀ q, q < 2 → (hi dv present frag).valueAt (listAddr 1 q) = some (BitVec.ofNat 8 ([1, 2].getD q 0))) ∧
    (∀ i j, i < 1 → j < 2 → (hi dv present frag).valueAt (matAddr 3 i j) = some (rows [[1, 1]] i j)) ∧
    (∀ i o, i < 3 → o < 2 → (hi dv present frag).valueAt (fragAddr i o) = some (frag i o)) ∧
    ∀ o, o < 2 → (hi dv present frag).valueAt (payAddr o) = some (bytes [0x48, 0x69] o) :=
  demoMemory_at _ 3 2 _ [0] [1, 2] _ 2 frag 2 _ (by decide) (by decide) (by decide) (by decide) (by decide)

/-- The data fragments of `hi` as one buffer (R183). -/
theorem hi_buffer (dv : Bool) (present : BitVec 256) (frag : Nat → Nat → Byte) (x : Nat) (hx : x < 4) :
    (hi dv present frag).valueAt (frameByteAddr 2 x) = some (frag (x / 2) (x % 2)) :=
  (hi_at dv present frag).2.2.2.2.1 (x / 2) (x % 2) (by omega) (by omega)

theorem hi_corner (dv : Bool) (present : BitVec 256) (frag : Nat → Nat → Byte) :
    Corner (hi dv present frag) 0 3 2 (generatorAt 0x11D#9 2 .vandermonde) := by
  intro i j hi' hj
  rw [(hi_at dv present frag).1 i j (by omega) (by omega), if_pos ⟨hi', hj⟩]

/-- A state that differs from reset in registers and the model's own fields only. -/
theorem plain_inv {s : State} (hp : s.params = .reference) (hm : s.mem = []) (hc : s.cfgv = false) (hd : s.dv = false)
    (hf : s.cfgM = 0#8 ∧ s.cfgK = 0#8 ∧ s.cfgStrat = .vandermonde) (he : s.esticky = 0#32) (hr : s.present = 0#256) : s.Inv := by
  refine ⟨by rw [hp]; exact reference_valid, by rw [hm]; exact List.Pairwise.nil, ?_, ⟨by rw [he]; decide, ?_⟩,
    ⟨by simp [hc], by simp [hf, hd]⟩, ?_, ?_⟩
  · intro c h
    rw [hm] at h
    cases h
  · intro i _
    simp [State.isPresent, hr]
  · intro i j _ _
    simp [State.valueAt, hm, hc]
  · intro h
    rw [hd] at h
    cases h

theorem productIsIdentity_of {poly : BitVec 9} {n : Nat} {A B : Nat → Nat → Byte}
    (h : ∀ i, i < n → ∀ j, j < n → xorSum (fun t => mul poly (A i t) (B t j)) n = if i = j then 1#8 else 0#8) :
    ProductIsIdentity poly n A B := fun i j hi hj => h i hi j hj

/-! ### Encoding -/

theorem witness_DecodeOfEncodeIsTheCommand :
    (Instr.matmul 15 0 15).WellFormed ∧ (Instr.invert 15 15).WellFormed ∧ (Instr.init 255 255 .cauchy).WellFormed ∧
      (Instr.gfmul 0xFF 0xFF).WellFormed ∧ Instr.decode.WellFormed := by
  simp [Instr.WellFormed]

theorem witness_EncodeOfDecodeIsTheWord : decode 0x01FFFF20#32 = .ok (.init 255 255 .cauchy) := by decide

theorem witness_DecoderFollowsTheOpcodeTable :
    (∃ r ∈ opcodeTable, 0x01FFFF20#32 &&& r.mask = r.matchWord) ∧
      (∀ r ∈ opcodeTable, 0x000000FF#32 &&& r.mask ≠ r.matchWord) ∧
      ∀ r ∈ opcodeTable, 0x02FFFF20#32 &&& r.mask ≠ r.matchWord := by
  decide

theorem witness_IllegalWordEndsIllegalCommand :
    ∃ s : State, s.busy = true ∧ s.busyLeft = 0 ∧ ∀ r ∈ opcodeTable, s.cmd &&& r.mask ≠ r.matchWord :=
  ⟨{ State.reset with busy := true, cmd := 0x00000100#32 }, rfl, rfl, by decide⟩

/-! ### Steps, transactions, reset -/

theorem witness_StepRunsTheDecodedCommand :
    (∃ s : State, s.busy = true ∧ s.busyLeft = 0 ∧ s.host ≠ [] ∧ decode s.cmd = .ok .deinit) ∧
      (∃ s : State, s.busy = true ∧ s.busyLeft ≠ 0 ∧ s.host = [] ∧ decode s.cmd = .ok .deinit) ∧
      ∃ s : State, s.busy = false ∧ s.host = [] :=
  ⟨⟨{ State.reset with busy := true, cmd := 0x21#32, host := [.reset] }, rfl, rfl, by decide, by decide⟩,
    ⟨{ State.reset with busy := true, cmd := 0x21#32, busyLeft := 3 }, rfl, by decide, rfl, by decide⟩,
    ⟨State.reset, rfl, rfl⟩⟩

theorem witness_CmdRegisterFollowsItsRule :
    (∃ s : State, s.busy = false ∧ s.host = .memWrite 0#32 (.word 0x00835701#32) :: [.reset]) ∧
      (∃ s : State, s.busy = false ∧ s.host = .memRead 0#32 .four :: []) ∧ ∃ s t : State, step s = .next t ∧ t.cmd ≠ s.cmd :=
  ⟨⟨{ State.reset with host := [.memWrite 0#32 (.word 0x00835701#32), .reset] }, rfl, rfl⟩,
    ⟨{ State.reset with host := [.memRead 0#32 .four] }, rfl, rfl⟩,
    ⟨{ State.reset with host := [.reset], cmd := 1#32 }, _, rfl, by decide⟩⟩

/-- One state for each clause: a write, a refused read (also one of `STATUS` with the wrong width), a `STATUS` read. -/
theorem witness_BusyRefusesAllButStatusReads :
    ∀ e ∈ [HostEvent.memWrite 0#32 (.word 1), .memRead 0#32 .four, .memRead 4#32 .one, .memRead 4#32 .four],
      ∃ s : State, s.busy = true ∧ s.busyLeft = 0 + 1 ∧ s.host = e :: [] :=
  fun e _ => ⟨{ State.reset with busy := true, busyLeft := 1, host := [e] }, rfl, rfl, rfl⟩

theorem witness_EveryCommandEnds : ∃ s : State, s.busy = true ∧ s.busyLeft = 2 ∧ s.host.length = 5 :=
  ⟨{ State.reset with busy := true, busyLeft := 2, host := List.replicate 5 .reset }, rfl, rfl, rfl⟩

theorem witness_ResetLeavesTheResetValues :
    (∃ s : State, s.host = .reset :: [] ∧ s.busy = false) ∧ ∃ s : State, s.host = .reset :: [] ∧ s.busy = true ∧ 0 < s.busyLeft :=
  ⟨⟨{ hi true 7 hiFragments with busy := false, host := [.reset] }, rfl, rfl⟩,
    ⟨{ State.reset with busy := true, busyLeft := 1, host := [.reset] }, rfl, rfl, by decide⟩⟩

/-- Each offset: `0x00` to `0x30` and `0x40` to `0x5C`. -/
theorem witness_RegistersReadAsTheirFields :
    (∀ off ∈ [0x00, 0x04, 0x08, 0x0C, 0x10, 0x14, 0x18, 0x1C, 0x20, 0x24, 0x28, 0x2C, 0x30, 0x40, 0x44, 0x48, 0x4C, 0x50, 0x54,
        0x58, 0x5C], ∃ (s : State) (w : Word), s.busy = false ∧ (off, w) ∈ registerWords s ∧
          s.host = .memRead (BitVec.ofNat 32 off) .four :: []) ∧
      State.reset.Inv ∧ (hi true 0b110 hiFragments).Inv := by
  refine ⟨fun off h => ⟨{ State.reset with host := [.memRead (BitVec.ofNat 32 off) .four] }, 0#32, rfl, ?_, rfl⟩,
    plain_inv rfl rfl rfl rfl ⟨rfl, rfl, rfl⟩ rfl rfl, hi_inv (by decide +kernel)⟩
  revert off
  decide +kernel

/-- The first and the last presence word. -/
theorem witness_PresentWriteStoresAndClearsDv :
    ∀ w ∈ [0, 7], ∃ s : State, s.Inv ∧ s.busy = false ∧ w < 8 ∧
      s.host = .memWrite (BitVec.ofNat 32 (0x40 + 4 * w)) (.word 0xFFFFFFFF#32) :: [] :=
  fun w hw => ⟨{ State.reset with host := [.memWrite (BitVec.ofNat 32 (0x40 + 4 * w)) (.word 0xFFFFFFFF#32)] },
    plain_inv rfl rfl rfl rfl ⟨rfl, rfl, rfl⟩ rfl rfl, rfl, by revert w; decide, rfl⟩

theorem witness_OperandRegisterWrites :
    ∀ addr ∈ [0x18#32, 0x1C#32, 0x20#32, 0x24#32, 0x28#32],
      ∃ s : State, s.busy = false ∧ s.host = .memWrite addr (.word 0xFFFFFFFF#32) :: [] :=
  fun addr _ => ⟨{ State.reset with host := [.memWrite addr (.word 0xFFFFFFFF#32)] }, rfl, rfl⟩

/-- The registers, the first and the last address of `G`, the lists, and above them. -/
theorem witness_ProtectedPlacesRefuseWrites :
    ∀ addr ∈ [0x04#32, 0x30#32, 0x10000000#32, 0x1000FFFF#32, 0x20000000#32, 0x2FFFFFFF#32],
      ∃ s : State, s.busy = false ∧ s.host = .memWrite addr (.byte 1#8) :: [] ∧
        (addr.toNat ∈ [0x04, 0x0C, 0x10, 0x14, 0x2C, 0x30] ∨ InG addr.toNat ∨ addr.toNat / 2 ^ 28 = 2) := by
  intro addr h
  refine ⟨{ State.reset with host := [.memWrite addr (.byte 1#8)] }, rfl, rfl, ?_⟩
  revert addr
  simp [InG]

/-- The last byte of `T`, of `FRAG` and of `PAY`. -/
theorem witness_HostByteReadsBackAsWritten :
    ∀ a ∈ [0x1004FEFE, 0x3FE0FFFF, 0x40FDFFFF], ∃ s : State, s.params.Valid ∧ s.busy = false ∧
      ((∃ id i j, 1 ≤ id ∧ id ≤ 4 ∧ i < s.params.mmax ∧ j < s.params.mmax ∧
          a = 0x10000000 + id * 0x10000 + i * 0x100 + j) ∨
        (∃ i o, i < s.params.mmax ∧ o < s.params.lmax ∧ a = 0x30000000 + i * 0x100000 + o) ∨
        (∃ o, o < s.params.psize ∧ a = 0x40000000 + o)) ∧
      s.host = .memWrite (BitVec.ofNat 32 a) (.byte 0xEE#8) :: .memRead (BitVec.ofNat 32 a) .one :: [] := by
  intro a h
  refine ⟨{ State.reset with host := [.memWrite (BitVec.ofNat 32 a) (.byte 0xEE#8), .memRead (BitVec.ofNat 32 a) .one] },
    reference_valid, rfl, ?_, rfl⟩
  simp only [List.mem_cons, List.not_mem_nil, or_false] at h
  rcases h with rfl | rfl | rfl
  · exact .inl ⟨4, 254, 254, by decide, by decide, by decide, by decide, by decide⟩
  · exact .inr (.inl ⟨254, 65535, by decide, by decide, by decide⟩)
  · exact .inr (.inr ⟨16646143, by decide, by decide⟩)

/-- A byte of each space, specified and not. -/
theorem witness_HostReadOfAByte :
    ∀ a ∈ [matAddr 0 2 1, listAddr 1 254, fragAddr 0 1, payAddr 1], ∃ s : State,
      s.params.Valid ∧ s.busy = false ∧ byteExists s.params a ∧ s.host = .memRead (BitVec.ofNat 32 a) .one :: [] ∧
        (a ≠ listAddr 1 254 → ∃ v, s.valueAt a = some v) := by
  intro a h
  refine ⟨{ hi true 7 hiFragments with busy := false, host := [.memRead (BitVec.ofNat 32 a) .one] },
    reference_valid, rfl, ?_, rfl, ?_⟩
  · simp only [List.mem_cons, List.not_mem_nil, or_false] at h
    rcases h with rfl | rfl | rfl | rfl
    · exact .inl ⟨0, 2, 1, by decide, by decide, by decide, rfl⟩
    · exact .inr (.inl ⟨1, 254, by decide, by decide, rfl⟩)
    · exact .inr (.inr (.inl ⟨0, 1, by decide, by decide, rfl⟩))
    · exact .inr (.inr (.inr ⟨1, by decide, rfl⟩))
  · intro hne
    simp only [List.mem_cons, List.not_mem_nil, or_false] at h
    have at' := hi_at true 7 hiFragments
    rcases h with rfl | rfl | rfl | rfl
    · exact ⟨_, at'.1 2 1 (by decide) (by decide)⟩
    · exact absurd rfl hne
    · exact ⟨_, at'.2.2.2.2.1 0 1 (by decide) (by decide)⟩
    · exact ⟨_, at'.2.2.2.2.2 1 (by decide)⟩

/-- A reserved register offset, a misaligned one, the wrong width, and space 5. -/
theorem witness_ReservedAddressesAnswerError :
    (∀ addr ∈ [0x34#32, 0x60#32, 0x41#32, 0x40000000#32], ¬LegalAddress State.reset.params addr .four) ∧
      ¬LegalAddress State.reset.params 0x50000000#32 .one ∧ State.reset.params.Valid := by
  refine ⟨by simp [LegalAddress], ?_, by decide +kernel⟩
  have e : State.reset.params.psize = 16646144 := by decide
  have h1 : State.reset.params.mmax = 255 := rfl
  have h2 : State.reset.params.lmax = 65536 := rfl
  rintro (⟨id, i, j, h⟩ | ⟨id, q, h⟩ | ⟨i, o, h⟩ | ⟨o, h⟩) <;>
    simp only [h1, h2, e, matAddr, listAddr, fragAddr, payAddr, BitVec.toNat_ofNat] at h <;> omega

/-! ### Errors and status -/

/-- A command's end on concrete states, as `exec` answers it. -/
theorem answers {i : Instr} {s : State} {P : State → Prop} (h : P (commandEnd i s).next) : ∃ t, exec i s = .next t ∧ P t :=
  ⟨_, exec_eq_next i s, h⟩

theorem witness_CommandEndsReportAsTheRuleSays :
    (∃ t, exec (.gfmul 0x57 0x83) State.reset = .next t ∧ t.err = .ok) ∧
      ∃ t, exec (.gfinv 0) State.reset = .next t ∧ t.err = .failed .fieldInverseOfZero :=
  ⟨answers (by decide +kernel), answers (by decide +kernel)⟩

theorem witness_StickyBitsFollowTheirRule :
    (∃ t, exec (.gfinv 0) { State.reset with esticky := 0x200#32 } = .next t ∧ (0x200#32).getLsbD 9 = true) ∧
      (∃ s : State, s.busy = true ∧ s.busyLeft = 0 + 1 ∧ s.host = .memWrite 8#32 (.word 0x80#32) :: []) ∧
      (∃ s : State, s.busy = false ∧ s.host = .memWrite 8#32 (.word 0x80#32) :: [] ∧ s.esticky = 0x280#32) ∧
      ∃ t, step { State.reset with host := [.memWrite 8#32 (.word 0x80#32)], esticky := 0x7FE#32 } = .next t ∧
        0x7FE#32 &&& 0xFFFFF801#32 = 0#32 :=
  ⟨answers (by decide), ⟨{ State.reset with busy := true, busyLeft := 1, host := [.memWrite 8#32 (.word 0x80#32)] }, rfl, rfl, rfl⟩,
    ⟨{ State.reset with host := [.memWrite 8#32 (.word 0x80#32)], esticky := 0x280#32 }, rfl, rfl, rfl⟩,
    ⟨_, rfl, by decide⟩⟩

/-- Every error, with a command and a state of the invariant that raise it. -/
theorem witness_ErrorsComeFromTheirCommandsOnly :
    ∀ c ∈ [(Instr.init 4 4 .vandermonde, CommandError.invalidConfiguration), (.gfdiv 0 0, .fieldInverseOfZero),
        (.gendec, .notConfigured), (.matmul 0 0 0, .illegalCommand)],
      State.reset.Inv ∧ ∃ t, exec c.1 State.reset = .next t ∧ t.err = .failed c.2 := by
  intro c h
  refine ⟨plain_inv rfl rfl rfl rfl ⟨rfl, rfl, rfl⟩ rfl rfl, answers ?_⟩
  revert c
  decide +kernel

theorem witness_ErrorsOfAConfiguredBlock :
    ∀ c ∈ [(Instr.gendec, CommandError.tooManyErrors, 0b001#256), (.parity, .missingOperand, 0b001), (.decode, .tooManyErrors, 0b010),
        (.unframe, .framingCorruption, 0b011)],
      (hi true c.2.2 (rows [[0x31, 0x32], [0x33, 0x34]])).Inv ∧
        ∃ t, exec c.1 (hi true c.2.2 (rows [[0x31, 0x32], [0x33, 0x34]])) = .next t ∧ t.err = .failed c.2.1 := by
  intro c h
  refine ⟨hi_inv ?_, answers ?_⟩
  · revert c
    decide +kernel
  · revert c
    decide +kernel

theorem witness_CheckErrorsChangeNothingElse :
    State.reset.Inv ∧ (∃ t, exec .parity State.reset = .next t ∧ t.err = .failed .notConfigured) ∧
      (hi true 0b001 hiFragments).Inv ∧
      ∃ t, exec .parity (hi true 0b001 hiFragments) = .next t ∧ t.err = .failed .missingOperand :=
  ⟨plain_inv rfl rfl rfl rfl ⟨rfl, rfl, rfl⟩ rfl rfl, answers (by decide +kernel), hi_inv (by decide +kernel),
    answers (by decide +kernel)⟩

theorem witness_DvFollowsItsRule :
    (hi true 0b110 hiFragments).Inv ∧ ∀ i, ∃ t, exec i (hi true 0b110 hiFragments) = .next t :=
  ⟨hi_inv (by decide +kernel), fun i => ⟨_, exec_eq_next i _⟩⟩

theorem witness_CommandsWriteOnlyWhatTheTableAllows :
    (hi true 0b110 hiFragments).params.Valid ∧ ∀ i, ∃ t, exec i (hi true 0b110 hiFragments) = .next t :=
  ⟨reference_valid, fun i => ⟨_, exec_eq_next i _⟩⟩

theorem witness_OnlyInitDeinitAndResetChangeG :
    ∃ t, step { hi true 7 hiFragments with cmd := 0x21#32 } = .next t ∧ t.cfgv ≠ true := by
  refine ⟨((commandEnd .deinit { hi true 7 hiFragments with cmd := 0x21#32 }).next), ?_, by decide⟩
  have h : decode 0x21#32 = .ok .deinit := by decide
  exact (by simp only [step, runCommand, hi, demo, h, State.reset, exec_eq_next])

/-! ### The field unit -/

theorem witness_GfdivWritesTheQuotient :
    irreducibleOfDegree8 State.reset.params.poly = true ∧ (0x83#8 : Byte) ≠ 0#8 := by decide +kernel

theorem witness_GfinvWritesTheInverse :
    irreducibleOfDegree8 State.reset.params.poly = true ∧ (0x02#8 : Byte) ≠ 0#8 ∧ inverse 0x11D#9 0x02#8 = some 0x8E#8 := by
  decide +kernel

/-- The reference polynomial and AES's; one that is not irreducible. -/
theorem witness_FieldLaws :
    (0x11D#9).getLsbD 8 = true ∧ (0x100#9).getLsbD 8 = true ∧ mul 0x11B#9 2#8 0x80#8 = 0x1B#8 ∧
    irreducibleOfDegree8 0x11D#9 = true ∧ irreducibleOfDegree8 0x11B#9 = true ∧ irreducibleOfDegree8 0x100#9 = false ∧
      mul 0x11D#9 0#8 5#8 = 0#8 := by
  decide +kernel

theorem witness_InverseIsTheFieldInverse :
    irreducibleOfDegree8 0x11D#9 = true ∧ (0x53#8 : Byte) ≠ 0#8 ∧ mul 0x11D#9 0x53#8 0x8C#8 = 1#8 := by decide +kernel

theorem witness_PowersFollowTheirRule : irreducibleOfDegree8 0x11D#9 = true ∧ (0xFF#8 : Byte) ≠ 0#8 := by decide +kernel

/-! ### The matrix unit -/

/-- Each clause: ids 5 and 0 and an aliased destination; dimensions 0; `G` without a configuration. -/
theorem witness_MatrixOperandRefusals :
    (4 < 5 ∨ 4 < 1 ∨ 4 < 2 ∨ 5 = 0 ∨ 5 = 1 ∨ 5 = 2) ∧
      (¬(4 < 1 ∨ 4 < 2 ∨ 4 < 3 ∨ 1 = 0 ∨ 1 = 2 ∨ 1 = 3) ∧
        ∃ n ∈ [State.reset.dim1, State.reset.dim2, State.reset.dim3], n.toNat = 0 ∨ State.reset.params.mmax < n.toNat) ∧
      ∃ s : State, ¬(∃ n ∈ [s.dim1, s.dim2, s.dim3], n.toNat = 0 ∨ s.params.mmax < n.toNat) ∧
        ¬(4 < 4 ∨ 4 < 0 ∨ 4 < 2 ∨ 4 = 0 ∨ 4 = 0 ∨ 4 = 2) ∧ s.cfgv = false :=
  ⟨by decide, ⟨by decide, by decide⟩, { State.reset with dim1 := 1#8, dim2 := 255#8, dim3 := 3#8 }, by decide, by decide, rfl⟩

/-- The matrices `B`, `BINV` of a small state. -/
theorem withMatrices_at (dim1 dim2 dim3 : Byte) (r c : Nat) (B : Nat → Nat → Byte) (r' c' : Nat) (Binv : Nat → Nat → Byte)
    (hr : r < 256) (hc : c ≤ 2 ^ 8) (hc' : c' ≤ 2 ^ 8) :
    Corner (withMatrices dim1 dim2 dim3 r c B r' c' Binv) 1 r c B ∧
      Corner (withMatrices dim1 dim2 dim3 r c B r' c' Binv) 2 r' c' Binv := by
  refine ⟨fun i j hi hj => ?_, fun i j hi hj => ?_⟩
  · refine (Memory.byteAt_fillMatrix_off _ idBinv _ _ _ _ hc' ?_).trans (Memory.byteAt_fillMatrix_at [] idB r c i j _ hc hi hj)
    intro i' j' _ _
    simp only [matAddr, idBinv]
    omega
  · exact Memory.byteAt_fillMatrix_at _ idBinv r' c' i j _ hc' hi hj

theorem witness_MatmulWritesTheProduct :
    ∃ (s : State) (x y : Nat → Byte), (∀ n ∈ [s.dim1, s.dim2, s.dim3], 1 ≤ n.toNat ∧ n.toNat ≤ s.params.mmax) ∧
      (1 = 0 ∨ 2 = 0 → s.cfgv = true) ∧ 0 < s.dim1.toNat ∧ 0 < s.dim3.toNat ∧
      (∀ u, u < s.dim2.toNat → s.valueAt (matAddr 1 0 u) = some (x u) ∧ s.valueAt (matAddr 2 u 0) = some (y u)) := by
  have h := withMatrices_at 1 3 1 1 3 (rows [[1, 2, 3]]) 3 1 (rows [[4], [5], [6]]) (by decide) (by decide) (by decide)
  exact ⟨_, rows [[1, 2, 3]] 0, fun u => rows [[4], [5], [6]] u 0, by decide, by decide, by decide, by decide,
    fun u hu => ⟨h.1 0 u (by decide) hu, h.2 u 0 hu (by decide)⟩⟩

/-- The unspecified clause: an unspecified element and one that is not 0. -/
theorem witness_MatmulOfAnUnspecifiedElement :
    ∃ s : State, (∀ n ∈ [s.dim1, s.dim2, s.dim3], 1 ≤ n.toNat ∧ n.toNat ≤ s.params.mmax) ∧
      s.valueAt (matAddr 1 0 0) = none ∧ s.valueAt (matAddr 2 0 0) ≠ some 0#8 :=
  ⟨{ State.reset with dim1 := 1#8, dim2 := 1#8, dim3 := 1#8 }, by decide, rfl, by decide⟩

theorem witness_InvertWritesTheInverse :
    ∃ (s : State) (M : Nat → Nat → Byte), s.params.Valid ∧ 1 ≤ s.dim1.toNat ∧ s.dim1.toNat ≤ s.params.mmax ∧
      (1 = 0 → s.cfgv = true) ∧ Corner s 1 s.dim1.toNat s.dim1.toNat M ∧ Invertible s.params.poly s.dim1.toNat M :=
  ⟨withMatrices 2 0 0 2 2 (rows [[1, 1], [1, 2]]) 0 0 (rows []), rows [[1, 1], [1, 2]], reference_valid, by decide, by decide,
    by decide, (withMatrices_at 2 0 0 2 2 _ 0 0 _ (by decide) (by decide) (by decide)).1,
    rows [[0xF5, 0xF4], [0xF4, 0xF4]], productIsIdentity_of (by decide +kernel)⟩

/-- A source with an unspecified element, which one of the destination's does not depend on. -/
theorem witness_InvertOfAnUnspecifiedElement :
    holed.params.Valid ∧ 1 ≤ holed.dim1.toNat ∧ holed.dim1.toNat ≤ holed.params.mmax ∧ holed.valueAt (matAddr 1 0 1) = none ∧
      ∀ Y W, Fills holed 1 holed.dim1.toNat Y → ProductIsIdentity holed.params.poly holed.dim1.toNat W Y → W 1 0 = 0#8 := by
  refine ⟨reference_valid, by decide, by decide, by decide +kernel, fun Y W hY hW => ?_⟩
  have h0 : Y 0 0 = 1#8 := hY 0 0 _ (by decide) (by decide) (by decide +kernel)
  have h1 : Y 1 0 = 0#8 := hY 1 0 _ (by decide) (by decide) (by decide +kernel)
  have h : 0#8 ^^^ mul 0x11D#9 (W 1 0) (Y 0 0) ^^^ mul 0x11D#9 (W 1 1) (Y 1 0) = 0#8 := hW 1 0 (by decide) (by decide)
  simpa [h0, h1, mul_one_reference, mul_zero_reference] using h

theorem witness_InvertReportsTheFirstDependentColumn :
    ∃ (s : State) (M : Nat → Nat → Byte), s.params.Valid ∧ 1 ≤ s.dim1.toNat ∧ s.dim1.toNat ≤ s.params.mmax ∧
      (1 = 0 → s.cfgv = true) ∧ Corner s 1 s.dim1.toNat s.dim1.toNat M ∧ ¬Invertible s.params.poly s.dim1.toNat M := by
  refine ⟨withMatrices 2 0 0 2 2 (rows [[7, 7], [9, 9]]) 0 0 (rows []), rows [[7, 7], [9, 9]], reference_valid, by decide,
    by decide, by decide, (withMatrices_at 2 0 0 2 2 _ 0 0 _ (by decide) (by decide) (by decide)).1, ?_⟩
  rintro ⟨X, h⟩
  have h0 := h 0 0 (by decide) (by decide)
  have h1 := h 0 1 (by decide) (by decide)
  have e : (fun t => mul (withMatrices 2 0 0 2 2 (rows [[7, 7], [9, 9]]) 0 0 (rows [])).params.poly (X 0 t)
      (rows [[7, 7], [9, 9]] t 0)) = fun t => mul (withMatrices 2 0 0 2 2 (rows [[7, 7], [9, 9]]) 0 0 (rows [])).params.poly (X 0 t)
      (rows [[7, 7], [9, 9]] t 1) := by
    funext t
    rcases t with _ | _ | t <;> rfl
  rw [e] at h0
  exact absurd (h0.symm.trans h1) (by decide)

/-! ### The generator -/

/-- The smallest and the largest configurations. -/
theorem witness_InitBuildsTheGenerator :
    State.reset.params.Valid ∧ ConfigurationAccepted State.reset.params 2 1 .vandermonde ∧
      ConfigurationAccepted State.reset.params 255 254 .cauchy := by
  refine ⟨reference_valid, ?_, ?_⟩ <;> unfold ConfigurationAccepted <;> decide

theorem witness_InitRefusesOtherConfigurations :
    ¬ConfigurationAccepted State.reset.params 4 4 .vandermonde ∧ ¬ConfigurationAccepted State.reset.params 255 0 .cauchy ∧
      ¬ConfigurationAccepted { Params.reference with mmax := 254 } 255 1 .vandermonde ∧
      ¬ConfigurationAccepted { Params.reference with hasCauchy := false } 3 2 .cauchy := by
  refine ⟨?_, ?_, ?_, ?_⟩ <;> unfold ConfigurationAccepted <;> decide

theorem witness_DeinitReleasesTheConfiguration : State.reset.Inv ∧ State.reset.cfgv = false :=
  ⟨plain_inv rfl rfl rfl rfl ⟨rfl, rfl, rfl⟩ rfl rfl, rfl⟩

theorem witness_UnconfiguredCommandsEndNotConfigured : State.reset.cfgv = false := rfl

/-! ### Synthesis and reconstruction -/

theorem errorList_is (s : State) : IsErrorList s s.errorList := ⟨errorList_pairwise s, fun _ => mem_errorList⟩

theorem survivors_are (s : State) : IsSurvivorList s s.survivors := ⟨survivors_pairwise s, fun _ => mem_survivors⟩

theorem witness_GendecRefusesTooManyErrors :
    ∃ (s : State) (errl : List Nat), s.Inv ∧ s.cfgv = true ∧ IsErrorList s errl ∧ s.r < errl.length :=
  ⟨hi true 0b001 hiFragments, _, hi_inv (by decide +kernel), rfl, errorList_is _, by decide +kernel⟩

/-- Two equal columns leave no inverse. -/
theorem equalColumns_absurd {poly : BitVec 9} {M X : Nat → Nat → Byte} (h : ProductIsIdentity poly 2 X M)
    (e : ∀ t, t < 2 → M t 0 = M t 1) : False := by
  have h0 := h 0 0 (by decide) (by decide)
  have h1 := h 0 1 (by decide) (by decide)
  have e' : xorSum (fun t => mul poly (X 0 t) (M t 0)) 2 = xorSum (fun t => mul poly (X 0 t) (M t 1)) 2 :=
    xorSum_congr fun t ht => by rw [e t ht]
  exact absurd ((e'.symm.trans h0).symm.trans h1) (by decide)

/-- A block whose `POLY` gives `0x02` the order 17, so that rows `k` and `k + 17` of its Vandermonde generators are equal:
`m` fragments, `k = 2`, only fragments 2 and from 19 on present. -/
def shortOrder (m : Nat) (present : BitVec 256) : State :=
  demo { Params.reference with poly := 0x139#9 } m 2 .vandermonde false [] [] (rows []) 1#21 0#32 present 0 (rows []) 0 (bytes [])

theorem shortOrder_valid : ({ Params.reference with poly := 0x139#9 } : Params).Valid := by decide +kernel

theorem shortOrder_inv {m : Nat} {present : BitVec 256} (hm : 2 < m ∧ m ≤ 255) (h : present &&& ~~~presenceBelow 255 = 0#256) :
    (shortOrder m present).Inv :=
  demo_inv shortOrder_valid ⟨by decide, hm.1, hm.2, fun h => nomatch h⟩ (by decide) (by decide) h (Nat.zero_le _) (by decide)
    fun h => nomatch h

theorem shortOrder_corner {m : Nat} (present : BitVec 256) (hm : m ≤ 255) :
    Corner (shortOrder m present) 0 m 2 (generatorAt 0x139#9 2 .vandermonde) := by
  intro i j hi' hj
  have h := (demoMemory_at { Params.reference with poly := 0x139#9 } m 2 .vandermonde [] [] (rows []) 0 (rows []) 0 (bytes [])
    (by decide) hm (by decide) (by decide) (by decide)).1 i j (by omega) (by omega)
  rwa [if_pos ⟨hi', hj⟩] at h

/-- The first candidate is not invertible, the second is. -/
theorem witness_GendecSynthesizesTheDecodeMatrix :
    ∃ (s : State) (G : Nat → Nat → Byte) (errl surv : List Nat), s.Inv ∧ s.cfgv = true ∧ Corner s 0 s.m s.k G ∧
      IsErrorList s errl ∧ IsSurvivorList s surv ∧ errl.length ≤ s.r ∧ 1 ≤ s.r - errl.length ∧
      Invertible s.params.poly s.k (selected G (decodeIndex s.k surv 1)) ∧
      ∀ t, t < 1 → ¬Invertible s.params.poly s.k (selected G (decodeIndex s.k surv t)) := by
  refine ⟨shortOrder 21 0x180004#256, generatorAt 0x139#9 2 .vandermonde, _, [2, 19, 20],
    shortOrder_inv (by decide) (by decide +kernel), rfl, shortOrder_corner _ (by decide), errorList_is _, ?_, by decide +kernel,
    by decide +kernel, ?_, ?_⟩
  · have e : (shortOrder 21 0x180004#256).survivors = [2, 19, 20] := by decide +kernel
    exact e ▸ survivors_are _
  · exact ⟨rows [[0xE9, 0xE8], [0xE8, 0xE8]], productIsIdentity_of (by decide +kernel)⟩
  · rintro t ht ⟨X, h⟩
    obtain rfl : t = 0 := by omega
    exact equalColumns_absurd h (by decide +kernel)

theorem witness_GendecReportsNoInvertibleSubmatrix :
    ∃ (s : State) (G : Nat → Nat → Byte) (errl surv : List Nat), s.Inv ∧ s.cfgv = true ∧ Corner s 0 s.m s.k G ∧
      IsErrorList s errl ∧ IsSurvivorList s surv ∧ errl.length ≤ s.r ∧
      ∀ t, t ≤ s.r - errl.length → ¬Invertible s.params.poly s.k (selected G (decodeIndex s.k surv t)) := by
  refine ⟨shortOrder 20 0x080004#256, generatorAt 0x139#9 2 .vandermonde, _, [2, 19],
    shortOrder_inv (by decide) (by decide +kernel), rfl, shortOrder_corner _ (by decide), errorList_is _, ?_, by decide +kernel, ?_⟩
  · have e : (shortOrder 20 0x080004#256).survivors = [2, 19] := by decide +kernel
    exact e ▸ survivors_are _
  · rintro t ht ⟨X, h⟩
    have hr : (shortOrder 20 0x080004#256).r - (shortOrder 20 0x080004#256).errorList.length = 0 := by decide +kernel
    obtain rfl : t = 0 := by omega
    exact equalColumns_absurd h (by decide +kernel)

/-- A Cauchy configuration that has lost a source fragment. -/
def cauchyBlock : State :=
  demo .reference 3 2 .cauchy false [] [] (rows []) 2#21 0#32 0b110#256 0 (rows []) 0 (bytes [])

theorem witness_CauchySynthesisAlwaysSucceeds :
    ∃ s : State, s.Inv ∧ s.cfgv = true ∧ s.cfgStrat = .cauchy ∧ s.errorCount ≤ s.r ∧ ∃ t, exec .gendec s = .next t :=
  ⟨cauchyBlock, demo_inv reference_valid (by decide) (by decide) (by decide) (by decide +kernel) (by decide) (by decide)
    (fun h => nomatch h), rfl, rfl, by decide +kernel, _, exec_eq_next _ _⟩

theorem witness_DescriptorLengthAndPresenceRefusals :
    (∃ s : State, s.cfgv = true ∧ s.dv = false) ∧
      (∃ s : State, s.cfgv = true ∧ s.dv = true ∧ s.len.toNat = 0) ∧
      (∃ s : State, s.cfgv = true ∧ s.dv = true ∧ s.params.lmax < s.len.toNat) ∧
      ∃ s : State, s.cfgv = true ∧ 1 ≤ s.len.toNat ∧ s.len.toNat ≤ s.params.lmax ∧ 1 < s.k ∧ s.isPresent 1 = false ∧
        ∀ j, j < 1 → s.isPresent j = true :=
  ⟨⟨hi false 7 hiFragments, rfl, rfl⟩, ⟨{ hi true 7 hiFragments with len := 0#21 }, rfl, rfl, rfl⟩,
    ⟨{ hi true 7 hiFragments with len := 65537#21 }, rfl, rfl, by decide⟩,
    ⟨hi false 0b101 hiFragments, rfl, by decide, by decide, by decide, by decide, by decide⟩⟩

theorem witness_ReconRebuildsTheAbsentFragments :
    ∃ (s : State) (errl didx : List Nat) (x y : Nat → Byte), s.Inv ∧ s.cfgv = true ∧ s.dv = true ∧ 1 ≤ s.len.toNat ∧
      s.len.toNat ≤ s.params.lmax ∧ errl.length = s.nerrs.toNat ∧ didx.length = s.k ∧
      (∀ p, p < errl.length → errl.getD p 0 < s.m ∧ s.valueAt (listAddr 0 p) = some (BitVec.ofNat 8 (errl.getD p 0))) ∧
      (∀ j, j < s.k → didx.getD j 0 < s.m ∧ s.valueAt (listAddr 1 j) = some (BitVec.ofNat 8 (didx.getD j 0))) ∧
      0 < errl.length ∧ 0 < s.len.toNat ∧
      ∀ j, j < s.k → s.valueAt (matAddr 3 0 j) = some (x j) ∧ s.valueAt (fragAddr (didx.getD j 0) 0) = some (y j) := by
  have h := hi_at true 0b110 hiFragments
  refine ⟨hi true 0b110 hiFragments, [0], [1, 2], rows [[1, 1]] 0, fun j => hiFragments ([1, 2].getD j 0) 0,
    hi_inv (by decide +kernel), rfl, rfl, by decide, by decide, rfl, rfl, fun p hp => ⟨?_, h.2.1 p hp⟩,
    fun j hj => ⟨?_, h.2.2.1 j hj⟩, by decide, by decide, fun j hj => ⟨h.2.2.2.1 0 j (by decide) hj, h.2.2.2.2.1 _ 0 ?_ (by decide)⟩⟩
  · revert p; decide
  · revert j; decide
  · revert j; decide

/-! ### Framing -/

theorem digitCount_one {n : Nat} (h : n < 10) : IsDigitCount n 1 := ⟨by omega, by simpa using h, fun _ h _ => h⟩

theorem frameLength_of_hi : IsFrameLength 2 1 2 2 := ⟨by omega, fun _ h => by omega⟩

theorem witness_FrameBuildsTheFrame :
    ∃ (s : State) (n d l : Nat), s.Inv ∧ s.cfgv = true ∧ n = s.plen.toNat ∧ IsDigitCount n d ∧ IsFrameLength n d s.k l ∧
      l ≤ s.params.lmax :=
  ⟨hi false 0 hiFragments, 2, 1, 2, hi_inv (by decide +kernel), rfl, rfl, digitCount_one (by decide), frameLength_of_hi, by decide⟩

/-- The largest payload length, `k = 2`: ten digits. -/
def longPayload : State :=
  demo .reference 3 2 .vandermonde false [] [] (rows []) 2#21 0xFFFFFFFF#32 0b110#256 0 (rows []) 0 (bytes [])

theorem witness_FrameThatDoesNotFitIsRefused :
    ∃ (s : State) (d l : Nat), s.Inv ∧ s.cfgv = true ∧ IsDigitCount s.plen.toNat d ∧ IsFrameLength s.plen.toNat d s.k l ∧
      s.params.lmax < l := by
  have hn : longPayload.plen.toNat = 4294967295 := by simp [longPayload, demo]
  have hk : longPayload.k = 2 := rfl
  have hl : longPayload.params.lmax = 65536 := rfl
  have h9 : (10 : Nat) ^ 9 = 1000000000 := by norm_num
  have h10 : (10 : Nat) ^ 10 = 10000000000 := by norm_num
  refine ⟨longPayload, 10, 2147483653, demo_inv reference_valid (by decide) (by decide) (by decide) (by decide +kernel) (by decide)
    (by decide) (fun h => nomatch h), rfl, ⟨by omega, by omega, fun e _ he => ?_⟩, ⟨by omega, fun l' h => by rw [hk] at h; omega⟩,
    by omega⟩
  by_contra hlt
  have := Nat.pow_le_pow_right (n := 10) (by decide) (show e ≤ 9 by omega)
  omega

theorem hi_present {dv : Bool} {present : BitVec 256} {frag : Nat → Nat → Byte} {n : Nat}
    (h : ∀ i, i < n → present.getLsbD i = true) : ∀ i, i < n → (hi dv present frag).isPresent i = true := h

theorem hi_len {dv : Bool} {present : BitVec 256} {frag : Nat → Nat → Byte} :
    1 ≤ (hi dv present frag).len.toNat ∧ (hi dv present frag).len.toNat ≤ (hi dv present frag).params.lmax :=
  have h : 1 ≤ (2#21).toNat ∧ (2#21).toNat ≤ 65536 := by decide
  h

theorem witness_ParityComputesTheParityFragments :
    ∃ (s : State) (G : Nat → Nat → Byte) (y : Nat → Byte), s.Inv ∧ s.cfgv = true ∧ 1 ≤ s.len.toNat ∧
      s.len.toNat ≤ s.params.lmax ∧ (∀ i, i < s.k → s.isPresent i = true) ∧ Corner s 0 s.m s.k G ∧
      s.k < s.m ∧ ∀ j, j < s.k → s.valueAt (fragAddr j 0) = some (y j) :=
  ⟨hi true 0b011 hiFragments, _, fun j => hiFragments j 0, hi_inv (by decide +kernel), rfl, by decide, by decide,
    hi_present (n := 2) (by decide), hi_corner _ _ _, by decide,
    fun j hj => (hi_at true 0b011 hiFragments).2.2.2.2.1 j 0 (by have : j < 2 := hj; omega) (by decide)⟩

/-- The first four bytes of fragments 0 and 1. -/
def buffer (frag : Nat → Nat → Byte) (x : Nat) : Byte := frag (x / 2) (x % 2)

theorem witness_UnframeRecoversThePayload :
    ∃ (s : State) (X : Nat → Byte) (d n : Nat), s.Inv ∧ s.cfgv = true ∧ 1 ≤ s.len.toNat ∧ s.len.toNat ≤ s.params.lmax ∧
      (∀ i, i < s.k → s.isPresent i = true) ∧
      (∀ x, x < s.k * s.len.toNat → s.valueAt (frameByteAddr s.len.toNat x) = some (X x)) ∧
      1 ≤ d ∧ d < s.k * s.len.toNat ∧ DigitRun X (s.k * s.len.toNat) d ∧ X (s.k * s.len.toNat - 1 - d) = s.params.pad ∧
      n = trailerNumber X (s.k * s.len.toNat) d ∧ n ≤ s.k * s.len.toNat :=
  ⟨hi false 0b011 hiFragments, buffer hiFragments, 1, 2, hi_inv (by decide +kernel), rfl, by decide, by decide,
    hi_present (n := 2) (by decide), hi_buffer _ _ _, by decide, by decide, by unfold DigitRun; decide, by decide, by decide,
    by decide⟩

/-- Each case: no digit; digits only; a digit run that another byte ends; a number beyond the buffer. -/
theorem witness_UnframeReportsCorruption :
    ∀ f ∈ [[[0x67, 0x02], [0x02, 0x41]], [[0x31, 0x32], [0x33, 0x34]], [[0x41, 0x42], [0x41, 0x35]], [[0x41, 0x02], [0x39, 0x39#8]]],
      (∃ s : State, s.Inv ∧ s.cfgv = true ∧ 1 ≤ s.len.toNat ∧ s.len.toNat ≤ s.params.lmax ∧
        (∀ i, i < s.k → s.isPresent i = true) ∧ s.k * s.len.toNat = 4 ∧ s.params.pad = 0x02#8 ∧
        (∀ x, x < s.k * s.len.toNat → s.valueAt (frameByteAddr s.len.toNat x) = some (buffer (rows f) x))) ∧
      (isDigit (buffer (rows f) 3) = false ∨ (∀ t, t < 4 → isDigit (buffer (rows f) (3 - t)) = true) ∨
        (isDigit (buffer (rows f) 3) = true ∧ isDigit (buffer (rows f) 2) = false ∧ buffer (rows f) 2 ≠ 0x02#8) ∨
        (isDigit (buffer (rows f) 3) = true ∧ isDigit (buffer (rows f) 2) = true ∧ buffer (rows f) 1 = 0x02#8 ∧
          4 < trailerNumber (buffer (rows f)) 4 2)) := by
  intro f h
  refine ⟨⟨hi false 0b011 (rows f), hi_inv (by decide +kernel), rfl, hi_len.1, hi_len.2, hi_present (n := 2) (by decide), rfl,
    rfl, hi_buffer _ _ _⟩, ?_⟩
  revert f
  decide

/-- The frame of "Hi" with another payload length and payload. -/
def framed : State :=
  demo .reference 3 2 .vandermonde true [0] [1, 2] (rows [[1, 1]]) 2#21 9#32 0b011#256 2 hiFragments 2 (bytes [0xEE, 0xEE])

theorem framed_inv : framed.Inv :=
  demo_inv reference_valid (by decide) (by decide) (by decide) (by decide +kernel) (by decide) (by decide) fun _ => by decide

/-- FRAME of "Hi", then UNFRAME with another `PLEN` and `PAY`. -/
theorem witness_UnframeOfFrameIsThePayload :
    ∃ s t u : State, s.Inv ∧ exec .frame s = .next t ∧ t.err = .ok ∧ u.Inv ∧ u.params = t.params ∧ u.cfgv = t.cfgv ∧
      u.cfgM = t.cfgM ∧ u.cfgK = t.cfgK ∧ u.cfgStrat = t.cfgStrat ∧ u.len = t.len ∧
      (∀ i, i < t.k → u.isPresent i = t.isPresent i) ∧
      (∀ i o, i < t.k → o < t.len.toNat → u.valueAt (fragAddr i o) = t.valueAt (fragAddr i o)) ∧
      u.plen ≠ s.plen ∧ u.valueAt (payAddr 0) ≠ s.valueAt (payAddr 0) := by
  obtain ⟨t, h, he, hp, hc, hm, hk, hs, hl, hq, hf⟩ : ∃ t, exec .frame (hi false 0 (rows [])) = .next t ∧ t.err = .ok ∧
      t.params = .reference ∧ t.cfgv = true ∧ t.cfgM = 3#8 ∧ t.cfgK = 2#8 ∧ t.cfgStrat = .vandermonde ∧ t.len = 2#21 ∧
      (∀ i, i < 2 → t.isPresent i = true) ∧
      ∀ i, i < 2 → ∀ o, o < 2 → framed.valueAt (fragAddr i o) = t.valueAt (fragAddr i o) :=
    answers (by decide +kernel)
  have hk' : t.k = 2 := by rw [State.k, hk]; rfl
  have hl' : t.len.toNat = 2 := by rw [hl]; rfl
  refine ⟨hi false 0 (rows []), t, framed, hi_inv (by decide +kernel), h, he, framed_inv, hp.symm, hc.symm, hm.symm, hk.symm, hs.symm,
    hl.symm, fun i hi' => ?_, fun i o hi' ho => hf i (by omega) o (by omega), by decide, by decide +kernel⟩
  have key : ∀ i, i < 2 → framed.isPresent i = true := by decide
  rw [hq i (by omega), key i (by omega)]

/-! ### The façade -/

theorem witness_EncodeIsFrameThenParity :
    (∃ t, exec .frame State.reset = .next t ∧ t.err ≠ .ok) ∧ (hi false 0 hiFragments).Inv ∧
      ∃ t, exec .frame (hi false 0 hiFragments) = .next t ∧ t.err = .ok :=
  ⟨answers (by decide +kernel), hi_inv (by decide +kernel), answers (by decide +kernel)⟩

theorem witness_EncodeCompletesForEveryPayloadThatFits :
    ∃ (s : State) (d l : Nat), s.Inv ∧ s.cfgv = true ∧ IsDigitCount s.plen.toNat d ∧ IsFrameLength s.plen.toNat d s.k l ∧
      l ≤ s.params.lmax :=
  ⟨hi false 0 hiFragments, 1, 2, hi_inv (by decide +kernel), rfl, digitCount_one (by decide), frameLength_of_hi, by decide⟩

theorem hi_specified {dv : Bool} {present : BitVec 256} {frag : Nat → Nat → Byte} (i o : Nat) (hi' : i < 3) (ho : o < 2) :
    ∃ b, (hi dv present frag).valueAt (fragAddr i o) = some b :=
  ⟨_, (hi_at dv present frag).2.2.2.2.1 i o hi' ho⟩

/-- One hole and two. -/
theorem witness_DecodeIsGendecReconUnframe :
    (∃ s t : State, s.Inv ∧ s.cfgv = true ∧ 1 ≤ s.len.toNat ∧ s.len.toNat ≤ s.params.lmax ∧
      (∀ i o, i < s.m → s.isPresent i = true → o < s.len.toNat → ∃ b, s.valueAt (fragAddr i o) = some b) ∧
      exec .gendec s = .next t ∧ t.err = .ok) ∧
    ∃ s t : State, s.Inv ∧ s.cfgv = true ∧ 1 ≤ s.len.toNat ∧ s.len.toNat ≤ s.params.lmax ∧
      (∀ i o, i < s.m → s.isPresent i = true → o < s.len.toNat → ∃ b, s.valueAt (fragAddr i o) = some b) ∧
      exec .gendec s = .next t ∧ t.err ≠ .ok := by
  obtain ⟨t, h, he⟩ : ∃ t, exec .gendec (hi false 0b110 hiFragments) = .next t ∧ t.err = .ok := answers (by decide +kernel)
  obtain ⟨u, h', he'⟩ : ∃ u, exec .gendec (hi false 0b010 hiFragments) = .next u ∧ u.err ≠ .ok := answers (by decide +kernel)
  exact ⟨⟨_, t, hi_inv (by decide +kernel), rfl, hi_len.1, hi_len.2, fun i o hi' _ ho => hi_specified i o hi' ho, h, he⟩,
    ⟨_, u, hi_inv (by decide +kernel), rfl, hi_len.1, hi_len.2, fun i o hi' _ ho => hi_specified i o hi' ho, h', he'⟩⟩

theorem witness_DecodeWithoutHolesUnframes :
    ∃ (s : State) (X : Nat → Byte) (d n : Nat), s.Inv ∧ s.cfgv = true ∧ 1 ≤ s.len.toNat ∧ s.len.toNat ≤ s.params.lmax ∧
      (∀ i, i < s.m → s.isPresent i = true) ∧
      (∀ x, x < s.k * s.len.toNat → s.valueAt (frameByteAddr s.len.toNat x) = some (X x)) ∧
      1 ≤ d ∧ d < s.k * s.len.toNat ∧ DigitRun X (s.k * s.len.toNat) d ∧ X (s.k * s.len.toNat - 1 - d) = s.params.pad ∧
      n = trailerNumber X (s.k * s.len.toNat) d ∧ n ≤ s.k * s.len.toNat :=
  ⟨hi false 0b111 hiFragments, buffer hiFragments, 1, 2, hi_inv (by decide +kernel), rfl, by decide, by decide,
    hi_present (n := 3) (by decide), hi_buffer _ _ _, by decide, by decide, by unfold DigitRun; decide, by decide, by decide,
    by decide⟩

/-- ENCODE of "Hi", then fragment 0 lost. -/
theorem witness_DecodeOfEncodeIsThePayload :
    ∃ s t u : State, s.Inv ∧ s.cfgv = true ∧ (∀ x, x < s.plen.toNat → ∃ b, s.valueAt (payAddr x) = some b) ∧
      exec .encode s = .next t ∧ t.err = .ok ∧ u.Inv ∧ u.params = t.params ∧ u.cfgv = true ∧ u.cfgM = t.cfgM ∧
      u.cfgK = t.cfgK ∧ u.cfgStrat = t.cfgStrat ∧ u.len = t.len ∧ u.errorCount ≤ u.r ∧
      ∀ i o, i < t.m → o < t.len.toNat → u.isPresent i = true → u.valueAt (fragAddr i o) = t.valueAt (fragAddr i o) := by
  obtain ⟨t, h, he, hp, hm, hk, hs, hl, hf⟩ : ∃ t, exec .encode (hi false 0 (rows [])) = .next t ∧ t.err = .ok ∧
      (hi true 0b110 hiFragments).params = t.params ∧ t.cfgM = 3#8 ∧ t.cfgK = 2#8 ∧ t.cfgStrat = .vandermonde ∧ t.len = 2#21 ∧
      ∀ i, i < 3 → ∀ o, o < 2 → (hi true 0b110 hiFragments).valueAt (fragAddr i o) = t.valueAt (fragAddr i o) :=
    answers (by decide +kernel)
  have hm' : t.m = 3 := by rw [State.m, hm]; rfl
  have hl' : t.len.toNat = 2 := by rw [hl]; rfl
  refine ⟨hi false 0 (rows []), t, hi true 0b110 hiFragments, hi_inv (by decide +kernel), rfl,
    fun x hx => ⟨_, (hi_at false 0 (rows [])).2.2.2.2.2 x hx⟩, h, he, hi_inv (by decide +kernel), hp, rfl, hm.symm, hk.symm,
    hs.symm, hl.symm, by decide +kernel, fun i o hi' ho _ => hf i (by omega) o (by omega)⟩

/-! ### Invariants -/

theorem witness_StepKeepsMemoryCanonical :
    ∃ s t : State, s.mem.wf ∧ s.mem ≠ [] ∧ step s = .next t := by
  refine ⟨{ hi true 7 hiFragments with cmd := 0x21#32 }, (commandEnd .deinit { hi true 7 hiFragments with cmd := 0x21#32 }).next,
    (hi_inv (dv := true) (present := 7) (frag := hiFragments) (by decide +kernel)).2.1, by decide +kernel, ?_⟩
  have h : decode 0x21#32 = .ok .deinit := by decide
  exact (by simp only [step, runCommand, hi, demo, h, State.reset, exec_eq_next])

theorem witness_StepKeepsTheInvariant : ∃ s t : State, s.Inv ∧ s.cfgv = true ∧ s.dv = true ∧ step s = .next t := by
  have hb : decode (hi true 0b110 hiFragments).cmd = .ok .nop := by decide
  refine ⟨hi true 0b110 hiFragments, (commandEnd .nop (hi true 0b110 hiFragments)).next, hi_inv (by decide +kernel), rfl, rfl, ?_⟩
  rw [← exec_eq_next]
  simp only [step, runCommand, hi, demo, State.reset] at hb ⊢
  rw [hb]

end Sys2Proof.Tests
end

section
/-! # The invariant under every step (O59)

A write of memory is harmless when every byte it touches exists and is not one the invariant speaks of. `Memory.Keeps` says so of
a whole memory and is carried through the named writes; the commands are then taken one by one. -/

namespace Sys2Proof.Machine

open Sys2Proof.Claims

/-! ## Harmless writes -/

/-- A byte a command may write while the bytes of `K` have to stay. -/
def Writable (p : Params) (K : Nat → Prop) (a : Nat) : Prop := byteExists p a ∧ ¬K a

/-- `m` is canonical memory of bytes that exist, and agrees with `m₀` on the bytes of `K`. -/
structure Memory.Keeps (p : Params) (K : Nat → Prop) (m₀ m : Memory) : Prop where
  wf : m.wf
  inRange : ∀ c ∈ m, byteExists p c.1
  same : ∀ a, K a → m.byteAt a = m₀.byteAt a

namespace Memory.Keeps

variable {p : Params} {K : Nat → Prop} {m₀ m : Memory}

theorem fill (h : Keeps p K m₀ m) {base n : Nat} (hw : ∀ o, o < n → Writable p K (base + o)) (f : Nat → Option Byte) :
    Keeps p K m₀ (m.fill base n f) := by
  have hwr : ∀ a, base ≤ a ∧ a < base + n → Writable p K a := fun a ha => by
    have := hw (a - base) (by omega)
    rwa [Nat.add_sub_cancel' ha.1] at this
  refine ⟨Memory.fill_wf h.wf _ _ _, fun c hc => ?_, fun a ha => ?_⟩
  · rcases Memory.mem_fill hc with hc | hc
    · exact h.inRange c hc
    · exact (hwr c.1 hc).1
  · rw [Memory.byteAt_fill, if_neg fun hin => (hwr a hin).2 ha, h.same a ha]

theorem fillBlock (h : Keeps p K m₀ m) {base stride cols : Nat} (f : Nat → Nat → Option Byte) {rows : Nat}
    (hw : ∀ i o, i < rows → o < cols → Writable p K (base + i * stride + o)) :
    Keeps p K m₀ (m.fillBlock base stride cols f rows) := by
  induction rows with
  | zero => exact h
  | succ r ih => exact (ih fun i o hi => hw i o (by omega)).fill (fun o => hw r o (by omega)) _

theorem fillMatrix (h : Keeps p K m₀ m) {id rows cols : Nat} (f : Nat → Nat → Option Byte)
    (hw : ∀ i j, i < rows → j < cols → Writable p K (matAddr id i j)) : Keeps p K m₀ (m.fillMatrix id rows cols f) :=
  h.fillBlock f fun i j hi hj => by simpa [matAddr] using hw i j hi hj

theorem fillList (h : Keeps p K m₀ m) {id n : Nat} (f : Nat → Option Byte)
    (hw : ∀ q, q < n → Writable p K (listAddr id q)) : Keeps p K m₀ (m.fillList id n f) :=
  h.fill (fun q hq => by simpa [listAddr] using hw q hq) f

theorem fillFragment (h : Keeps p K m₀ m) {i n : Nat} (f : Nat → Option Byte)
    (hw : ∀ o, o < n → Writable p K (fragAddr i o)) : Keeps p K m₀ (m.fillFragment i n f) :=
  h.fill (fun o ho => by simpa [fragAddr] using hw o ho) f

theorem fillFragments (h : Keeps p K m₀ m) {first count n : Nat} (f : Nat → Nat → Option Byte)
    (hw : ∀ i o, i < count → o < n → Writable p K (fragAddr (first + i) o)) :
    Keeps p K m₀ (m.fillFragments first count n f) :=
  h.fillBlock f fun i o hi ho => by
    have e : fragAddr first 0 + i * 2 ^ 20 + o = fragAddr (first + i) o := by simp only [fragAddr]; omega
    rw [e]
    exact hw i o hi ho

theorem fillPayload (h : Keeps p K m₀ m) {n : Nat} (f : Nat → Option Byte)
    (hw : ∀ o, o < n → Writable p K (payAddr o)) : Keeps p K m₀ (m.fillPayload n f) :=
  h.fill (fun o ho => by simpa [payAddr] using hw o ho) f

theorem store (h : Keeps p K m₀ m) {a : Nat} (hw : Writable p K a) (b : Byte) : Keeps p K m₀ (m.store a b) :=
  h.fill (fun o ho => by simpa [Nat.lt_one_iff.1 ho] using hw) _

/-- `G` may be forgotten where none of its bytes has to stay. -/
theorem forgetG (h : Keeps p K m₀ m) (hK : ∀ a, K a → ¬InG a) : Keeps p K m₀ m.forgetG := by
  refine ⟨h.wf.filter _, fun c hc => h.inRange c (Memory.mem_forgetG hc), fun a ha => ?_⟩
  rw [Memory.byteAt_forgetG, if_neg, h.same a ha]
  simpa [InG, matAddr, idG] using hK a ha

end Memory.Keeps

/-! ## The bytes of the invariant -/

/-- R34, R41: the bytes the invariant speaks of: `G`, and while `DV` is 1 the lists. -/
def ConfigByte (dv : Bool) (a : Nat) : Prop := InG a ∨ (dv = true ∧ InLists a)

section
variable {p : Params} {dv : Bool}

theorem writable_mat (hp : p.Valid) {id i j : Nat} (hid : 1 ≤ id ∧ id ≤ 4) (hi : i < p.mmax) (hj : j < p.mmax) :
    Writable p (ConfigByte dv) (matAddr id i j) := by
  obtain ⟨-, -, -, hmax, -, -⟩ := hp
  refine ⟨.inl ⟨id, i, j, hid.2, hi, hj, rfl⟩, ?_⟩
  simp only [ConfigByte, InG, InLists, matAddr]
  omega

theorem writable_list (hp : p.Valid) {id q : Nat} (hid : id ≤ 1) (hq : q < p.mmax) :
    Writable p (ConfigByte false) (listAddr id q) := by
  refine ⟨.inr (.inl ⟨id, q, hid, hq, rfl⟩), ?_⟩
  simp only [ConfigByte, InG, listAddr, Bool.false_eq_true, false_and, or_false]
  omega

theorem writable_frag {i o : Nat} (hi : i < p.mmax) (ho : o < p.lmax) : Writable p (ConfigByte dv) (fragAddr i o) := by
  refine ⟨.inr (.inr (.inl ⟨i, o, hi, ho, rfl⟩)), ?_⟩
  simp only [ConfigByte, InG, InLists, fragAddr]
  omega

theorem writable_pay {o : Nat} (ho : o < p.psize) : Writable p (ConfigByte dv) (payAddr o) := by
  refine ⟨.inr (.inr (.inr ⟨o, ho, rfl⟩)), ?_⟩
  simp only [ConfigByte, InG, InLists, payAddr]
  omega

end

theorem inG_matAddr {i j : Nat} (hi : i < 256) (hj : j < 256) : InG (matAddr 0 i j) := by
  simp only [InG, matAddr]
  omega

theorem inLists_listAddr {id q : Nat} (hid : id ≤ 1) (hq : q < 256) : InLists (listAddr id q) := by
  simp only [InLists, listAddr]
  omega

/-! ## What the invariant gives, and the updates that keep it -/

namespace State.Inv

variable {s : State}

theorem valid (h : s.Inv) : s.params.Valid := h.1

theorem mmax_le (h : s.Inv) : s.params.mmax ≤ 255 := by
  obtain ⟨-, -, -, hmax, -, -⟩ := h.valid
  exact hmax

theorem configured (h : s.Inv) (hc : ¬s.cfgv = false) : 1 ≤ s.k ∧ s.k < s.m ∧ s.m ≤ s.params.mmax := by
  obtain ⟨-, -, -, -, ⟨hcfg, -⟩, -, -⟩ := h
  obtain ⟨hk, hkm, hm, -⟩ := hcfg (by simpa using hc)
  exact ⟨hk, hkm, hm⟩

theorem descriptorHeld (h : s.Inv) : s.DescriptorHeld := by
  obtain ⟨-, -, -, -, -, -, hd⟩ := h
  exact hd

theorem esticky_reserved (h : s.Inv) : s.esticky &&& 0xFFFFF801#32 = 0#32 := by
  obtain ⟨-, -, -, ⟨he, -⟩, -, -, -⟩ := h
  exact he

theorem present_reserved (h : s.Inv) : ∀ i, s.params.mmax ≤ i → s.isPresent i = false := by
  obtain ⟨-, -, -, ⟨-, hp⟩, -, -, -⟩ := h
  exact hp

theorem keeps (h : s.Inv) (K : Nat → Prop) : s.mem.Keeps s.params K s.mem := by
  obtain ⟨-, hw, hr, -, -, -, -⟩ := h
  exact ⟨hw, hr, fun _ _ => rfl⟩

/-- Another memory that keeps the bytes of the invariant. -/
theorem withMem (h : s.Inv) {m : Memory} (hm : s.mem.Keeps s.params (ConfigByte s.dv) m) : (s.withMem m).Inv :=
  inv_of_same_configuration h rfl hm.wf hm.inRange h.esticky_reserved h.present_reserved ⟨rfl, rfl, rfl, rfl⟩
    (fun _ _ hi hj => hm.same _ (.inl (inG_matAddr hi hj)))
    fun hd => ⟨hd, rfl, rfl, fun _ _ hid hq => hm.same _ (.inr ⟨hd, inLists_listAddr hid hq⟩)⟩

/-- Another presence vector, with the bits from `MMAX` on 0. -/
theorem withPresent (h : s.Inv) {v : BitVec 256} (hv : ∀ i, s.params.mmax ≤ i → v.getLsbD i = false) :
    ({ s with present := v } : State).Inv :=
  inv_of_same_configuration h rfl (h.keeps (ConfigByte s.dv)).wf (h.keeps (ConfigByte s.dv)).inRange h.esticky_reserved hv
    ⟨rfl, rfl, rfl, rfl⟩ (fun _ _ _ _ => rfl) fun hd => ⟨hd, rfl, rfl, fun _ _ _ _ => rfl⟩

/-- Other sticky bits, the reserved ones 0. -/
theorem withEsticky (h : s.Inv) {e : Word} (he : e &&& 0xFFFFF801#32 = 0#32) : ({ s with esticky := e } : State).Inv :=
  inv_of_same_configuration h rfl (h.keeps (ConfigByte s.dv)).wf (h.keeps (ConfigByte s.dv)).inRange he h.present_reserved
    ⟨rfl, rfl, rfl, rfl⟩ (fun _ _ _ _ => rfl) fun hd => ⟨hd, rfl, rfl, fun _ _ _ _ => rfl⟩

/-- With `DV` cleared the counts of the descriptor are free. -/
theorem clearDv (h : s.Inv) (n ns : Byte) : ({ s with dv := false, nerrs := n, nsrcerrs := ns } : State).Inv :=
  inv_of_same_configuration h rfl (h.keeps (ConfigByte s.dv)).wf (h.keeps (ConfigByte s.dv)).inRange h.esticky_reserved
    h.present_reserved ⟨rfl, rfl, rfl, rfl⟩ (fun _ _ _ _ => rfl) fun hd => by cases hd

/-- `DV` may be set over a configuration and a descriptor. -/
theorem setDv (h : s.Inv) (hc : ¬s.cfgv = false) (hd : ({ s with dv := true } : State).DescriptorHeld) :
    ({ s with dv := true } : State).Inv := by
  obtain ⟨hp, hw, hr, hz, ⟨hcfg, -⟩, hG, -⟩ := h
  exact ⟨hp, hw, hr, hz, ⟨hcfg, fun h0 => absurd h0 hc⟩, hG, hd⟩

end State.Inv

end Sys2Proof.Machine
end

section
/-! # The invariant under the field, matrix, configuration and framing commands (O59) -/

namespace Sys2Proof.Machine

open Sys2Proof.Claims

/-! ## The ends of commands -/

/-- The state a command's own operation leaves, before its end is reported (R224). -/
def CommandEnd.state : CommandEnd → State
  | .ok s => s
  | .error _ _ s => s

@[simp] theorem CommandEnd.state_ok (s : State) : (CommandEnd.ok s).state = s := rfl

@[simp] theorem CommandEnd.state_error (e : CommandError) (info : Nat) (s : State) :
    (CommandEnd.error e info s).state = s := rfl

/-- R25: no error's sticky bit is a reserved one. -/
theorem stickyBit_reserved (e : CommandError) : e.stickyBit &&& 0xFFFFF801#32 = 0#32 := by cases e <;> decide

/-- R224: reporting an end keeps the invariant. -/
theorem CommandEnd.next_inv {c : CommandEnd} (h : c.state.Inv) : c.next.Inv := by
  cases c with
  | ok s => exact h
  | error e info s =>
    have he : (s.esticky ||| e.stickyBit) &&& 0xFFFFF801#32 = 0#32 := by
      have hs : s.esticky &&& 0xFFFFF801#32 = 0#32 := State.Inv.esticky_reserved h
      rw [BitVec.and_or_distrib_right, hs, stickyBit_reserved, BitVec.or_zero]
    exact State.Inv.withEsticky h he

/-- A second stage sees the state of a first one that ended `OK`. -/
theorem CommandEnd.andThen_inv {c : CommandEnd} {f : State → CommandEnd} (h : c.state.Inv)
    (hf : ∀ t : State, t.Inv → (f t).state.Inv) : (c.andThen f).state.Inv := by
  cases c with
  | ok s => exact hf s h
  | error e info s => exact h

/-! ## The field and matrix commands -/

section
variable {s : State}

theorem scalarResult_inv (h : s.Inv) (v : Option Byte) : (scalarResult s v).state.Inv := by cases v <;> exact h

theorem dimLegal_le {p : Params} {n : Byte} (h : dimLegal p n = true) : n.toNat ≤ p.mmax := by
  simp only [dimLegal, Bool.and_eq_true, decide_eq_true_eq] at h
  exact h.2

/-- A corner of `B`, `BINV`, `D` or `T` may be written. -/
theorem State.Inv.fillMatrix (h : s.Inv) {id rows cols : Nat} (hid : 1 ≤ id ∧ id ≤ 4) (hr : rows ≤ s.params.mmax)
    (hc : cols ≤ s.params.mmax) (f : Nat → Nat → Option Byte) : (s.withMem (s.mem.fillMatrix id rows cols f)).Inv :=
  h.withMem ((h.keeps _).fillMatrix f fun _ _ hi hj => writable_mat h.valid hid (by omega) (by omega))

theorem matmulEnd_inv (h : s.Inv) (dst s1 s2 : Nat) : (matmulEnd dst s1 s2 s).state.Inv := by
  unfold matmulEnd
  split_ifs with hid hdim hcfg
  · exact h
  · exact h
  · obtain ⟨h1, -, h3⟩ := hdim
    exact h.fillMatrix (by simp only [idG] at hid; omega) (dimLegal_le h1) (dimLegal_le h3) _
  · exact h

theorem invertEnd_inv (h : s.Inv) (dst s1 : Nat) : (invertEnd dst s1 s).state.Inv := by
  unfold invertEnd
  dsimp only
  split_ifs with hid hdim hcfg
  · exact h
  · exact h
  · have hn := dimLegal_le hdim
    have hdst : 1 ≤ dst ∧ dst ≤ 4 := by simp only [idG] at hid; omega
    split
    · exact h.fillMatrix hdst hn hn _
    · exact h.fillMatrix hdst hn hn _
  · exact h

end

/-! ## The configuration commands -/

section
variable {s : State}

theorem unconfigure_inv (h : s.Inv) : s.unconfigure.Inv := by
  have hm : s.mem.Keeps s.params (fun _ => False) s.mem.forgetG := (h.keeps _).forgetG fun _ hf => hf.elim
  refine ⟨h.valid, hm.wf, hm.inRange, ⟨h.esticky_reserved, h.present_reserved⟩,
    ⟨fun hc => (nomatch hc), fun _ => ⟨rfl, rfl, rfl, rfl⟩⟩, fun i j hi hj => ?_, fun hd => (nomatch hd)⟩
  rw [State.valueAt, State.unconfigure_mem, Memory.byteAt_forgetG, if_pos (by simp only [matAddr, idG]; omega)]
  rfl

/-- R150: what an accepted configuration is. -/
theorem configurationInvalid_eq_false {p : Params} {m k : Nat} {strat : Strategy} :
    configurationInvalid p m k strat = false ↔ ConfigurationAccepted p m k strat := by
  simp only [configurationInvalid, ConfigurationAccepted, Bool.or_eq_false_iff, Bool.and_eq_false_iff, decide_eq_false_iff_not,
    Bool.not_eq_false', Nat.not_le, Nat.not_lt, Nat.one_le_iff_ne_zero, and_assoc, Decidable.imp_iff_not_or, ne_eq]

/-- R150: the state INIT leaves when it accepts its operands. -/
def State.withConfiguration (s : State) (m k : Nat) (strat : Strategy) : State :=
  { s with
    cfgv := true
    cfgM := BitVec.ofNat 8 m
    cfgK := BitVec.ofNat 8 k
    cfgStrat := strat
    dv := false
    mem := s.mem.forgetG.fillMatrix idG m k fun i j => some (generatorAt s.params.poly k strat i j) }

theorem initEnd_of_accepted {m k : Nat} {strat : Strategy} (h : ConfigurationAccepted s.params m k strat) :
    initEnd m k strat s = .ok (s.withConfiguration m k strat) :=
  if_neg (by rw [configurationInvalid_eq_false.2 h]; decide)

theorem initEnd_of_refused {m k : Nat} {strat : Strategy} (h : ¬ConfigurationAccepted s.params m k strat) :
    initEnd m k strat s =
      .error .invalidConfiguration (m + k * 2 ^ 8 + strategyNumber strat * 2 ^ 16) s.unconfigure :=
  if_pos (by simpa using mt configurationInvalid_eq_false.1 h)

theorem withConfiguration_m {m k : Nat} {strat : Strategy} (hm : m < 256) : (s.withConfiguration m k strat).m = m :=
  Nat.mod_eq_of_lt hm

theorem withConfiguration_k {m k : Nat} {strat : Strategy} (hk : k < 256) : (s.withConfiguration m k strat).k = k :=
  Nat.mod_eq_of_lt hk

/-- R41, R150: `G` after INIT, element by element. -/
theorem withConfiguration_valueAt_G {m k i j : Nat} {strat : Strategy} (hk : k ≤ 256) (hi : i < 256) (hj : j < 256) :
    (s.withConfiguration m k strat).valueAt (matAddr idG i j) =
      if i < m ∧ j < k then some (generatorAt s.params.poly k strat i j) else none := by
  show (s.mem.forgetG.fillMatrix idG m k _).byteAt (matAddr idG i j) = _
  by_cases hin : i < m ∧ j < k
  · rw [if_pos hin, Memory.byteAt_fillMatrix_at _ _ _ _ _ _ _ hk hin.1 hin.2]
  · rw [if_neg hin, Memory.byteAt_fillMatrix_off _ _ _ _ _ _ hk, Memory.byteAt_forgetG, if_pos]
    · simp only [matAddr, idG]
      omega
    · intro i' j' hi' hj' he
      simp only [matAddr] at he
      exact hin (by omega)

theorem withConfiguration_inv (h : s.Inv) {m k : Nat} {strat : Strategy} (hacc : ConfigurationAccepted s.params m k strat) :
    (s.withConfiguration m k strat).Inv := by
  have hmax := h.mmax_le
  obtain ⟨hk, hkm, hm, hcauchy⟩ := hacc
  have hmem : s.mem.Keeps s.params (fun _ => False) (s.withConfiguration m k strat).mem :=
    ((h.keeps _).forgetG fun _ hf => hf.elim).fillMatrix _
      fun i j hi hj => ⟨.inl ⟨idG, i, j, by decide, by omega, by omega, rfl⟩, not_false⟩
  refine ⟨h.valid, hmem.wf, hmem.inRange, ⟨h.esticky_reserved, h.present_reserved⟩,
    ⟨fun _ => ?_, fun hc => (nomatch hc)⟩, fun i j hi hj => ?_, fun hd => (nomatch hd)⟩
  · rw [withConfiguration_m (by omega), withConfiguration_k (by omega)]
    exact ⟨hk, hkm, hm, hcauchy⟩
  · rw [withConfiguration_valueAt_G (by omega) hi hj, withConfiguration_m (by omega), withConfiguration_k (by omega)]
    simp [State.withConfiguration]

theorem initEnd_inv (h : s.Inv) (m k : Nat) (strat : Strategy) : (initEnd m k strat s).state.Inv := by
  by_cases hacc : ConfigurationAccepted s.params m k strat
  · rw [initEnd_of_accepted hacc]
    exact withConfiguration_inv h hacc
  · rw [initEnd_of_refused hacc]
    exact unconfigure_inv h

end

/-! ## The framing commands -/

section
variable {s : State}

theorem lengthLegal_le (h : ¬s.lengthLegal = false) : s.l ≤ s.params.lmax := by
  simp only [State.lengthLegal, Bool.not_eq_false, Bool.and_eq_true, decide_eq_true_eq] at h
  exact h.2

/-- The first bytes of fragments below `MMAX` may be written. -/
theorem State.Inv.fillFragments (h : s.Inv) {first count n : Nat} (hc : first + count ≤ s.params.mmax)
    (hn : n ≤ s.params.lmax) (f : Nat → Nat → Option Byte) : (s.withMem (s.mem.fillFragments first count n f)).Inv :=
  h.withMem ((h.keeps _).fillFragments f fun _ _ hi ho => writable_frag (by omega) (by omega))

theorem frameEnd_inv (h : s.Inv) : (frameEnd s).state.Inv := by
  unfold frameEnd
  dsimp only
  split_ifs with hc hl
  · exact h
  · exact h
  · obtain ⟨hk, hkm, hm⟩ := h.configured hc
    have hpres : ∀ i, s.params.mmax ≤ i →
        (clearPresentRange (setPresentRange s.present 0 s.k) s.k s.m).getLsbD i = false := fun i hi => by
      have h0 : s.present.getLsbD i = false := h.present_reserved i hi
      rw [clearPresentRange_getLsbD, setPresentRange_getLsbD, h0, decide_eq_false (by omega)]
      rfl
    have hmem := h.fillFragments (first := 0) (count := s.k) (by omega) (Nat.not_lt.1 hl)
      fun i o => frameByte s.params.pad (fun j => s.valueAt (payAddr j)) s.plen.toNat (s.k * frameLength s.plen.toNat s.k)
        (i * frameLength s.plen.toNat s.k + o)
    exact (hmem.withPresent hpres).clearDv s.nerrs s.nsrcerrs

theorem parityEnd_inv (h : s.Inv) : (parityEnd s).state.Inv := by
  unfold parityEnd
  split_ifs with hc hl
  · exact h
  · exact h
  · split
    · exact h
    · obtain ⟨hk, hkm, hm⟩ := h.configured hc
      have hpres : ∀ i, s.params.mmax ≤ i → (setPresentRange s.present s.k s.m).getLsbD i = false := fun i hi => by
        have h0 : s.present.getLsbD i = false := h.present_reserved i hi
        rw [setPresentRange_getLsbD, h0, decide_eq_false (by omega)]
        rfl
      have hmem := h.fillFragments (first := s.k) (count := s.r) (by unfold State.r; omega) (lengthLegal_le hl)
        fun i o => s.parityAt (s.k + i) o
      exact (hmem.withPresent hpres).clearDv s.nerrs s.nsrcerrs

/-- R184: a payload length the trailer gives lies within the buffer. -/
theorem unframeLength_le {pad : Byte} {X : Nat → Byte} {total n : Nat} (h : unframeLength pad X total = .ok n) :
    n ≤ total := by
  unfold unframeLength at h
  dsimp only at h
  split_ifs at h with _ _ hn
  cases h
  omega

theorem unframeEnd_inv (h : s.Inv) : (unframeEnd s).state.Inv := by
  unfold unframeEnd
  split_ifs with hc hl
  · exact h
  · exact h
  · split
    · exact h
    · split
      · exact h
      · rename_i n hn
        obtain ⟨hk, hkm, hm⟩ := h.configured hc
        have hps : s.k * s.l ≤ s.params.psize :=
          Nat.mul_le_mul (by unfold Params.kmax; omega) (lengthLegal_le hl)
        have hle := unframeLength_le hn
        exact h.withMem ((h.keeps _).fillPayload (fun o => s.valueAt (frameAddr s.l o)) fun o ho => writable_pay (by omega))

end

end Sys2Proof.Machine
end

section
/-! # The invariant under the decode commands, the host's transactions and a step (O59) -/

namespace Sys2Proof.Machine

open Sys2Proof.Claims

/-! ## The decode commands -/

section
variable {s : State}

/-- GENDEC's list of errors, with `DV` 0 (R170). -/
theorem writeDescriptor_inv (h : s.Inv) (hc : ¬s.cfgv = false) : s.writeDescriptor.Inv := by
  obtain ⟨-, -, hm⟩ := h.configured hc
  have hle := errorCount_le s
  have hdv := h.clearDv (BitVec.ofNat 8 s.errorCount) (BitVec.ofNat 8 s.sourceErrorCount)
  exact hdv.withMem ((hdv.keeps _).fillList _ fun q hq => writable_list h.valid (by decide) (by omega))

/-- R170: the memory after a synthesis that failed. -/
theorem forgetSynthesis_keeps {p : Params} {m₀ m : Memory} {k : Nat} (hp : p.Valid) (hk : k ≤ p.mmax)
    (h : m₀.Keeps p (ConfigByte false) m) : m₀.Keeps p (ConfigByte false) (m.forgetSynthesis k) :=
  ((h.fillList _ fun q hq => writable_list hp (by decide) (by omega)).fillMatrix _
    fun i j hi hj => writable_mat hp (by decide) (by omega) (by omega)).fillMatrix _
    fun i j hi hj => writable_mat hp (by decide) (by omega) (by omega)

/-- R170: the memory after a synthesis that succeeded. -/
theorem writeSynthesis_keeps {p : Params} {m₀ m : Memory} {k nerrs : Nat} (hp : p.Valid) (hk : k ≤ p.mmax)
    (hn : nerrs ≤ p.mmax) (h : m₀.Keeps p (ConfigByte false) m) (didx : List Nat) (B Binv : Matrix)
    (rows : Nat → Nat → Byte) :
    m₀.Keeps p (ConfigByte false) (m.writeSynthesis k nerrs didx B Binv rows) :=
  (((h.fillList _ fun q hq => writable_list hp (by decide) (by omega)).fillMatrix _
    fun i j hi hj => writable_mat hp (by decide) (by omega) (by omega)).fillMatrix _
    fun i j hi hj => writable_mat hp (by decide) (by omega) (by omega)).fillMatrix _
    fun i j hi hj => writable_mat hp (by decide) (by omega) (by omega)

theorem byteAt_fillList_at (m : Memory) {id n q : Nat} (f : Nat → Option Byte) (hq : q < n) :
    (m.fillList id n f).byteAt (listAddr id q) = f q := by
  have e : listAddr id q - listAddr id 0 = q := by simp only [listAddr]; omega
  rw [Memory.byteAt_fillList, if_pos (by simp only [listAddr]; omega), e]

theorem byteAt_fillList_of_lt (m : Memory) {id id' n q : Nat} (f : Nat → Option Byte) (hid : id' < id) (hq : q < 256) :
    (m.fillList id n f).byteAt (listAddr id' q) = m.byteAt (listAddr id' q) := by
  rw [Memory.byteAt_fillList, if_neg]
  simp only [listAddr]
  omega

/-- The lists after a synthesis that succeeded: `DIDX` is the new one, `ERRL` stays. -/
theorem writeSynthesis_lists {m : Memory} {k nerrs : Nat} (hk : k < 256) (hn : nerrs ≤ 256) (didx : List Nat) (B Binv : Matrix)
    (rows : Nat → Nat → Byte) :
    (∀ j, j < k → (m.writeSynthesis k nerrs didx B Binv rows).byteAt (listAddr idDidx j) =
      some (BitVec.ofNat 8 (didx.getD j 0))) ∧
    ∀ p, p < 256 → (m.writeSynthesis k nerrs didx B Binv rows).byteAt (listAddr idErrl p) = m.byteAt (listAddr idErrl p) := by
  have hmat : ∀ a, 0x20000000 ≤ a → (m.writeSynthesis k nerrs didx B Binv rows).byteAt a =
      (m.fillList idDidx k fun j => some (BitVec.ofNat 8 (didx.getD j 0))).byteAt a := fun a ha => by
    unfold Memory.writeSynthesis
    rw [Memory.byteAt_fillMatrix_off _ _ _ _ _ _ (by omega), Memory.byteAt_fillMatrix_off _ _ _ _ _ _ (by omega),
      Memory.byteAt_fillMatrix_off _ _ _ _ _ _ (by omega)]
    all_goals
      intro i j hi hj
      simp only [matAddr, idB, idBinv, idD]
      omega
  constructor
  · intro j hj
    rw [hmat _ (by simp only [listAddr]; omega), byteAt_fillList_at _ _ hj]
  · intro p hp
    rw [hmat _ (by simp only [listAddr]; omega), byteAt_fillList_of_lt _ _ (by decide) hp]

/-- R161: a decode index of one survivor after the first `k - 1` of them lists `k` survivors in increasing order. -/
theorem decodeIndex_spec {t : Nat} (hk : 1 ≤ s.k) (ht : s.k - 1 + t < s.survivors.length) :
    (decodeIndex s.k s.survivors t).length = s.k ∧ (decodeIndex s.k s.survivors t).Pairwise (· < ·) ∧
      ∀ i ∈ decodeIndex s.k s.survivors t, i ∈ s.survivors := by
  have hlast : s.survivors.getD (s.k - 1 + t) 0 = s.survivors[s.k - 1 + t] := by simp [ht]
  unfold decodeIndex
  rw [hlast]
  refine ⟨by simp; omega, List.pairwise_append.2 ⟨(survivors_pairwise s).take, List.pairwise_singleton _ _, ?_⟩, ?_⟩
  · intro a ha b hb
    obtain rfl := List.mem_singleton.1 hb
    obtain ⟨i, hi, rfl⟩ := List.mem_take_iff_getElem.1 ha
    exact List.pairwise_iff_getElem.1 (survivors_pairwise s) _ _ _ _ (by omega)
  · intro a ha
    rcases List.mem_append.1 ha with ha | ha
    · exact List.mem_of_mem_take ha
    · obtain rfl := List.mem_singleton.1 ha
      exact List.getElem_mem ht

/-- R161, R163: a synthesis that succeeds found a decode index among the survivors. -/
theorem synthesis_some {didx : List Nat} {B Binv : Matrix} (h : s.synthesis = some (didx, B, Binv)) :
    ∃ t, s.k - 1 + t < s.survivors.length ∧ didx = decodeIndex s.k s.survivors t := by
  obtain ⟨t, ht, hd, -, -, -⟩ := synthesize_some h
  rw [List.length_drop] at ht
  refine ⟨t, by omega, ?_⟩
  rw [hd, decodeIndex, List.getD_eq_getElem?_getD, List.getD_eq_getElem?_getD, List.getElem?_drop]

/-- GENDEC that ends `OK` leaves a descriptor (R34, R170). -/
theorem gendec_descriptorHeld (hc : 1 ≤ s.k ∧ s.k < s.m) (he : s.errorCount ≤ s.r) {didx : List Nat} {B Binv : Matrix}
    (h : s.synthesis = some (didx, B, Binv)) (rows : Nat → Nat → Byte) :
    ({ s.writeDescriptor with
        dv := true
        mem := s.writeDescriptor.mem.writeSynthesis s.k s.errorCount didx B Binv rows } : State).DescriptorHeld := by
  intro _
  obtain ⟨t, ht, rfl⟩ := synthesis_some h
  obtain ⟨hlen, hrise, hsurv⟩ := decodeIndex_spec hc.1 ht
  have hm := m_lt s
  have hle := errorCount_le s
  have hns : s.sourceErrorCount ≤ s.errorCount := List.length_filter_le _ _
  obtain ⟨hdidx, herrl⟩ := writeSynthesis_lists (m := s.writeDescriptor.mem) (k_lt s) (by omega : s.errorCount ≤ 256)
    (decodeIndex s.k s.survivors t) B Binv rows
  refine ⟨s.errorList, decodeIndex s.k s.survivors t, ?_, he, ?_, hlen, errorList_pairwise s, hrise, fun e he' => ⟨?_, ?_⟩,
    fun i hi => (mem_survivors.1 (hsurv i hi)).1, fun p hp => ?_, fun j hj => hdidx j (by omega)⟩
  · show s.errorCount = (BitVec.ofNat 8 s.errorCount).toNat
    simp
    omega
  · show s.sourceErrorCount = (BitVec.ofNat 8 s.sourceErrorCount).toNat
    simp
    omega
  · exact (mem_errorList.1 he').1
  · intro hi
    have h0 := (mem_errorList.1 he').2
    rw [(mem_survivors.1 (hsurv e hi)).2] at h0
    cases h0
  · have hp' : p < s.errorCount := hp
    exact (herrl p (by omega)).trans (byteAt_fillList_at s.mem _ hp')

theorem gendecEnd_inv (h : s.Inv) : (gendecEnd s).state.Inv := by
  unfold gendecEnd
  split_ifs with hc
  · exact h
  · obtain ⟨hk, hkm, hm⟩ := h.configured hc
    have hw := writeDescriptor_inv h hc
    have hle := errorCount_le s
    unfold gendecBody
    dsimp only
    split_ifs with hr
    · exact hw
    · split
      · exact hw.withMem (forgetSynthesis_keeps (p := s.params) h.valid (by omega) (hw.keeps _))
      · rename_i didx B Binv hs
        have hmem := hw.withMem (writeSynthesis_keeps (k := s.k) (nerrs := s.errorCount) (p := s.params) h.valid (by omega)
          (by omega) (hw.keeps _) didx B Binv fun p i => decodeRowAt s.params.poly s.gAt s.k Binv (s.errorList.getD p 0) i)
        exact hmem.setDv hc (gendec_descriptorHeld ⟨hk, hkm⟩ (by omega) hs _)

/-- R171: with `DV` 1 every listed fragment exists. -/
theorem lostFragment_lt_m (h : s.Inv) (hdv : s.dv = true) {p : Nat} (hp : p < s.nerrs.toNat) : s.lostFragment p < s.m := by
  obtain ⟨errl, _, hn, -, -, -, -, -, herrl, -, hval, -⟩ := h.descriptorHeld hdv
  have hp' : p < errl.length := by omega
  have hlt := (herrl _ (List.getElem_mem hp')).1
  have hm := m_lt s
  rw [State.lostFragment, State.sample_of_valueAt (hval p hp')]
  simp [hp']
  omega

theorem rebuild_inv (h : s.Inv) (hdv : s.dv = true) (hm : s.m ≤ s.params.mmax) (hl : s.l ≤ s.params.lmax) {n : Nat}
    (hn : n ≤ s.nerrs.toNat) : (s.rebuild n).Inv := by
  induction n with
  | zero => exact h
  | succ p ih =>
    have ih := ih (by omega)
    have hlost := lostFragment_lt_m h hdv (show p < s.nerrs.toNat by omega)
    have hpar : (s.rebuild p).params = s.params := by rw [rebuild_eq]
    have hmem := ih.withMem ((ih.keeps _).fillFragment (i := s.lostFragment p) (n := s.l) (s.rebuiltAt p)
      fun o ho => writable_frag (by rw [hpar]; omega) (by rw [hpar]; omega))
    refine hmem.withPresent (v := setPresent (s.rebuild p).present (s.lostFragment p)) fun i hi => ?_
    have hi' : s.params.mmax ≤ i := by rw [← hpar]; exact hi
    have h0 : (s.rebuild p).present.getLsbD i = false := ih.present_reserved i (by rwa [hpar])
    rw [setPresent_getLsbD _ (lostFragment_lt s p), h0]
    simp
    omega

theorem reconEnd_inv (h : s.Inv) : (reconEnd s).state.Inv := by
  unfold reconEnd
  split_ifs with hc hdv hl
  · exact h
  · exact h
  · exact h
  · obtain ⟨-, -, hm⟩ := h.configured hc
    exact rebuild_inv h (by simpa using hdv) hm (lengthLegal_le hl) (Nat.le_refl _)

theorem clearDvOnError_inv {c : CommandEnd} (h : c.state.Inv) : c.clearDvOnError.state.Inv := by
  cases c with
  | ok s => exact h
  | error e info s => exact State.Inv.clearDv h s.nerrs s.nsrcerrs

theorem decodeEnd_inv (h : s.Inv) : (decodeEnd s).state.Inv := by
  unfold decodeEnd
  split_ifs
  · exact h
  · exact h
  · refine CommandEnd.andThen_inv (CommandEnd.andThen_inv (gendecEnd_inv h) ?_) ?_
    · exact fun _ ht => reconEnd_inv ht
    · exact fun _ ht => clearDvOnError_inv (unframeEnd_inv ht)

end

/-! ## Commands, transactions, steps -/

/-- Every command's own operation keeps the invariant. -/
theorem commandEnd_inv {s : State} (h : s.Inv) (i : Instr) : (commandEnd i s).state.Inv := by
  cases i with
  | nop => exact h
  | gfmul a b => exact scalarResult_inv h (some (mul s.params.poly a b))
  | gfdiv a b => exact scalarResult_inv h (gdiv s.params.poly a b)
  | gfinv a => exact scalarResult_inv h (inverse s.params.poly a)
  | matmul dst s1 s2 => exact matmulEnd_inv h dst s1 s2
  | invert dst s1 => exact invertEnd_inv h dst s1
  | init m k strat => exact initEnd_inv h m k strat
  | deinit => exact unconfigure_inv h
  | gendec => exact gendecEnd_inv h
  | recon => exact reconEnd_inv h
  | frame => exact frameEnd_inv h
  | parity => exact parityEnd_inv h
  | unframe => exact unframeEnd_inv h
  | encode => exact CommandEnd.andThen_inv (frameEnd_inv h) fun _ ht => parityEnd_inv ht
  | decode => exact decodeEnd_inv h

theorem exec_inv {i : Instr} {s t : State} (h : s.Inv) (he : exec i s = .next t) : t.Inv := by
  obtain rfl := exec_next_iff.1 he
  exact CommandEnd.next_inv (commandEnd_inv h i)

/-- R33: the bits from `MMAX` on ignore a write. -/
theorem writePresentWord_reserved (mmax : Nat) (p : BitVec 256) (w : Nat) (v : Word) {i : Nat} (hi : mmax ≤ i) :
    (writePresentWord mmax p w v).getLsbD i = false := by
  rw [writePresentWord, BitVec.getLsbD_and, presenceBelow_getLsbD, decide_eq_false (by omega), Bool.and_false]

theorem writeReg_inv {s t : State} (h : s.Inv) {r : RegName} {v : Word} (hw : s.writeReg r v = some t) : t.Inv := by
  cases r with
  | esticky =>
    cases hw
    refine h.withEsticky ?_
    rw [BitVec.and_assoc, BitVec.and_comm (~~~v), ← BitVec.and_assoc, h.esticky_reserved, BitVec.zero_and]
  | present w =>
    cases hw
    have hp := h.withPresent fun i hi => writePresentWord_reserved s.params.mmax s.present w v hi
    exact hp.clearDv s.nerrs s.nsrcerrs
  | cmd => cases hw; exact h
  | len => cases hw; exact h
  | plen => cases hw; exact h
  | dim1 => cases hw; exact h
  | dim2 => cases hw; exact h
  | dim3 => cases hw; exact h
  | status => cases hw
  | einfo => cases hw
  | res => cases hw
  | cfg => cases hw
  | nerrs => cases hw
  | nsrcerrs => cases hw

/-- What a host write that is stored wrote: a register, or a byte that exists and is none of `G` and the lists. -/
theorem hostWrite_cases {s t : State} {addr : Word} {v : Data} (hw : s.hostWrite addr v = some t) :
    (∃ r, s.writeReg r v.toWord = some t) ∨
      (t = s.withMem (s.mem.store addr.toNat v.toByte) ∧ byteExists s.params addr.toNat ∧
        ¬InG addr.toNat ∧ ¬InLists addr.toNat) := by
  unfold State.hostWrite at hw
  split_ifs at hw
  cases v with
  | word w =>
    simp only [Data.width, placeAt_four] at hw
    split_ifs at hw
    cases hr : regAtOffset (addrIndex addr) with
    | none => simp [hr] at hw
    | some r => exact .inl ⟨r, by simpa [hr] using hw⟩
  | byte b =>
    cases hp : placeAt s.params addr .one with
    | none => simp [Data.width, hp] at hw
    | some place =>
      obtain ⟨haddr, hex, hprot⟩ := placeAt_one_some hp
      obtain ⟨hwr, ht⟩ : place.hostWritable = true ∧ s.withMem (s.mem.store addr.toNat b) = t := by
        cases place with
        | reg r => cases haddr
        | mat id i j => simpa [Data.width, hp, haddr, Data.toByte] using hw
        | list id q => simpa [Data.width, hp, haddr, Data.toByte] using hw
        | frag i o => simpa [Data.width, hp, haddr, Data.toByte] using hw
        | pay o => simpa [Data.width, hp, haddr, Data.toByte] using hw
      have hno := mt hprot.2 (by simp [hwr])
      refine .inr ⟨ht.symm, hex, ?_, ?_⟩
      · exact fun hG => hno (.inl hG)
      · intro hL
        simp only [InLists] at hL
        exact hno (.inr (by omega))

theorem hostWrite_inv {s t : State} (h : s.Inv) {addr : Word} {v : Data} (hw : s.hostWrite addr v = some t) : t.Inv := by
  rcases hostWrite_cases hw with ⟨r, hr⟩ | ⟨rfl, hex, hG, hL⟩
  · exact writeReg_inv h hr
  · exact h.withMem ((h.keeps _).store ⟨hex, fun hK => hK.elim hG fun hK => hL hK.2⟩ _)

/-- R50, R251: reset leaves the invariant true for any valid parameters. -/
theorem resetBlock_inv {s : State} (h : s.Inv) : s.resetBlock.Inv := by
  have hp : ∀ i, s.resetBlock.isPresent i = false := fun i => BitVec.getLsbD_zero
  refine ⟨h.valid, List.Pairwise.nil, fun c hc => (nomatch hc), ⟨BitVec.zero_and, fun i _ => hp i⟩,
    ⟨fun hc => (nomatch hc), fun _ => ⟨rfl, rfl, rfl, rfl⟩⟩, fun i j _ _ => rfl, fun hd => (nomatch hd)⟩

theorem serve_inv {s : State} (h : s.Inv) (e : HostEvent) : (s.serve e).Inv := by
  rcases serve_cases s e with ⟨r, hs⟩ | ⟨addr, v, t, -, hw, hs⟩ | ⟨-, hs⟩
  · rw [hs]
    exact h
  · rw [hs]
    exact (hostWrite_inv h hw : t.Inv)
  · rw [hs]
    exact resetBlock_inv h

theorem runCommand_inv {s t : State} (h : s.Inv) (hr : runCommand s = .next t) : t.Inv := by
  rcases runCommand_cases s with ⟨i, -, hi⟩ | ⟨d, -, hd⟩
  · rw [hi] at hr
    cases hr
    exact exec_inv h (exec_eq_next i s)
  · rw [hd] at hr
    cases hr
    exact CommandEnd.next_inv (c := .error .illegalCommand 0 s) h

/-- Settles O59: each of the three kinds of step keeps the invariant: a command's end, a served event, an idle step. -/
theorem stepKeepsTheInvariant : Obligations.StepKeepsTheInvariant := by
  intro s t h ht
  rcases step_cases s with ⟨-, -, hs⟩ | ⟨left, e, rest, -, -, -, hs⟩ | ⟨e, rest, -, -, hs⟩ | ⟨-, -, hs⟩
  · exact runCommand_inv h (hs ▸ ht)
  · rw [hs] at ht
    cases ht
    exact serve_inv (s := { s with host := rest, busyLeft := left }) h e
  · rw [hs] at ht
    cases ht
    exact serve_inv (s := { s with host := rest }) h e
  · rw [hs] at ht
    cases ht
    exact h

end Sys2Proof.Machine
end

section
/-! # The field GF(2^8)

A number stands for the polynomial over GF(2) whose coefficients are its bits (R100). `clmul` multiplies these polynomials, a
reduction keeps the class modulo `POLY`, and R7's check on `POLY` makes the classes a field of 256 elements. `fieldValue` takes a
byte to its class, so that facts about `mul` and `inverse` are facts about that field. -/

namespace Sys2Proof.Machine

open Polynomial

/-! ## Numbers as polynomials over GF(2) -/

/-- R100: the polynomial whose coefficient of `x^i` is bit `i` of the number. -/
noncomputable def bitPoly (n : Nat) : (ZMod 2)[X] := ∑ i ∈ n.bitIndices.toFinset, X ^ i

@[simp] theorem coeff_bitPoly (n i : Nat) : (bitPoly n).coeff i = if n.testBit i then 1 else 0 := by
  simp [bitPoly, coeff_X_pow]

theorem bitPoly_inj {a b : Nat} : bitPoly a = bitPoly b ↔ a = b := by
  refine ⟨fun h => Nat.eq_of_testBit_eq fun i => ?_, congrArg _⟩
  have hi := congrArg (fun p => p.coeff i) h
  simp only [coeff_bitPoly] at hi
  cases ha : a.testBit i <;> cases hb : b.testBit i <;> simp_all

@[simp] theorem bitPoly_zero : bitPoly 0 = 0 := by ext i; simp

theorem bitPoly_ne_zero {n : Nat} : bitPoly n ≠ 0 ↔ n ≠ 0 := by rw [← bitPoly_zero, Ne, bitPoly_inj]

@[simp] theorem bitPoly_one : bitPoly 1 = 1 := by simp [bitPoly]

theorem bitPoly_xor (a b : Nat) : bitPoly (a ^^^ b) = bitPoly a + bitPoly b := by
  ext i
  rw [coeff_add, coeff_bitPoly, coeff_bitPoly, coeff_bitPoly, Nat.testBit_xor]
  cases a.testBit i <;> cases b.testBit i <;> decide

theorem bitPoly_shiftLeft (n s : Nat) : bitPoly (n <<< s) = bitPoly n * X ^ s := by
  ext i
  rw [coeff_mul_X_pow', coeff_bitPoly, Nat.testBit_shiftLeft, coeff_bitPoly]
  by_cases h : s ≤ i <;> simp [h]

theorem bitPoly_eq_sum_range {n w : Nat} (h : n < 2 ^ w) :
    bitPoly n = ∑ i ∈ Finset.range w, if n.testBit i then X ^ i else 0 := by
  rw [bitPoly, ← Finset.sum_filter]
  congr 1
  ext i
  have hlt : n.testBit i = true → i < w := fun hi => by
    by_contra hw
    rw [Nat.testBit_lt_two_pow (h.trans_le (Nat.pow_le_pow_right (by decide) (by omega)))] at hi
    cases hi
  simpa using hlt

theorem degree_bitPoly_lt {n w : Nat} (h : n < 2 ^ w) : (bitPoly n).degree < w := by
  rw [degree_lt_iff_coeff_zero]
  intro i hi
  rw [coeff_bitPoly, Nat.testBit_lt_two_pow (h.trans_le (Nat.pow_le_pow_right (by decide) hi))]
  rfl

theorem natDegree_bitPoly {n : Nat} (h : n ≠ 0) : (bitPoly n).natDegree = n.log2 := by
  refine natDegree_eq_of_le_of_coeff_ne_zero ?_ ?_
  · exact natDegree_le_iff_degree_le.2 (Order.le_of_lt_succ (degree_bitPoly_lt Nat.lt_log2_self))
  · rw [coeff_bitPoly, Nat.testBit_log2 h]
    decide

theorem exists_bitPoly_eq (g : (ZMod 2)[X]) : ∃ n, bitPoly n = g := by
  refine ⟨∑ i ∈ g.support, 2 ^ i, ?_⟩
  rw [bitPoly, Finset.toFinset_bitIndices_sum_two_pow]
  conv_rhs => rw [g.as_sum_support]
  refine Finset.sum_congr rfl fun i hi => ?_
  have hone : ∀ c : ZMod 2, c ≠ 0 → c = 1 := by decide
  rw [hone _ (mem_support_iff.1 hi), X_pow_eq_monomial]


/-! ## The product and the reduction -/

/-- R102: a reduction by the polynomial `d` at bit `i`, as both `reduce` and `polyRemainder` do it. -/
def reduceBit (d q i : Nat) : Nat := if d.log2 ≤ i ∧ q.testBit i = true then q ^^^ (d <<< (i - d.log2)) else q

theorem polyRemainder_eq_foldl (d p : Nat) : polyRemainder d p = (List.range' 1 8).reverse.foldl (reduceBit d) p := rfl

/-- A reduction step keeps the class modulo `d`. -/
theorem mk_reduceBit (d q i : Nat) :
    AdjoinRoot.mk (bitPoly d) (bitPoly (reduceBit d q i)) = AdjoinRoot.mk (bitPoly d) (bitPoly q) := by
  unfold reduceBit
  split
  · rw [bitPoly_xor, bitPoly_shiftLeft, map_add, map_mul, AdjoinRoot.mk_self, zero_mul, add_zero]
  · rfl

/-- A reduction step at bit `i` leaves no bit from `i` on, as far as `d` reaches. -/
theorem reduceBit_lt {d q i : Nat} (hd : d ≠ 0) (h : q < 2 ^ max (i + 1) d.log2) :
    reduceBit d q i < 2 ^ max i d.log2 := by
  unfold reduceBit
  by_cases hi : d.log2 ≤ i
  · rw [max_eq_left (by omega)] at h ⊢
    have hq : ∀ j, i + 1 ≤ j → q.testBit j = false := fun j hj =>
      Nat.testBit_lt_two_pow (h.trans_le (Nat.pow_le_pow_right (by decide) hj))
    have hdb : ∀ j, d.log2 + 1 ≤ j → d.testBit j = false := fun j hj =>
      Nat.testBit_lt_two_pow (Nat.lt_log2_self.trans_le (Nat.pow_le_pow_right (by decide) hj))
    by_cases hb : q.testBit i = true
    · rw [if_pos ⟨hi, hb⟩]
      refine Nat.lt_pow_two_of_testBit _ fun j hj => ?_
      rw [Nat.testBit_xor, Nat.testBit_shiftLeft]
      rcases Nat.eq_or_lt_of_le hj with rfl | hj
      · rw [hb, show i - (i - d.log2) = d.log2 by omega, Nat.testBit_log2 hd]
        simp
      · rw [hq j hj, hdb (j - (i - d.log2)) (by omega)]
        simp
    · rw [if_neg fun hc => hb hc.2]
      refine Nat.lt_pow_two_of_testBit _ fun j hj => ?_
      rcases Nat.eq_or_lt_of_le hj with rfl | hj
      · simpa using hb
      · exact hq j hj
  · rw [if_neg fun hc => hi hc.1]
    rwa [max_eq_right (by omega)] at h ⊢

/-- The reduction from bit `lo + n - 1` down to bit `lo` keeps the class modulo `d` and leaves no bit from `lo` on. -/
theorem foldl_reduceBit {d lo : Nat} (hd : d ≠ 0) : ∀ {n q : Nat}, q < 2 ^ max (lo + n) d.log2 →
    (List.range' lo n).reverse.foldl (reduceBit d) q < 2 ^ max lo d.log2 ∧
      AdjoinRoot.mk (bitPoly d) (bitPoly ((List.range' lo n).reverse.foldl (reduceBit d) q)) =
        AdjoinRoot.mk (bitPoly d) (bitPoly q)
  | 0, _, h => ⟨h, rfl⟩
  | n + 1, q, h => by
    rw [List.range'_1_concat, List.reverse_append, List.reverse_singleton, List.singleton_append, List.foldl_cons]
    obtain ⟨hlt, hmk⟩ := foldl_reduceBit (lo := lo) hd (reduceBit_lt hd h)
    exact ⟨hlt, hmk.trans (mk_reduceBit d q _)⟩

/-- R102: `clmul` multiplies the polynomials. -/
theorem bitPoly_clmul (a b : Byte) : bitPoly (clmul a b).toNat = bitPoly a.toNat * bitPoly b.toNat := by
  have hfold : ∀ n, n ≤ 8 → bitPoly ((List.range n).foldl
      (fun p i => if b.getLsbD i then p ^^^ (a.setWidth 15 <<< i) else p) 0#15).toNat =
        bitPoly a.toNat * ∑ i ∈ Finset.range n, if b.toNat.testBit i then X ^ i else 0 := by
    intro n hn
    induction n with
    | zero => simp
    | succ n ih =>
      have ih := ih (by omega)
      rw [List.range_succ, List.foldl_append, List.foldl_cons, List.foldl_nil, Finset.sum_range_succ, mul_add]
      have hshift : (a.setWidth 15 <<< n).toNat = a.toNat <<< n := by
        have ha := a.isLt
        have hpow : 2 ^ n ≤ 2 ^ 7 := Nat.pow_le_pow_right (by decide) (by omega)
        have hlt : a.toNat * 2 ^ n < 2 ^ 15 := by nlinarith
        rw [BitVec.toNat_shiftLeft, BitVec.toNat_setWidth, Nat.mod_eq_of_lt (a := a.toNat) (by omega), Nat.shiftLeft_eq,
          Nat.mod_eq_of_lt hlt]
      rw [← BitVec.testBit_toNat]
      split
      · rw [BitVec.toNat_xor, bitPoly_xor, ih, hshift, bitPoly_shiftLeft]
      · rw [ih, mul_zero, add_zero]
  rw [clmul, hfold 8 (Nat.le_refl 8), bitPoly_eq_sum_range b.isLt]

section
variable {poly : BitVec 9}

theorem toNat_ne_zero_of_getLsbD_eight (h : poly.getLsbD 8 = true) : poly.toNat ≠ 0 := by
  rintro h0
  rw [← BitVec.testBit_toNat, h0, Nat.zero_testBit] at h
  cases h

/-- The degree of `POLY` is 8. -/
theorem log2_of_getLsbD_eight (h : poly.getLsbD 8 = true) : poly.toNat.log2 = 8 := by
  have hlt := poly.isLt
  have hge : 2 ^ 8 ≤ poly.toNat := Nat.ge_two_pow_of_testBit (BitVec.testBit_toNat _ ▸ h)
  have hne := toNat_ne_zero_of_getLsbD_eight h
  exact le_antisymm (Nat.lt_succ_iff.1 ((Nat.log2_lt hne).2 hlt)) ((Nat.le_log2 hne).2 hge)

/-- A reduction step on 15 bits, as a number. -/
theorem toNat_reduceStep (h : poly.getLsbD 8 = true) (p : BitVec 15) {i : Nat} (hi : 8 ≤ i ∧ i < 15) :
    (if p.getLsbD i then p ^^^ (poly.setWidth 15 <<< (i - 8)) else p).toNat = reduceBit poly.toNat p.toNat i := by
  have hlog := log2_of_getLsbD_eight h
  have hshift : (poly.setWidth 15 <<< (i - 8)).toNat = poly.toNat <<< (i - 8) := by
    have hlt := poly.isLt
    have hpow : 2 ^ (i - 8) ≤ 2 ^ 6 := Nat.pow_le_pow_right (by decide) (by omega)
    have hprod : poly.toNat * 2 ^ (i - 8) < 2 ^ 15 := by nlinarith
    rw [BitVec.toNat_shiftLeft, BitVec.toNat_setWidth, Nat.mod_eq_of_lt (a := poly.toNat) (by omega), Nat.shiftLeft_eq,
      Nat.mod_eq_of_lt hprod]
  unfold reduceBit
  rw [hlog, BitVec.testBit_toNat]
  by_cases hp : p.getLsbD i = true
  · rw [if_pos hp, if_pos ⟨hi.1, hp⟩, BitVec.toNat_xor, hshift]
  · rw [if_neg hp, if_neg fun hc => hp hc.2]

theorem toNat_reduce (h : poly.getLsbD 8 = true) (p : BitVec 15) :
    (reduce poly p).toNat = (List.range' 8 7).reverse.foldl (reduceBit poly.toNat) p.toNat := by
  have hfold : ∀ (l : List Nat) (p : BitVec 15), (∀ i ∈ l, 8 ≤ i ∧ i < 15) →
      (l.foldl (fun p i => if p.getLsbD i then p ^^^ (poly.setWidth 15 <<< (i - 8)) else p) p).toNat =
        l.foldl (reduceBit poly.toNat) p.toNat := by
    intro l
    induction l with
    | nil => exact fun _ _ => rfl
    | cons i l ih =>
      intro p hl
      rw [List.foldl_cons, List.foldl_cons, ih _ fun j hj => hl j (List.mem_cons_of_mem i hj),
        toNat_reduceStep h p (hl i List.mem_cons_self)]
  exact hfold [14, 13, 12, 11, 10, 9, 8] p (by decide)

/-! ## The class of a byte -/

/-- R101, R102: the class of a byte modulo `POLY`. -/
noncomputable def fieldValue (poly : BitVec 9) (a : Byte) : AdjoinRoot (bitPoly poly.toNat) :=
  AdjoinRoot.mk _ (bitPoly a.toNat)

@[simp] theorem fieldValue_zero : fieldValue poly 0#8 = 0 := by simp [fieldValue]

@[simp] theorem fieldValue_one : fieldValue poly 1#8 = 1 := by simp [fieldValue]

/-- R101: addition is XOR. -/
@[simp] theorem fieldValue_xor (a b : Byte) : fieldValue poly (a ^^^ b) = fieldValue poly a + fieldValue poly b := by
  rw [fieldValue, BitVec.toNat_xor, bitPoly_xor, map_add]
  rfl

/-- R102: `mul` is the product modulo `POLY`, for every `POLY` of degree 8. -/
theorem fieldValue_mul (h : poly.getLsbD 8 = true) (a b : Byte) :
    fieldValue poly (mul poly a b) = fieldValue poly a * fieldValue poly b := by
  have hlog := log2_of_getLsbD_eight h
  have hne := toNat_ne_zero_of_getLsbD_eight h
  obtain ⟨hlt, hmk⟩ := foldl_reduceBit (lo := 8) (n := 7) (q := (clmul a b).toNat) hne (by rw [hlog]; exact (clmul a b).isLt)
  rw [← toNat_reduce h, hlog, max_self] at hlt
  rw [← toNat_reduce h, bitPoly_clmul, map_mul] at hmk
  rw [fieldValue, mul, BitVec.toNat_setWidth, Nat.mod_eq_of_lt hlt, hmk]
  rfl

theorem fieldValue_gpow (h : poly.getLsbD 8 = true) (a : Byte) (e : Nat) :
    fieldValue poly (gpow poly a e) = fieldValue poly a ^ e := by
  induction e with
  | zero => simp [gpow]
  | succ e ih => rw [gpow, fieldValue_mul h, ih, pow_succ]

theorem fieldValue_gpowOnes (h : poly.getLsbD 8 = true) (a : Byte) (n : Nat) :
    fieldValue poly (gpowOnes poly a n) = fieldValue poly a ^ (2 ^ n - 1) := by
  induction n with
  | zero => simp [gpowOnes]
  | succ n ih =>
    have hpos := Nat.two_pow_pos n
    rw [gpowOnes, fieldValue_mul h, fieldValue_mul h, ih, ← pow_add, ← pow_succ]
    congr 1
    rw [pow_succ]
    omega

/-- R100: different bytes are different classes. -/
theorem fieldValue_injective (h : poly.getLsbD 8 = true) : Function.Injective (fieldValue poly) := by
  intro a b hab
  have hlog := log2_of_getLsbD_eight h
  have hne := toNat_ne_zero_of_getLsbD_eight h
  have hdvd : bitPoly poly.toNat ∣ bitPoly (a.toNat ^^^ b.toNat) := by
    rw [bitPoly_xor, ← CharTwo.sub_eq_add]
    exact AdjoinRoot.mk_eq_mk.1 hab
  have hdeg : (bitPoly (a.toNat ^^^ b.toNat)).degree < (bitPoly poly.toNat).degree := by
    rw [degree_eq_natDegree (bitPoly_ne_zero.2 hne), natDegree_bitPoly hne, hlog]
    exact degree_bitPoly_lt (Nat.xor_lt_two_pow a.isLt b.isLt)
  have hzero := eq_zero_of_dvd_of_degree_lt hdvd hdeg
  rw [← bitPoly_zero, bitPoly_inj, Nat.xor_eq_zero_iff] at hzero
  exact BitVec.eq_of_toNat_eq hzero

/-! ## The field -/

theorem getLsbD_eight_of_irreducible (h : irreducibleOfDegree8 poly = true) : poly.getLsbD 8 = true := by
  rw [irreducibleOfDegree8, Bool.and_eq_true] at h
  exact h.1

/-- The remainder by the polynomial of a number above 1 is 0 exactly when that polynomial divides. -/
theorem polyRemainder_eq_zero_iff {d p : Nat} (hd : 2 ≤ d) (hp : p < 2 ^ 9) :
    polyRemainder d p = 0 ↔ bitPoly d ∣ bitPoly p := by
  have hd0 : d ≠ 0 := by omega
  have hlog : 1 ≤ d.log2 := (Nat.le_log2 hd0).2 hd
  have hp' : p < 2 ^ max (1 + 8) d.log2 := hp.trans_le (Nat.pow_le_pow_right (by decide) (le_max_left _ _))
  obtain ⟨hlt, hmk⟩ := foldl_reduceBit hd0 hp'
  rw [← polyRemainder_eq_foldl, max_eq_right hlog] at hlt
  rw [← polyRemainder_eq_foldl] at hmk
  rw [← AdjoinRoot.mk_eq_zero, ← hmk, AdjoinRoot.mk_eq_zero, ← bitPoly_inj, bitPoly_zero]
  refine ⟨fun h0 => h0 ▸ dvd_zero _, fun hdvd => eq_zero_of_dvd_of_degree_lt hdvd ?_⟩
  rw [degree_eq_natDegree (bitPoly_ne_zero.2 hd0), natDegree_bitPoly hd0]
  exact degree_bitPoly_lt hlt

/-- R7: a `POLY` that passes the check is irreducible. -/
theorem irreducible_bitPoly (h : irreducibleOfDegree8 poly = true) : Irreducible (bitPoly poly.toNat) := by
  have h8 := getLsbD_eight_of_irreducible h
  have hne := toNat_ne_zero_of_getLsbD_eight h8
  have hdeg : (bitPoly poly.toNat).natDegree = 8 := by rw [natDegree_bitPoly hne, log2_of_getLsbD_eight h8]
  have hmonic : (bitPoly poly.toNat).Monic := by
    rw [Monic, leadingCoeff, hdeg, coeff_bitPoly, BitVec.testBit_toNat, h8]
    rfl
  have hone : bitPoly poly.toNat ≠ 1 := fun h1 => by rw [h1, natDegree_one] at hdeg; cases hdeg
  rw [hmonic.irreducible_iff_lt_natDegree_lt hone, hdeg]
  intro g _ hg hdvd
  obtain ⟨d, rfl⟩ := exists_bitPoly_eq g
  rw [Finset.mem_Ioc] at hg
  have hd0 : d ≠ 0 := by rintro rfl; simp at hg
  rw [natDegree_bitPoly hd0] at hg
  have hge : 2 ≤ d := (Nat.le_log2 hd0 (k := 1)).1 hg.1
  have hlt : d < 32 := (Nat.log2_lt hd0 (k := 5)).1 (by omega)
  rw [irreducibleOfDegree8, Bool.and_eq_true, List.all_eq_true] at h
  have hrem := h.2 d (List.mem_range.2 hlt)
  simp only [Bool.or_eq_true, decide_eq_true_eq] at hrem
  rcases hrem with hrem | hrem
  · omega
  · exact hrem ((polyRemainder_eq_zero_iff hge poly.isLt).2 hdvd)

/-- R100: the field has 256 elements. -/
theorem card_field (h : irreducibleOfDegree8 poly = true) : Nat.card (AdjoinRoot (bitPoly poly.toNat)) = 256 := by
  have h8 := getLsbD_eight_of_irreducible h
  have hne := toNat_ne_zero_of_getLsbD_eight h8
  have : Fact (Irreducible (bitPoly poly.toNat)) := ⟨irreducible_bitPoly h⟩
  let pb := AdjoinRoot.powerBasis (bitPoly_ne_zero.2 hne)
  have := pb.finite
  rw [Module.natCard_eq_pow_finrank (K := ZMod 2), pb.finrank, AdjoinRoot.powerBasis_dim, natDegree_bitPoly hne,
    log2_of_getLsbD_eight h8, Nat.card_zmod]
  rfl

/-- R104: Fermat, for every class but 0. -/
theorem field_pow_255 (h : irreducibleOfDegree8 poly = true) {x : AdjoinRoot (bitPoly poly.toNat)} (hx : x ≠ 0) :
    x ^ 255 = 1 := by
  have : Fact (Irreducible (bitPoly poly.toNat)) := ⟨irreducible_bitPoly h⟩
  have hcard := card_field h
  have : Finite (AdjoinRoot (bitPoly poly.toNat)) := Nat.finite_of_card_ne_zero (by rw [hcard]; decide)
  have := Fintype.ofFinite (AdjoinRoot (bitPoly poly.toNat))
  have hpow := FiniteField.pow_card_sub_one_eq_one x hx
  rwa [← Nat.card_eq_fintype_card, hcard] at hpow

theorem fieldValue_ne_zero (h : poly.getLsbD 8 = true) {a : Byte} : fieldValue poly a ≠ 0 ↔ a ≠ 0#8 := by
  rw [Ne, ← fieldValue_zero (poly := poly), (fieldValue_injective h).eq_iff]

/-- R104: every byte but 0 has the inverse that `inverse` computes. -/
theorem mul_inverse (h : irreducibleOfDegree8 poly = true) {a : Byte} (ha : a ≠ 0#8) :
    ∃ b, inverse poly a = some b ∧ mul poly a b = 1#8 := by
  have h8 := getLsbD_eight_of_irreducible h
  refine ⟨_, if_neg ha, fieldValue_injective h8 ?_⟩
  have hfermat := field_pow_255 h ((fieldValue_ne_zero h8).2 ha)
  rw [fieldValue_mul h8, fieldValue_mul h8, fieldValue_gpowOnes h8, ← pow_add, ← pow_succ', fieldValue_one]
  exact hfermat

end

end Sys2Proof.Machine
end

section
/-! # INIT builds the generator (O37) -/

namespace Sys2Proof.Machine

open Sys2Proof.Claims

theorem generatorAt_of_lt (poly : BitVec 9) {k i : Nat} (strat : Strategy) (j : Nat) (hi : i < k) :
    generatorAt poly k strat i j = if i = j then 1#8 else 0#8 := if_pos hi

theorem generatorAt_vandermonde (poly : BitVec 9) {k i : Nat} (j : Nat) (hi : k ≤ i) :
    generatorAt poly k .vandermonde i j = gpow poly (gpow poly 2#8 (i - k)) j := if_neg (Nat.not_lt.2 hi)

theorem generatorAt_cauchy (poly : BitVec 9) {k i : Nat} (j : Nat) (hi : k ≤ i) :
    generatorAt poly k .cauchy i j = cauchyAt poly i j := if_neg (Nat.not_lt.2 hi)

/-- R143: a Cauchy coefficient inverts the XOR of its indices. -/
theorem mul_cauchyAt {poly : BitVec 9} (h : irreducibleOfDegree8 poly = true) {i j : Nat} (hi : i < 256) (hj : j < 256)
    (hij : i ≠ j) : mul poly (BitVec.ofNat 8 (i ^^^ j)) (cauchyAt poly i j) = 1#8 := by
  have hne : BitVec.ofNat 8 (i ^^^ j) ≠ 0#8 := by
    intro h0
    have hnat := congrArg BitVec.toNat h0
    rw [BitVec.toNat_ofNat, Nat.mod_eq_of_lt (Nat.xor_lt_two_pow (n := 8) hi hj)] at hnat
    exact hij (Nat.xor_eq_zero_iff.1 hnat)
  obtain ⟨g, hg, hmul⟩ := mul_inverse h hne
  rw [cauchyAt, ← BitVec.ofNat_xor, hg]
  exact hmul

/-- R41, R150: INIT changes no byte outside `G`. -/
theorem withConfiguration_valueAt_off (s : State) {m k a : Nat} (strat : Strategy) (hm : m ≤ 256) (hk : k ≤ 256)
    (ha : ¬InG a) : (s.withConfiguration m k strat).valueAt a = s.valueAt a := by
  show (s.mem.forgetG.fillMatrix idG m k _).byteAt a = s.mem.byteAt a
  simp only [InG] at ha
  rw [Memory.byteAt_fillMatrix_off _ _ _ _ _ _ hk, Memory.byteAt_forgetG, if_neg]
  · simp only [matAddr, idG]
    omega
  · intro i j hi hj
    simp only [matAddr, idG]
    omega

/-- Settles O37: the accepted branch of INIT; each clause reads one part of `generatorAt` off the new memory. -/
theorem initBuildsTheGenerator : Obligations.InitBuildsTheGenerator := by
  intro m k strat s hvalid hacc
  obtain ⟨hirr, -, -, hmax, -, -⟩ := hvalid
  have hend : commandEnd (.init m k strat) s = .ok (s.withConfiguration m k strat) := initEnd_of_accepted hacc
  obtain ⟨hk, hkm, hm, -⟩ := hacc
  have hG : ∀ i j, i < 256 → j < 256 → (s.withConfiguration m k strat).finish.valueAt (matAddr 0 i j) =
      if i < m ∧ j < k then some (generatorAt s.params.poly k strat i j) else none := fun i j hi hj =>
    withConfiguration_valueAt_G (by omega) hi hj
  refine ⟨_, exec_of_ok hend, rfl, ?_, ?_, fun i j hi hj => ?_, ?_, ?_, fun i j hi hj hout => ?_, fun a ha => ?_⟩
  · exact withConfiguration_m (s := s) (k := k) (strat := strat) (by omega)
  · exact withConfiguration_k (s := s) (m := m) (strat := strat) (by omega)
  · rw [hG i j (by omega) (by omega), if_pos ⟨by omega, hj⟩, generatorAt_of_lt _ _ _ hi]
  · rintro rfl i j hi him hj
    rw [hG i j (by omega) (by omega), if_pos ⟨him, hj⟩, generatorAt_vandermonde _ _ hi]
  · rintro rfl i j hi him hj
    refine ⟨cauchyAt s.params.poly i j, ?_, mul_cauchyAt hirr (by omega) (by omega) (by omega)⟩
    rw [hG i j (by omega) (by omega), if_pos ⟨him, hj⟩, generatorAt_cauchy _ _ hi]
  · rw [hG i j hi hj, if_neg (by omega)]
  · exact withConfiguration_valueAt_off s strat (by omega) (by omega) ha

end Sys2Proof.Machine
end

section
/-! # What a step can do, and how registers are read and written

`StepCase` says once what one step of the block can answer. Register transactions are then taken from the offset (R22, R63) to
the state after the step. -/

namespace Sys2Proof.Machine

open Sys2Proof.Claims

/-! ## Steps -/

/-- R61, R71, R72, R231: what a step from `s` answers: a command's end, a reset, a stored host write, or a state that differs from
`s` in the model's own bookkeeping only (a read or a refused write is answered, or the block idles). -/
inductive StepCase (s : State) : State → Prop where
  | command (i : Instr) (hbusy : s.busy = true) (hdecode : decode s.cmd = .ok i) : StepCase s (commandEnd i s).next
  | illegal (hbusy : s.busy = true) : StepCase s (s.raise .illegalCommand 0)
  | reset (u : State) (hhost : s.host.head? = some .reset) : StepCase s u.resetBlock
  | stored (addr : Word) (v : Data) (rest : List HostEvent) (u : State) (hbusy : s.busy = false)
      (hhost : s.host = .memWrite addr v :: rest) (hwrite : { s with host := rest }.hostWrite addr v = some u) :
      StepCase s (u.respond .okay)
  | answered (host : List HostEvent) (responses : List Response) (busyLeft epoch : Nat) :
      StepCase s { s with host, responses, busyLeft, epoch }

theorem hostWrite_of_busy {s : State} (h : s.busy = true) (addr : Word) (v : Data) : s.hostWrite addr v = none := if_pos h

theorem step_of_idle {s : State} {e : HostEvent} {rest : List HostEvent} (hbusy : s.busy = false)
    (hhost : s.host = e :: rest) : step s = .next ({ s with host := rest }.serve e) := by
  simp [step, hbusy, hhost]

theorem step_of_busy {s : State} {left : Nat} {e : HostEvent} {rest : List HostEvent} (hbusy : s.busy = true)
    (hleft : s.busyLeft = left + 1) (hhost : s.host = e :: rest) :
    step s = .next ({ s with host := rest, busyLeft := left }.serve e) := by
  simp [step, hbusy, hleft, hhost]

theorem stepCase_of_step {s t : State} (h : step s = .next t) : StepCase s t := by
  rcases step_cases s with ⟨hb, -, hs⟩ | ⟨left, e, rest, hb, -, hh, hs⟩ | ⟨e, rest, hb, hh, hs⟩ | ⟨-, -, hs⟩
  · rw [hs] at h
    rcases runCommand_cases s with ⟨i, hi, hr⟩ | ⟨_, -, hr⟩
    · cases hr.symm.trans h
      exact .command i hb hi
    · cases hr.symm.trans h
      exact .illegal hb
  · cases hs.symm.trans h
    rcases serve_cases { s with host := rest, busyLeft := left } e with ⟨r, hr⟩ | ⟨addr, v, u, -, hw, -⟩ | ⟨rfl, hr⟩
    · rw [hr]
      exact .answered ..
    · rw [hostWrite_of_busy (s := { s with host := rest, busyLeft := left }) hb] at hw
      cases hw
    · rw [hr]
      exact .reset _ (by rw [hh]; rfl)
  · cases hs.symm.trans h
    rcases serve_cases { s with host := rest } e with ⟨r, hr⟩ | ⟨addr, v, u, rfl, hw, hr⟩ | ⟨rfl, hr⟩
    · rw [hr]
      exact .answered ..
    · rw [hr]
      exact .stored addr v rest u hb hh hw
    · rw [hr]
      exact .reset _ (by rw [hh]; rfl)
  · cases hs.symm.trans h
    exact .answered ..

/-! ## Registers by their offset -/

theorem regAtOffset_lt {off : Nat} {r : RegName} (h : regAtOffset off = some r) : off < 0x60 := by
  unfold regAtOffset at h
  split at h
  case h_14 =>
    split_ifs at h with hoff
    omega
  all_goals omega

theorem regAtOffset_present {w : Nat} (hw : w < 8) : regAtOffset (0x40 + 4 * w) = some (.present w) := by
  interval_cases w <;> rfl

theorem regAtOffset_eq_cmd {off : Nat} (h : regAtOffset off = some .cmd) : off = 0 := by
  unfold regAtOffset at h
  split at h
  case h_1 => rfl
  case h_14 => split_ifs at h; cases h
  all_goals cases h

/-- R63: a four-byte transaction at a register's offset reaches that register. -/
theorem placeAt_register (p : Params) {off : Nat} {r : RegName} (h : regAtOffset off = some r) :
    placeAt p (BitVec.ofNat 32 off) .four = some (.reg r) := by
  have hoff := regAtOffset_lt h
  have hspace : addrSpace (BitVec.ofNat 32 off) = 0 := by
    rw [addrSpace, BitVec.toNat_ofNat]
    omega
  have hindex : addrIndex (BitVec.ofNat 32 off) = off := by
    rw [addrIndex, BitVec.toNat_ofNat]
    omega
  rw [placeAt_four, if_pos hspace, hindex, h]
  rfl

/-- R63: only address 0 reaches `CMD`. -/
theorem eq_zero_of_placeAt_cmd {p : Params} {addr : Word} (h : placeAt p addr .four = some (.reg .cmd)) : addr = 0#32 := by
  rw [placeAt_four] at h
  split_ifs at h with hspace
  rw [Option.map_eq_some_iff] at h
  obtain ⟨r, hr, hreg⟩ := h
  cases hreg
  have hindex := regAtOffset_eq_cmd hr
  simp only [addrSpace, addrIndex] at hspace hindex
  exact BitVec.eq_of_toNat_eq (by rw [BitVec.toNat_ofNat]; omega)

theorem hostRead_register {s : State} {addr : Word} {r : RegName} (hbusy : s.busy = false)
    (hplace : placeAt s.params addr .four = some (.reg r)) : s.hostRead addr .four = some (.word (s.readReg r)) := by
  simp [State.hostRead, hbusy, hplace]

theorem hostWrite_register {s : State} {addr : Word} {r : RegName} (hbusy : s.busy = false)
    (hplace : placeAt s.params addr .four = some (.reg r)) (v : Word) : s.hostWrite addr (.word v) = s.writeReg r v := by
  simp [State.hostWrite, hbusy, Data.width, hplace, Data.toWord]

/-- No register shows the events still to come. -/
theorem readReg_withHost (s : State) (rest : List HostEvent) (r : RegName) :
    ({ s with host := rest } : State).readReg r = s.readReg r := by cases r <;> rfl

section
variable {s : State} {off : Nat} {r : RegName} {rest : List HostEvent}

/-- R63: the step that answers an idle read of a register. -/
theorem step_read_register (hbusy : s.busy = false) (hreg : regAtOffset off = some r)
    (hhost : s.host = .memRead (BitVec.ofNat 32 off) .four :: rest) :
    step s = .next (answered s rest (.okayData (.word (s.readReg r)))) := by
  have hread := hostRead_register (s := { s with host := rest }) hbusy (placeAt_register _ hreg)
  rw [step_of_idle hbusy hhost, State.serve, hread, readReg_withHost]
  rfl

/-- R63: the step that stores an idle write of a register. -/
theorem step_write_register {v : Word} {t : State} (hbusy : s.busy = false) (hreg : regAtOffset off = some r)
    (hhost : s.host = .memWrite (BitVec.ofNat 32 off) (.word v) :: rest)
    (hwrite : { s with host := rest }.writeReg r v = some t) : step s = .next (t.respond .okay) := by
  have hstore := hostWrite_register (s := { s with host := rest }) hbusy (placeAt_register _ hreg) v
  rw [step_of_idle hbusy hhost, State.serve, hstore, hwrite]

end

/-! ## What a stored write changes -/

/-- R63: a write of a register starts a command, clears sticky bits, or stores operands or presence bits. -/
theorem writeReg_cases {s t : State} {r : RegName} {v : Word} (h : s.writeReg r v = some t) :
    (r = .cmd ∧ t = s.startCommand v) ∨ (r = .esticky ∧ t = { s with esticky := s.esticky &&& ~~~v }) ∨
      t = { s with
        len := t.len, plen := t.plen, dim1 := t.dim1, dim2 := t.dim2, dim3 := t.dim3, present := t.present, dv := t.dv } := by
  cases r with
  | cmd => cases h; exact .inl ⟨rfl, rfl⟩
  | esticky => cases h; exact .inr (.inl ⟨rfl, rfl⟩)
  | len => cases h; exact .inr (.inr rfl)
  | plen => cases h; exact .inr (.inr rfl)
  | dim1 => cases h; exact .inr (.inr rfl)
  | dim2 => cases h; exact .inr (.inr rfl)
  | dim3 => cases h; exact .inr (.inr rfl)
  | present w => cases h; exact .inr (.inr rfl)
  | status => cases h
  | einfo => cases h
  | res => cases h
  | cfg => cases h
  | nerrs => cases h
  | nsrcerrs => cases h

/-- R61 to R66: a stored write is a word written to a register, or changes memory only. -/
theorem hostWrite_register_or_memory {s t : State} {addr : Word} {v : Data} (h : s.hostWrite addr v = some t) :
    (∃ r w, v = .word w ∧ placeAt s.params addr .four = some (.reg r) ∧ s.writeReg r w = some t) ∨
      ∃ m, t = s.withMem m := by
  unfold State.hostWrite at h
  split_ifs at h
  split at h
  · cases h
  · rename_i r hplace
    cases v with
    | word w => exact .inl ⟨r, w, rfl, hplace, h⟩
    | byte b => cases (placeAt_one_some hplace).1
  · split_ifs at h
    obtain ⟨a, -, rfl⟩ := Option.map_eq_some_iff.1 h
    exact .inr ⟨_, rfl⟩

end Sys2Proof.Machine
end

section
/-! # What the operations of commands leave alone

`OperationFrame` says what no command but INIT and DEINIT changes: the registers only the host writes and those only a command's
report writes, the configuration, and `G` (R70). -/

namespace Sys2Proof.Machine

open Sys2Proof.Claims

/-! ## The bytes of `G` -/

/-- R41: `m` holds in `G` what `m₀` holds there. -/
def Memory.SameG (m₀ m : Memory) : Prop := ∀ a, InG a → m.byteAt a = m₀.byteAt a

namespace Memory.SameG

variable {m₀ m : Memory}

theorem refl (m : Memory) : SameG m m := fun _ _ => rfl

theorem trans {m₁ : Memory} (h₁ : SameG m₀ m₁) (h₂ : SameG m₁ m) : SameG m₀ m :=
  fun a ha => (h₂ a ha).trans (h₁ a ha)

/-- A write above `G` keeps it, however long it is. -/
theorem fill (h : SameG m₀ m) {base : Nat} (hb : 0x10010000 ≤ base) (n : Nat) (f : Nat → Option Byte) :
    SameG m₀ (m.fill base n f) := fun a ha => by
  rw [Memory.byteAt_fill, if_neg, h a ha]
  simp only [InG] at ha
  omega

theorem fillBlock (h : SameG m₀ m) {base : Nat} (hb : 0x10010000 ≤ base) (stride cols : Nat)
    (f : Nat → Nat → Option Byte) (rows : Nat) : SameG m₀ (m.fillBlock base stride cols f rows) := by
  induction rows with
  | zero => exact h
  | succ rows ih => exact ih.fill (by omega) _ _

theorem fillMatrix (h : SameG m₀ m) {id : Nat} (hid : 1 ≤ id) (rows cols : Nat) (f : Nat → Nat → Option Byte) :
    SameG m₀ (m.fillMatrix id rows cols f) :=
  h.fillBlock (by simp only [matAddr]; omega) _ _ _ _

theorem fillList (h : SameG m₀ m) (id n : Nat) (f : Nat → Option Byte) : SameG m₀ (m.fillList id n f) :=
  h.fill (by simp only [listAddr]; omega) _ _

theorem fillFragment (h : SameG m₀ m) (i n : Nat) (f : Nat → Option Byte) : SameG m₀ (m.fillFragment i n f) :=
  h.fill (by simp only [fragAddr]; omega) _ _

theorem fillFragments (h : SameG m₀ m) (first count n : Nat) (f : Nat → Nat → Option Byte) :
    SameG m₀ (m.fillFragments first count n f) :=
  h.fillBlock (by simp only [fragAddr]; omega) _ _ _ _

theorem fillPayload (h : SameG m₀ m) (n : Nat) (f : Nat → Option Byte) : SameG m₀ (m.fillPayload n f) :=
  h.fill (by simp only [payAddr]; omega) _ _

theorem forgetSynthesis (h : SameG m₀ m) (k : Nat) : SameG m₀ (m.forgetSynthesis k) :=
  ((h.fillList _ _ _).fillMatrix (by decide) _ _ _).fillMatrix (by decide) _ _ _

theorem writeSynthesis (h : SameG m₀ m) (k nerrs : Nat) (didx : List Nat) (B Binv : Matrix) (rows : Nat → Nat → Byte) :
    SameG m₀ (m.writeSynthesis k nerrs didx B Binv rows) :=
  (((h.fillList _ _ _).fillMatrix (by decide) _ _ _).fillMatrix (by decide) _ _ _).fillMatrix (by decide) _ _ _

end Memory.SameG

/-! ## What an operation can come to

One lemma per command: the fields its operation writes, whatever branch it takes. -/

theorem scalarResult_state (s : State) (v : Option Byte) : ∃ x, (scalarResult s v).state = { s with res := x } := by
  cases v with
  | none => exact ⟨s.res, rfl⟩
  | some x => exact ⟨x, rfl⟩

theorem matmulEnd_state (dst s1 s2 : Nat) (s : State) :
    ∃ m, s.mem.SameG m ∧ (matmulEnd dst s1 s2 s).state = s.withMem m := by
  unfold matmulEnd
  split_ifs with hid
  · exact ⟨_, .refl _, rfl⟩
  · exact ⟨_, .refl _, rfl⟩
  · exact ⟨_, (Memory.SameG.refl _).fillMatrix (by simp only [idG] at hid; omega) _ _ _, rfl⟩
  · exact ⟨_, .refl _, rfl⟩

theorem invertEnd_state (dst s1 : Nat) (s : State) :
    ∃ m, s.mem.SameG m ∧ (invertEnd dst s1 s).state = s.withMem m := by
  unfold invertEnd
  dsimp only
  split_ifs with hid
  · exact ⟨_, .refl _, rfl⟩
  · exact ⟨_, .refl _, rfl⟩
  · have hdst : 1 ≤ dst := by simp only [idG] at hid; omega
    split
    · exact ⟨_, (Memory.SameG.refl _).fillMatrix hdst _ _ _, rfl⟩
    · exact ⟨_, (Memory.SameG.refl _).fillMatrix hdst _ _ _, rfl⟩
  · exact ⟨_, .refl _, rfl⟩

/-- R190: the state FRAME leaves when the payload fits. -/
def State.withFrame (s : State) : State :=
  { s with
    mem := s.mem.fillFragments 0 s.k (frameLength s.plen.toNat s.k) fun i o =>
      frameByte s.params.pad (fun j => s.valueAt (payAddr j)) s.plen.toNat (s.k * frameLength s.plen.toNat s.k)
        (i * frameLength s.plen.toNat s.k + o)
    len := BitVec.ofNat 21 (frameLength s.plen.toNat s.k)
    present := clearPresentRange (setPresentRange s.present 0 s.k) s.k s.m
    dv := false }

theorem frameEnd_cases (s : State) :
    (∃ e, frameEnd s = .error e 0 s) ∨
      (¬s.cfgv = false ∧ frameLength s.plen.toNat s.k ≤ s.params.lmax ∧ frameEnd s = .ok s.withFrame) := by
  unfold frameEnd
  dsimp only
  split_ifs with hc hl
  · exact .inl ⟨_, rfl⟩
  · exact .inl ⟨_, rfl⟩
  · exact .inr ⟨hc, Nat.not_lt.1 hl, rfl⟩

/-- R191: the state PARITY leaves when every data fragment is present. -/
def State.withParity (s : State) : State :=
  { s with
    mem := s.mem.fillFragments s.k s.r s.l fun i o => s.parityAt (s.k + i) o
    present := setPresentRange s.present s.k s.m
    dv := false }

theorem parityEnd_of_ready {s : State} (hc : ¬s.cfgv = false) (hl : s.lengthLegal = true) (hp : s.firstMissing = none) :
    parityEnd s = .ok s.withParity := by
  simp [parityEnd, hc, hl, hp, State.withParity]

theorem parityEnd_cases (s : State) : (∃ e info, parityEnd s = .error e info s) ∨ parityEnd s = .ok s.withParity := by
  unfold parityEnd
  split_ifs
  · exact .inl ⟨_, _, rfl⟩
  · exact .inl ⟨_, _, rfl⟩
  · split
    · exact .inl ⟨_, _, rfl⟩
    · exact .inr rfl

/-- R192: UNFRAME writes `PLEN` and the payload memory, or nothing; after its first two checks it can fail in two ways. -/
theorem unframeEnd_cases (s : State) :
    (∃ e info, (¬s.cfgv = false → s.lengthLegal = true → e = .missingOperand ∨ e = .framingCorruption) ∧
      unframeEnd s = .error e info s) ∨
      ∃ m n, s.mem.SameG m ∧ unframeEnd s = .ok { s with mem := m, plen := n } := by
  unfold unframeEnd
  split_ifs with hc hl
  · exact .inl ⟨_, _, fun h => absurd hc h, rfl⟩
  · exact .inl ⟨_, _, fun _ h => absurd (hl.symm.trans h) (by decide), rfl⟩
  · split
    · exact .inl ⟨_, _, fun _ _ => .inl rfl, rfl⟩
    · split
      · exact .inl ⟨_, _, fun _ _ => .inr rfl, rfl⟩
      · exact .inr ⟨_, _, (Memory.SameG.refl _).fillPayload _ _, rfl⟩

/-- R170: GENDEC clears `DV` and writes the error list once it is configured, and sets `DV` when it ends `OK`. -/
theorem gendecEnd_cases (s : State) :
    (s.cfgv = false ∧ gendecEnd s = .error .notConfigured 0 s) ∨
      (∃ e info m, (e = .tooManyErrors ∨ e = .noInvertibleSubmatrix) ∧ s.mem.SameG m ∧
        gendecEnd s = .error e info (s.writeDescriptor.withMem m)) ∨
      ∃ m, s.mem.SameG m ∧ gendecEnd s = .ok { s.writeDescriptor with dv := true, mem := m } := by
  have herrl : s.mem.SameG s.writeDescriptor.mem := (Memory.SameG.refl _).fillList _ _ _
  unfold gendecEnd
  split_ifs with hc
  · exact .inl ⟨hc, rfl⟩
  · unfold gendecBody
    dsimp only
    split_ifs
    · exact .inr (.inl ⟨_, _, _, .inl rfl, herrl, rfl⟩)
    · split
      · exact .inr (.inl ⟨_, _, _, .inr rfl, herrl.forgetSynthesis _, rfl⟩)
      · exact .inr (.inr ⟨_, herrl.writeSynthesis _ _ _ _ _ _, rfl⟩)

theorem rebuild_sameG (s : State) (n : Nat) : s.mem.SameG (s.rebuild n).mem := fun a ha =>
  rebuild_valueAt_off s n a fun p o _ _ => by
    simp only [InG, fragAddr] at ha ⊢
    omega

theorem reconEnd_of_ready {s : State} (hc : ¬s.cfgv = false) (hd : s.dv = true) (hl : s.lengthLegal = true) :
    reconEnd s = .ok (s.rebuild s.nerrs.toNat) := by
  simp [reconEnd, hc, hd, hl]

/-- R171: RECON writes fragments and their presence, or nothing. -/
theorem reconEnd_state (s : State) :
    ∃ m p, s.mem.SameG m ∧ (reconEnd s).state = { s with mem := m, present := p } := by
  unfold reconEnd
  split_ifs
  · exact ⟨_, _, .refl _, rfl⟩
  · exact ⟨_, _, .refl _, rfl⟩
  · exact ⟨_, _, .refl _, rfl⟩
  · exact ⟨_, _, rebuild_sameG s _, rebuild_eq s _⟩

/-! ## The frame of an operation -/

/-- The fields that only the host's transactions or the report of a command's end write, `BUSY` and `ERR` left out (R70, R224);
the other fields are those of reset. -/
def State.control (s : State) : State :=
  { State.reset with
    params := s.params, cmd := s.cmd, esticky := s.esticky, einfo := s.einfo, dim1 := s.dim1, dim2 := s.dim2, dim3 := s.dim3,
    host := s.host, responses := s.responses }

/-- R24, R28: `CFGV` and the fields of `CFG`. -/
def State.configuration (s : State) : Bool × Byte × Byte × Strategy := (s.cfgv, s.cfgM, s.cfgK, s.cfgStrat)

/-- R28, R41: `t` has the configuration of `s` and its `G`. -/
structure SameConfiguration (s t : State) : Prop where
  registers : t.configuration = s.configuration
  generator : s.mem.SameG t.mem

/-- What every command but INIT and DEINIT leaves as it was, before its end is reported. -/
structure OperationFrame (s t : State) : Prop extends SameConfiguration s t where
  control : t.control = s.control

theorem OperationFrame.refl (s : State) : OperationFrame s s := ⟨⟨rfl, .refl _⟩, rfl⟩

theorem OperationFrame.trans {s t u : State} (h₁ : OperationFrame s t) (h₂ : OperationFrame t u) : OperationFrame s u :=
  ⟨⟨h₂.registers.trans h₁.registers, h₁.generator.trans h₂.generator⟩, h₂.control.trans h₁.control⟩

theorem frameEnd_frame (s : State) : OperationFrame s (frameEnd s).state := by
  rcases frameEnd_cases s with ⟨e, h⟩ | ⟨-, -, h⟩
  · rw [h]; exact .refl s
  · rw [h]; exact ⟨⟨rfl, (Memory.SameG.refl _).fillFragments _ _ _ _⟩, rfl⟩

theorem parityEnd_frame (s : State) : OperationFrame s (parityEnd s).state := by
  rcases parityEnd_cases s with ⟨e, info, h⟩ | h
  · rw [h]; exact .refl s
  · rw [h]; exact ⟨⟨rfl, (Memory.SameG.refl _).fillFragments _ _ _ _⟩, rfl⟩

theorem unframeEnd_frame (s : State) : OperationFrame s (unframeEnd s).state := by
  rcases unframeEnd_cases s with ⟨e, info, -, h⟩ | ⟨m, n, hm, h⟩
  · rw [h]; exact .refl s
  · rw [h]; exact ⟨⟨rfl, hm⟩, rfl⟩

theorem gendecEnd_frame (s : State) : OperationFrame s (gendecEnd s).state := by
  rcases gendecEnd_cases s with ⟨-, h⟩ | ⟨e, info, m, -, hm, h⟩ | ⟨m, hm, h⟩
  · rw [h]; exact .refl s
  · rw [h]; exact ⟨⟨rfl, hm⟩, rfl⟩
  · rw [h]; exact ⟨⟨rfl, hm⟩, rfl⟩

theorem reconEnd_frame (s : State) : OperationFrame s (reconEnd s).state := by
  obtain ⟨m, p, hm, h⟩ := reconEnd_state s
  rw [h]
  exact ⟨⟨rfl, hm⟩, rfl⟩

theorem scalarResult_frame (s : State) (v : Option Byte) : OperationFrame s (scalarResult s v).state := by
  obtain ⟨x, h⟩ := scalarResult_state s v
  rw [h]
  exact ⟨⟨rfl, .refl _⟩, rfl⟩

/-- A second stage starts from the state of a first one that ended `OK`. -/
theorem CommandEnd.andThen_frame {s : State} {c : CommandEnd} {f : State → CommandEnd} (h : OperationFrame s c.state)
    (hf : ∀ t, OperationFrame t (f t).state) : OperationFrame s (c.andThen f).state := by
  cases c with
  | ok t => exact h.trans (hf t)
  | error e info t => exact h

theorem CommandEnd.clearDvOnError_frame {s : State} {c : CommandEnd} (h : OperationFrame s c.state) :
    OperationFrame s c.clearDvOnError.state := by
  cases c with
  | ok t => exact h
  | error e info t => exact ⟨⟨h.registers, h.generator⟩, h.control⟩

theorem decodeEnd_frame (s : State) : OperationFrame s (decodeEnd s).state := by
  unfold decodeEnd
  split_ifs
  · exact .refl s
  · exact .refl s
  · refine CommandEnd.andThen_frame (CommandEnd.andThen_frame (gendecEnd_frame s) reconEnd_frame) fun t => ?_
    exact CommandEnd.clearDvOnError_frame (unframeEnd_frame t)

theorem initEnd_control (m k : Nat) (strat : Strategy) (s : State) : (initEnd m k strat s).state.control = s.control := by
  unfold initEnd
  split_ifs
  · rfl
  · rfl

/-- R70: only INIT and DEINIT change the configuration or `G`. -/
theorem commandEnd_frame (i : Instr) (s : State) :
    (∃ m k strat, i = .init m k strat) ∨ i = .deinit ∨ OperationFrame s (commandEnd i s).state := by
  cases i with
  | init m k strat => exact .inl ⟨m, k, strat, rfl⟩
  | deinit => exact .inr (.inl rfl)
  | nop => exact .inr (.inr (.refl s))
  | gfmul a b => exact .inr (.inr (scalarResult_frame s (some (mul s.params.poly a b))))
  | gfdiv a b => exact .inr (.inr (scalarResult_frame s _))
  | gfinv a => exact .inr (.inr (scalarResult_frame s _))
  | matmul dst s1 s2 =>
    obtain ⟨m, hm, h⟩ := matmulEnd_state dst s1 s2 s
    exact .inr (.inr (h ▸ ⟨⟨rfl, hm⟩, rfl⟩))
  | invert dst s1 =>
    obtain ⟨m, hm, h⟩ := invertEnd_state dst s1 s
    exact .inr (.inr (h ▸ ⟨⟨rfl, hm⟩, rfl⟩))
  | gendec => exact .inr (.inr (gendecEnd_frame s))
  | recon => exact .inr (.inr (reconEnd_frame s))
  | frame => exact .inr (.inr (frameEnd_frame s))
  | parity => exact .inr (.inr (parityEnd_frame s))
  | unframe => exact .inr (.inr (unframeEnd_frame s))
  | encode => exact .inr (.inr (CommandEnd.andThen_frame (frameEnd_frame s) parityEnd_frame))
  | decode => exact .inr (.inr (decodeEnd_frame s))

/-- R70: no command's operation writes the fields of `control`. -/
theorem commandEnd_control (i : Instr) (s : State) : (commandEnd i s).state.control = s.control := by
  rcases commandEnd_frame i s with ⟨m, k, strat, rfl⟩ | rfl | h
  · exact initEnd_control m k strat s
  · rfl
  · exact h.control

end Sys2Proof.Machine
end

section
/-! # Reset, and what registers read and store (O7, O11 to O14, O60) -/

namespace Sys2Proof.Machine

open Sys2Proof.Claims

/-! ## Reset -/

/-- R7: the reference parameters meet their constraints. -/
theorem params_reference_valid : Params.reference.Valid := by decide

/-- Settles O60: nothing is configured, present or specified, so only the parameters are to be checked. -/
theorem resetSatisfiesTheInvariant : Obligations.ResetSatisfiesTheInvariant := by
  refine ⟨params_reference_valid, List.Pairwise.nil, fun c hc => (nomatch hc), ⟨BitVec.zero_and, fun i _ => ?_⟩,
    ⟨fun hc => (nomatch hc), fun _ => ⟨rfl, rfl, rfl, rfl⟩⟩, fun i j _ _ => rfl, fun hd => (nomatch hd)⟩
  exact BitVec.getLsbD_zero

/-- R50: every register reads 0 after reset. -/
theorem readReg_reset (r : RegName) : State.reset.readReg r = 0#32 := by
  cases r with
  | present w => simp [State.readReg, State.reset, presentWord]
  | cmd => rfl
  | status => rfl
  | esticky => rfl
  | einfo => rfl
  | res => rfl
  | cfg => rfl
  | len => rfl
  | plen => rfl
  | dim1 => rfl
  | dim2 => rfl
  | dim3 => rfl
  | nerrs => rfl
  | nsrcerrs => rfl

/-- Settles O11: a reset event is served whether or not a command runs, and `resetBlock` is the reset state. -/
theorem resetLeavesTheResetValues : Obligations.ResetLeavesTheResetValues := by
  refine ⟨⟨readReg_reset, fun i => BitVec.getLsbD_zero, rfl, rfl, fun a => rfl⟩, ?_⟩
  intro s rest hhost hserved
  rcases hb : s.busy with _ | _
  · exact step_of_idle hb hhost
  · obtain ⟨left, hleft⟩ : ∃ left, s.busyLeft = left + 1 := 
      Nat.exists_eq_succ_of_ne_zero (hserved.resolve_left (by simp [hb])).ne'
    exact step_of_busy hb hleft hhost

/-! ## `CMD` -/

/-- R23: only a write of `CMD` changes it among the host's writes. -/
theorem hostWrite_cmd {s t : State} {addr : Word} {v : Data} (h : s.hostWrite addr v = some t) (hcmd : t.cmd ≠ s.cmd) :
    addr = 0#32 ∧ ∃ w, v = .word w := by
  rcases hostWrite_register_or_memory h with ⟨r, w, rfl, hplace, hw⟩ | ⟨m, rfl⟩
  · rcases writeReg_cases hw with ⟨rfl, -⟩ | ⟨-, ht⟩ | ht
    · exact ⟨eq_zero_of_placeAt_cmd hplace, w, rfl⟩
    · exact absurd (by rw [ht]) hcmd
    · exact absurd (by rw [ht]) hcmd
  · exact absurd rfl hcmd

/-- R224: the report of an end leaves `CMD` alone. -/
theorem CommandEnd.next_cmd (c : CommandEnd) : c.next.cmd = c.state.cmd := by cases c <;> rfl

theorem commandEnd_cmd (i : Instr) (s : State) : (commandEnd i s).state.cmd = s.cmd :=
  (congrArg State.cmd (commandEnd_control i s) :)

/-- R23: a step changes `CMD` by serving a reset or an idle write of `CMD`. -/
theorem step_cmd {s t : State} (h : step s = .next t) (hcmd : t.cmd ≠ s.cmd) :
    s.host.head? = some .reset ∨ (s.busy = false ∧ ∃ w, s.host.head? = some (.memWrite 0#32 (.word w))) := by
  cases stepCase_of_step h with
  | command i => exact absurd ((commandEnd i s).next_cmd.trans (commandEnd_cmd i s)) hcmd
  | illegal => exact absurd rfl hcmd
  | reset u hhost => exact .inl hhost
  | stored addr v rest u hbusy hhost hwrite =>
    obtain ⟨rfl, w, rfl⟩ := hostWrite_cmd hwrite hcmd
    exact .inr ⟨hbusy, w, by rw [hhost]; rfl⟩
  | answered => exact absurd rfl hcmd

/-- Settles O7: the two transactions at offset 0, and `step_cmd`. -/
theorem cmdRegisterFollowsItsRule : Obligations.CmdRegisterFollowsItsRule := by
  refine ⟨fun s w rest hbusy hhost => ?_, fun s rest hbusy hhost => ?_, fun s t => step_cmd, rfl, rfl⟩
  · exact ⟨_, step_write_register (off := 0) (r := .cmd) hbusy rfl hhost rfl⟩
  · exact step_read_register (off := 0) (r := .cmd) hbusy rfl hhost

/-! ## Writes of operands and presence -/

/-- Settles O14: one write per offset. -/
theorem operandRegisterWrites : Obligations.OperandRegisterWrites := by
  intro s v addr rest hbusy hhost
  refine ⟨?_, ?_, ?_, ?_, ?_⟩
  · rintro rfl
    exact step_write_register (off := 0x18) (r := .len) hbusy rfl hhost rfl
  · rintro rfl
    exact step_write_register (off := 0x1C) (r := .plen) hbusy rfl hhost rfl
  · rintro rfl
    exact step_write_register (off := 0x20) (r := .dim1) hbusy rfl hhost rfl
  · rintro rfl
    exact step_write_register (off := 0x24) (r := .dim2) hbusy rfl hhost rfl
  · rintro rfl
    exact step_write_register (off := 0x28) (r := .dim3) hbusy rfl hhost rfl

/-- R33: the presence bits after a host write of `PRESENTw`. -/
theorem writePresentWord_getLsbD (mmax : Nat) (p : BitVec 256) {w : Nat} (hw : w < 8) (v : Word) (i : Nat) :
    (writePresentWord mmax p w v).getLsbD i =
      (decide (i < mmax) && if i / 32 = w then v.getLsbD (i % 32) else p.getLsbD i) := by
  have hmask : (0xFFFFFFFF#256).getLsbD (i - 32 * w) = decide (i - 32 * w < 32) := by
    rw [show 0xFFFFFFFF#256 = presenceBelow 32 from rfl, presenceBelow_getLsbD, decide_eq_decide]
    omega
  by_cases hi : i < 256
  · rw [writePresentWord, BitVec.getLsbD_and, BitVec.getLsbD_or, BitVec.getLsbD_and, BitVec.getLsbD_not,
      BitVec.getLsbD_shiftLeft, BitVec.getLsbD_shiftLeft, presenceBelow_getLsbD, hmask, BitVec.getLsbD_setWidth]
    by_cases hin : i / 32 = w
    · have hbit : i - 32 * w = i % 32 := by omega
      rw [if_pos hin, hbit]
      simp [hi, show ¬i < 32 * w by omega, show i % 32 < 32 by omega, show i % 32 < 256 by omega, Bool.and_comm]
    · rw [if_neg hin]
      by_cases hlo : i < 32 * w
      · simp [hi, hlo, Bool.and_comm]
      · have hv : v.getLsbD (i - 32 * w) = false := BitVec.getLsbD_of_ge v _ (by omega)
        simp [hi, hlo, hv, show ¬i - 32 * w < 32 by omega, Bool.and_comm]
  · rw [BitVec.getLsbD_of_ge _ _ (by omega), BitVec.getLsbD_of_ge p _ (by omega), if_neg (by omega), Bool.and_false]

/-- Settles O13: the bits of `writePresentWord`; from `MMAX` on they are 0 before and after. -/
theorem presentWriteStoresAndClearsDv : Obligations.PresentWriteStoresAndClearsDv := by
  intro s w v rest hinv hbusy hw hhost
  refine ⟨_, step_write_register hbusy (regAtOffset_present hw) hhost rfl, fun i => ?_⟩
  rw [writePresentWord_getLsbD _ _ hw]
  by_cases hi : i < s.params.mmax
  · simp only [hi, decide_true, Bool.true_and, true_and]
    rfl
  · simp only [hi, decide_false, Bool.false_and, false_and, if_false]
    exact (hinv.present_reserved i (Nat.not_lt.1 hi)).symm

end Sys2Proof.Machine
end

section
/-! # Registers read as their fields (O12) -/

namespace Sys2Proof.Machine

open Sys2Proof.Claims

/-! ## The words -/

theorem err_code_le (e : ResultCode) : e.code ≤ 10 := by
  cases e with
  | ok => decide
  | failed e => cases e <;> decide

/-- R24: the flags of `STATUS` as a number. -/
def State.flagNumber (s : State) : Nat := s.busy.toNat + s.cfgv.toNat * 2 + s.dv.toNat * 4

theorem flagNumber_lt (s : State) : s.flagNumber < 8 := by
  have hb := s.busy.toNat_le
  have hc := s.cfgv.toNat_le
  have hd := s.dv.toNat_le
  unfold State.flagNumber
  omega

theorem flagNumber_testBit (s : State) :
    s.flagNumber.testBit 0 = s.busy ∧ s.flagNumber.testBit 1 = s.cfgv ∧ s.flagNumber.testBit 2 = s.dv := by
  unfold State.flagNumber
  generalize s.busy = b
  generalize s.cfgv = c
  generalize s.dv = d
  revert b c d
  decide

/-- R24: `STATUS` holds the flags in its low byte and the code of `ERR` above it. -/
theorem statusWord_toNat (s : State) : s.statusWord.toNat = 2 ^ 8 * s.err.code + s.flagNumber := by
  have he := err_code_le s.err
  have hf := flagNumber_lt s
  rw [State.statusWord, BitVec.toNat_ofNat]
  unfold State.flagNumber at *
  omega

/-- R24: the low byte of `STATUS`. -/
theorem statusWord_getLsbD (s : State) {i : Nat} (hi : i < 8) : s.statusWord.getLsbD i = s.flagNumber.testBit i := by
  have hf := flagNumber_lt s
  rw [← BitVec.testBit_toNat, statusWord_toNat, Nat.testBit_two_pow_mul_add _ (by omega), if_pos hi]

/-- R28: `CFG` holds `M`, `K` and the bit of the strategy. -/
theorem cfgWord_toNat (s : State) :
    s.cfgWord.toNat = s.m + 2 ^ 8 * s.k + 2 ^ 16 * (if s.cfgStrat = .cauchy then 1 else 0) := by
  have hm := m_lt s
  have hk := k_lt s
  unfold State.m State.k at *
  rw [State.cfgWord, BitVec.toNat_ofNat]
  cases s.cfgStrat <;> simp [strategyNumber] <;> omega

theorem presentWord_getLsbD (p : BitVec 256) (w : Nat) {i : Nat} (hi : i < 32) :
    (presentWord p w).getLsbD i = p.getLsbD (32 * w + i) := by
  simp [presentWord, hi]

/-! ## The registers by their offsets -/

/-- A flag at its place in a word. -/
theorem toNat_mul_eq_ite (b : Bool) (n : Nat) : b.toNat * n = if b then n else 0 := by cases b <;> simp

/-- R22: every offset of the table reaches the register whose word the table gives. -/
theorem registerWords_read {s : State} {off : Nat} {w : Word} (h : (off, w) ∈ registerWords s) :
    ∃ r, regAtOffset off = some r ∧ s.readReg r = w := by
  simp only [registerWords, List.mem_append, List.mem_cons, List.not_mem_nil, or_false, Prod.mk.injEq, List.mem_map,
    List.mem_range] at h
  rcases h with (⟨rfl, rfl⟩ | ⟨rfl, rfl⟩ | ⟨rfl, rfl⟩ | ⟨rfl, rfl⟩ | ⟨rfl, rfl⟩ | ⟨rfl, rfl⟩ | ⟨rfl, rfl⟩ | ⟨rfl, rfl⟩ |
    ⟨rfl, rfl⟩ | ⟨rfl, rfl⟩ | ⟨rfl, rfl⟩ | ⟨rfl, rfl⟩ | ⟨rfl, rfl⟩) | ⟨n, hn, rfl, rfl⟩
  · exact ⟨.cmd, rfl, rfl⟩
  · refine ⟨.status, rfl, ?_⟩
    have hbusy := toNat_mul_eq_ite s.busy 1
    rw [Nat.mul_one] at hbusy
    rw [State.readReg, State.statusWord, hbusy, toNat_mul_eq_ite, toNat_mul_eq_ite, Nat.mul_comm]
    rfl
  · exact ⟨.esticky, rfl, rfl⟩
  · exact ⟨.einfo, rfl, rfl⟩
  · exact ⟨.res, rfl, (BitVec.ofNat_toNat 32 _).symm⟩
  · refine ⟨.cfg, rfl, ?_⟩
    simp only [State.readReg, State.cfgWord]
    cases s.cfgStrat <;> simp [strategyNumber, Nat.mul_comm]
  · exact ⟨.len, rfl, (BitVec.ofNat_toNat 32 _).symm⟩
  · exact ⟨.plen, rfl, rfl⟩
  · exact ⟨.dim1, rfl, (BitVec.ofNat_toNat 32 _).symm⟩
  · exact ⟨.dim2, rfl, (BitVec.ofNat_toNat 32 _).symm⟩
  · exact ⟨.dim3, rfl, (BitVec.ofNat_toNat 32 _).symm⟩
  · exact ⟨.nerrs, rfl, (BitVec.ofNat_toNat 32 _).symm⟩
  · exact ⟨.nsrcerrs, rfl, (BitVec.ofNat_toNat 32 _).symm⟩
  · refine ⟨.present n, regAtOffset_present hn, ?_⟩
    rw [State.readReg, presentWord]
    apply BitVec.eq_of_toNat_eq
    simp [Nat.shiftRight_eq_div_pow]

/-- R28: without a configuration `CFG` reads 0. -/
theorem cfgWord_of_unconfigured {s : State} (h : s.Inv) (hc : s.cfgv = false) : s.cfgWord = 0#32 := by
  obtain ⟨-, -, -, -, ⟨-, hzero⟩, -, -⟩ := h
  obtain ⟨hM, hK, hstrat, -⟩ := hzero hc
  rw [State.cfgWord, hM, hK, hstrat]
  rfl

/-- Settles O12: the offset gives the register, and each word is read field by field. -/
theorem registersReadAsTheirFields : Obligations.RegistersReadAsTheirFields := by
  refine ⟨fun s off w rest hbusy hmem hhost => ?_, fun s => ?_⟩
  · obtain ⟨r, hreg, rfl⟩ := registerWords_read hmem
    exact step_read_register hbusy hreg hhost
  · have hflags := flagNumber_lt s
    obtain ⟨hbit0, hbit1, hbit2⟩ := flagNumber_testBit s
    have hcfg : (s.readReg .cfg).toNat = _ := cfgWord_toNat s
    have hm := m_lt s
    have hk := k_lt s
    refine ⟨⟨?_, ?_, ?_, fun i h3 h8 => ?_, ?_, err_code_le s.err⟩, ⟨?_, ?_, ?_, ?_, ?_, ?_, ?_⟩, ⟨?_, ?_, ?_⟩,
      fun w i _ hi => presentWord_getLsbD _ _ hi, fun hinv => ⟨hinv.esticky_reserved, cfgWord_of_unconfigured hinv,
        fun w i _ hi hmax => ?_⟩⟩
    · exact (statusWord_getLsbD s (by decide)).trans hbit0
    · exact (statusWord_getLsbD s (by decide)).trans hbit1
    · exact (statusWord_getLsbD s (by decide)).trans hbit2
    · refine (statusWord_getLsbD s h8).trans (Nat.testBit_lt_two_pow (hflags.trans_le ?_))
      exact Nat.pow_le_pow_right (n := 2) (by decide) h3
    · have hstatus : (s.readReg .status).toNat = _ := statusWord_toNat s
      omega
    · exact BitVec.toNat_setWidth_of_le (by decide)
    · exact BitVec.toNat_setWidth_of_le (by decide)
    · exact BitVec.toNat_setWidth_of_le (by decide)
    · exact BitVec.toNat_setWidth_of_le (by decide)
    · exact BitVec.toNat_setWidth_of_le (by decide)
    · exact BitVec.toNat_setWidth_of_le (by decide)
    · exact BitVec.toNat_setWidth_of_le (by decide)
    · split_ifs at hcfg <;> omega
    · split_ifs at hcfg <;> omega
    · split_ifs at hcfg ⊢ <;> omega
    · exact (presentWord_getLsbD _ _ hi).trans (hinv.present_reserved _ hmax)

end Sys2Proof.Machine
end

section
/-! # The sticky bits and the configuration under every step (O20, O25) -/

namespace Sys2Proof.Machine

open Sys2Proof.Claims

/-! ## Sticky bits -/

theorem error_code_range (e : CommandError) : 1 ≤ e.code ∧ e.code ≤ 10 := by cases e <;> decide

/-- R25: the sticky bit of an error is the bit of its code. -/
theorem stickyBit_getLsbD_code (e : CommandError) : e.stickyBit.getLsbD e.code = true := by cases e <;> decide

/-- R224: a command leaves `ESTICKY` as it was when it ends `OK`, and else sets the sticky bit of its error. -/
theorem commandEnd_esticky (i : Instr) (s : State) :
    (∃ u, commandEnd i s = .ok u ∧ (commandEnd i s).next.esticky = s.esticky) ∨
      ∃ e info u, commandEnd i s = .error e info u ∧ (commandEnd i s).next.esticky = s.esticky ||| e.stickyBit := by
  have hstate : (commandEnd i s).state.esticky = s.esticky := (congrArg State.esticky (commandEnd_control i s) :)
  generalize commandEnd i s = c at hstate ⊢
  cases c with
  | ok u => exact .inl ⟨u, rfl, hstate⟩
  | error e info u => exact .inr ⟨e, info, u, rfl, congrArg (· ||| e.stickyBit) hstate⟩

/-- R25: a host write only clears sticky bits. -/
theorem hostWrite_esticky {s t : State} {addr : Word} {v : Data} (h : s.hostWrite addr v = some t) :
    ∃ mask : Word, t.esticky = s.esticky &&& mask := by
  have hsame : s.esticky = s.esticky &&& BitVec.allOnes 32 := BitVec.and_allOnes.symm
  rcases hostWrite_register_or_memory h with ⟨r, w, -, -, hw⟩ | ⟨m, rfl⟩
  · rcases writeReg_cases hw with ⟨-, rfl⟩ | ⟨-, rfl⟩ | ht
    · exact ⟨_, hsame⟩
    · exact ⟨_, rfl⟩
    · exact ⟨_, by rw [ht]; exact hsame⟩
  · exact ⟨_, hsame⟩

theorem reserved_or_stickyBit {w : Word} (h : w &&& 0xFFFFF801#32 = 0#32) (e : CommandError) :
    (w ||| e.stickyBit) &&& 0xFFFFF801#32 = 0#32 := by
  rw [BitVec.and_or_distrib_right, h, stickyBit_reserved, BitVec.or_zero]

/-- R25: no step sets a reserved bit of `ESTICKY`. -/
theorem step_esticky_reserved {s t : State} (h : step s = .next t) (hs : s.esticky &&& 0xFFFFF801#32 = 0#32) :
    t.esticky &&& 0xFFFFF801#32 = 0#32 := by
  cases stepCase_of_step h with
  | command i =>
    rcases commandEnd_esticky i s with ⟨u, -, hu⟩ | ⟨e, info, u, -, hu⟩
    · rw [hu, hs]
    · rw [hu]; exact reserved_or_stickyBit hs e
  | illegal => exact reserved_or_stickyBit hs .illegalCommand
  | reset => exact BitVec.zero_and
  | stored addr v rest u _ _ hwrite =>
    obtain ⟨mask, hmask⟩ := hostWrite_esticky hwrite
    rw [State.respond_esticky, hmask, BitVec.and_assoc, BitVec.and_comm mask, ← BitVec.and_assoc, hs, BitVec.zero_and]
  | answered => exact hs

/-- Settles O20: the report of a command's end, the two host writes of `ESTICKY`, and `step_esticky_reserved`. -/
theorem stickyBitsFollowTheirRule : Obligations.StickyBitsFollowTheirRule := by
  refine ⟨fun i s t hexec => ?_, fun s left v rest hbusy hleft hhost => ?_, fun s v rest hbusy hhost => ?_,
    fun s t => step_esticky_reserved, rfl⟩
  · obtain rfl := exec_next_iff.1 hexec
    rcases commandEnd_esticky i s with ⟨u, hu, hsticky⟩ | ⟨e, info, u, hu, hsticky⟩
    · rw [hsticky, hu]
      exact ⟨fun e he => (nomatch he), fun c hc => hc⟩
    · rw [hsticky, hu]
      refine ⟨fun e' he => ?_, fun c hc => by rw [BitVec.getLsbD_or, hc, Bool.true_or]⟩
      obtain rfl : e = e' := ResultCode.failed.inj he
      obtain ⟨hlo, hhi⟩ := error_code_range e
      exact ⟨hlo, hhi, by rw [BitVec.getLsbD_or, stickyBit_getLsbD_code, Bool.or_true]⟩
  · rw [step_of_busy hbusy hleft hhost, State.serve, hostWrite_of_busy (s := { s with host := rest, busyLeft := left }) hbusy]
    rfl
  · refine ⟨_, step_write_register (off := 8) (r := .esticky) hbusy rfl hhost rfl, fun c => ?_⟩
    rw [BitVec.getLsbD_and, BitVec.getLsbD_not]
    by_cases hc : c < 32
    · simp [hc]
    · simp [BitVec.getLsbD_of_ge s.esticky c (by omega)]

/-! ## The configuration -/

/-- R224: the report of an end leaves the configuration and `G` alone. -/
theorem CommandEnd.next_sameConfiguration {s : State} {c : CommandEnd} (h : SameConfiguration s c.state) :
    SameConfiguration s c.next := by
  cases c with
  | ok u => exact ⟨h.registers, h.generator⟩
  | error e info u => exact ⟨h.registers, h.generator⟩

/-- R64, R70: no host write changes the configuration or `G`. -/
theorem hostWrite_sameConfiguration {s t : State} {addr : Word} {v : Data} (h : s.hostWrite addr v = some t) :
    SameConfiguration s t := by
  rcases hostWrite_cases h with ⟨r, hw⟩ | ⟨rfl, -, hG, -⟩
  · rcases writeReg_cases hw with ⟨-, rfl⟩ | ⟨-, rfl⟩ | ht
    · exact ⟨rfl, .refl _⟩
    · exact ⟨rfl, .refl _⟩
    · rw [ht]; exact ⟨rfl, .refl _⟩
  · refine ⟨rfl, fun a ha => ?_⟩
    rw [State.withMem_mem, Memory.byteAt_store, if_neg]
    rintro rfl
    exact hG ha

/-- R41, R145: a step keeps the configuration and `G`, unless it runs INIT or DEINIT or serves a reset. -/
theorem step_sameConfiguration {s t : State} (h : step s = .next t) :
    SameConfiguration s t ∨
      (s.busy = true ∧ ((∃ m k strat, decode s.cmd = .ok (.init m k strat)) ∨ decode s.cmd = .ok .deinit)) ∨
      s.host.head? = some .reset := by
  cases stepCase_of_step h with
  | command i hbusy hdecode =>
    rcases commandEnd_frame i s with ⟨m, k, strat, rfl⟩ | rfl | hframe
    · exact .inr (.inl ⟨hbusy, .inl ⟨m, k, strat, hdecode⟩⟩)
    · exact .inr (.inl ⟨hbusy, .inr hdecode⟩)
    · exact .inl (CommandEnd.next_sameConfiguration hframe.toSameConfiguration)
  | illegal => exact .inl ⟨rfl, .refl _⟩
  | reset u hhost => exact .inr (.inr hhost)
  | stored addr v rest u _ _ hwrite =>
    obtain ⟨hregs, hG⟩ := hostWrite_sameConfiguration hwrite
    exact .inl ⟨hregs, hG⟩
  | answered => exact .inl ⟨rfl, .refl _⟩

/-- A state with the same configuration shows no change of `CFGV`, `CFG` or `G`. -/
theorem SameConfiguration.not_changed {s t : State} (h : SameConfiguration s t) :
    ¬((∃ a, InG a ∧ t.valueAt a ≠ s.valueAt a) ∨ t.cfgv ≠ s.cfgv ∨ t.cfgM ≠ s.cfgM ∨ t.cfgK ≠ s.cfgK ∨
      t.cfgStrat ≠ s.cfgStrat) := by
  obtain ⟨hregs, hG⟩ := h
  simp only [State.configuration, Prod.mk.injEq] at hregs
  obtain ⟨hv, hM, hK, hstrat⟩ := hregs
  rintro (⟨a, ha, hne⟩ | hne | hne | hne | hne)
  · exact hne (hG a ha)
  · exact hne hv
  · exact hne hM
  · exact hne hK
  · exact hne hstrat

/-- Settles O25: by `step_sameConfiguration`, whose first case shows no change. -/
theorem onlyInitDeinitAndResetChangeG : Obligations.OnlyInitDeinitAndResetChangeG := fun _ _ hstep hchange =>
  (step_sameConfiguration hstep).resolve_left fun hsame => hsame.not_changed hchange

end Sys2Proof.Machine
end

section
/-! # `DV` after a command, and the checks after `NotConfigured` (O23, O45) -/

namespace Sys2Proof.Machine

open Sys2Proof.Claims

/-! ## The checks (R223) -/

section
variable {s : State}

theorem lengthLegal_eq_true_iff : s.lengthLegal = true ↔ 1 ≤ s.len.toNat ∧ s.len.toNat ≤ s.params.lmax := by
  rw [State.lengthLegal, Bool.and_eq_true, decide_eq_true_eq, decide_eq_true_eq, State.l]

theorem lengthLegal_eq_false_iff : s.lengthLegal = false ↔ s.len.toNat = 0 ∨ s.params.lmax < s.len.toNat := by
  rw [← Bool.not_eq_true, lengthLegal_eq_true_iff]
  omega

/-- R191: the least absent data fragment. -/
theorem firstMissing_eq_some_iff {i : Nat} :
    s.firstMissing = some i ↔ i < s.k ∧ s.isPresent i = false ∧ ∀ j, j < i → s.isPresent j = true := by
  rw [State.firstMissing, List.find?_range_eq_some]
  simp only [Bool.not_eq_true', Bool.not_not, List.mem_range]
  exact and_left_comm

theorem firstMissing_eq_none_iff : s.firstMissing = none ↔ ∀ i, i < s.k → s.isPresent i = true := by
  simp [State.firstMissing]

theorem reconEnd_of_no_descriptor (hc : s.cfgv = true) (hd : s.dv = false) :
    reconEnd s = .error .illegalCommand 4 s := by
  simp [reconEnd, hc, hd]

theorem reconEnd_of_illegal_length (hc : s.cfgv = true) (hd : s.dv = true) (hl : s.lengthLegal = false) :
    reconEnd s = .error .illegalCommand 3 s := by
  simp [reconEnd, hc, hd, hl]

theorem parityEnd_of_illegal_length (hc : s.cfgv = true) (hl : s.lengthLegal = false) :
    parityEnd s = .error .illegalCommand 3 s := by
  simp [parityEnd, hc, hl]

theorem unframeEnd_of_illegal_length (hc : s.cfgv = true) (hl : s.lengthLegal = false) :
    unframeEnd s = .error .illegalCommand 3 s := by
  simp [unframeEnd, hc, hl]

theorem decodeEnd_of_illegal_length (hc : s.cfgv = true) (hl : s.lengthLegal = false) :
    decodeEnd s = .error .illegalCommand 3 s := by
  simp [decodeEnd, hc, hl]

theorem parityEnd_of_missing {i : Nat} (hc : s.cfgv = true) (hl : s.lengthLegal = true) (hi : s.firstMissing = some i) :
    parityEnd s = .error .missingOperand i s := by
  simp [parityEnd, hc, hl, hi]

theorem unframeEnd_of_missing {i : Nat} (hc : s.cfgv = true) (hl : s.lengthLegal = true) (hi : s.firstMissing = some i) :
    unframeEnd s = .error .missingOperand i s := by
  simp [unframeEnd, hc, hl, hi]

end

/-- Settles O45: each check as an equation of its command's end, reported by `exec_of_error`. -/
theorem descriptorLengthAndPresenceRefusals : Obligations.DescriptorLengthAndPresenceRefusals := by
  intro s hc
  refine ⟨fun hd => ?_, fun hlen => ⟨fun hd => ?_, fun i hi => ?_⟩, fun i hlo hhi hik hi hleast => ?_⟩
  · exact exec_of_error (i := .recon) (reconEnd_of_no_descriptor hc hd)
  · exact exec_of_error (i := .recon) (reconEnd_of_illegal_length hc hd (lengthLegal_eq_false_iff.2 hlen))
  · have hl := lengthLegal_eq_false_iff.2 hlen
    simp only [List.mem_cons, List.not_mem_nil, or_false] at hi
    rcases hi with rfl | rfl | rfl
    · exact exec_of_error (i := .parity) (parityEnd_of_illegal_length hc hl)
    · exact exec_of_error (i := .unframe) (unframeEnd_of_illegal_length hc hl)
    · exact exec_of_error (i := .decode) (decodeEnd_of_illegal_length hc hl)
  · have hl := lengthLegal_eq_true_iff.2 ⟨hlo, hhi⟩
    have hmissing := firstMissing_eq_some_iff.2 ⟨hik, hi, hleast⟩
    exact ⟨exec_of_error (i := .parity) (parityEnd_of_missing hc hl hmissing),
      exec_of_error (i := .unframe) (unframeEnd_of_missing hc hl hmissing)⟩

/-! ## `DV` -/

/-- R224: the report of an end leaves `DV` alone. -/
theorem CommandEnd.next_dv (c : CommandEnd) : c.next.dv = c.state.dv := by cases c <;> rfl

/-- R34, R170, R202: `DV` after GENDEC or DECODE from `s`: 1 if it ended `OK`, unchanged after a failed check, else 0. -/
def CommandEnd.DescriptorRule (s : State) : CommandEnd → Prop
  | .ok t => t.dv = true
  | .error e _ t => t.dv = if e = .notConfigured ∨ e = .illegalCommand then s.dv else false

/-- R34: `DV` after FRAME, PARITY or ENCODE from `s`: 0 if it ended `OK`, else unchanged. -/
def CommandEnd.FramingRule (s : State) : CommandEnd → Prop
  | .ok t => t.dv = false
  | .error _ _ t => t.dv = s.dv

theorem CommandEnd.DescriptorRule.next_dv {s : State} {c : CommandEnd} (h : c.DescriptorRule s) :
    c.next.dv =
      if c.next.err = .ok then true
      else if c.next.err = .failed .notConfigured ∨ c.next.err = .failed .illegalCommand then s.dv
      else false := by
  cases c with
  | ok t => exact h
  | error e info t => simpa [CommandEnd.next, CommandEnd.DescriptorRule] using h

theorem CommandEnd.FramingRule.next_dv {s : State} {c : CommandEnd} (h : c.FramingRule s) :
    c.next.dv = if c.next.err = .ok then false else s.dv := by
  cases c with
  | ok t => exact h
  | error e info t => exact h

theorem gendecEnd_descriptorRule (s : State) : (gendecEnd s).DescriptorRule s := by
  rcases gendecEnd_cases s with ⟨-, h⟩ | ⟨e, info, m, rfl | rfl, -, h⟩ | ⟨m, -, h⟩
  · rw [h]; rfl
  · rw [h]; rfl
  · rw [h]; rfl
  · rw [h]; rfl

/-- UNFRAME as the last stage of DECODE, after the checks. -/
theorem unframeEnd_clearDvOnError_descriptorRule {s u : State} (hc : ¬u.cfgv = false) (hl : u.lengthLegal = true)
    (hd : u.dv = true) : (unframeEnd u).clearDvOnError.DescriptorRule s := by
  rcases unframeEnd_cases u with ⟨e, info, he, h⟩ | ⟨m, n, -, h⟩
  · rw [h]
    rcases he hc hl with rfl | rfl
    · rfl
    · rfl
  · rw [h]; exact hd

theorem decodeEnd_descriptorRule (s : State) : (decodeEnd s).DescriptorRule s := by
  unfold decodeEnd
  split_ifs with hc hl
  · rfl
  · rfl
  · have hlegal : s.lengthLegal = true := by simpa using hl
    have hgendec := gendecEnd_descriptorRule s
    rcases gendecEnd_cases s with ⟨h0, -⟩ | ⟨e, info, m, -, -, h⟩ | ⟨m, -, h⟩
    · exact absurd h0 hc
    · rw [h] at hgendec ⊢
      exact hgendec
    · rw [h, CommandEnd.andThen_ok, reconEnd_of_ready (s := { s.writeDescriptor with dv := true, mem := m }) hc rfl hlegal,
        CommandEnd.andThen_ok, rebuild_eq]
      exact unframeEnd_clearDvOnError_descriptorRule hc hlegal rfl

theorem frameEnd_framingRule (s : State) : (frameEnd s).FramingRule s := by
  rcases frameEnd_cases s with ⟨e, h⟩ | ⟨-, -, h⟩
  · rw [h]; rfl
  · rw [h]; rfl

theorem parityEnd_framingRule (s : State) : (parityEnd s).FramingRule s := by
  rcases parityEnd_cases s with ⟨e, info, h⟩ | h
  · rw [h]; rfl
  · rw [h]; rfl

/-- R190: FRAME makes every data fragment present. -/
theorem withFrame_isPresent (s : State) {i : Nat} (hi : i < s.k) : s.withFrame.isPresent i = true := by
  show (clearPresentRange (setPresentRange s.present 0 s.k) s.k s.m).getLsbD i = true
  have hk := k_lt s
  rw [clearPresentRange_getLsbD, setPresentRange_getLsbD, decide_eq_true (by omega), decide_eq_false (by omega), Bool.or_true,
    Bool.not_false, Bool.and_true]

/-- R182, R190: FRAME leaves a legal `L`. -/
theorem withFrame_lengthLegal {s : State} (h : s.Inv) (hk : 1 ≤ s.k) (hfits : frameLength s.plen.toNat s.k ≤ s.params.lmax) :
    s.withFrame.lengthLegal = true := by
  obtain ⟨-, -, -, -, -, hlmax⟩ := h.valid
  have hlen : s.withFrame.len.toNat = frameLength s.plen.toNat s.k := by
    show (BitVec.ofNat 21 _).toNat = _
    rw [BitVec.toNat_ofNat, Nat.mod_eq_of_lt (by omega)]
  have hpos : frameLength s.plen.toNat s.k ≠ 0 := fun h0 => by
    have hspec := (frameLength_spec s.plen.toNat hk).1
    rw [h0] at hspec
    omega
  rw [lengthLegal_eq_true_iff, hlen]
  exact ⟨Nat.one_le_iff_ne_zero.2 hpos, hfits⟩

/-- R201: after a FRAME that ended `OK` PARITY ends `OK`. -/
theorem parityEnd_withFrame {s : State} (h : s.Inv) (hc : ¬s.cfgv = false)
    (hfits : frameLength s.plen.toNat s.k ≤ s.params.lmax) : parityEnd s.withFrame = .ok s.withFrame.withParity := by
  obtain ⟨hk, -, -⟩ := h.configured hc
  exact parityEnd_of_ready hc (withFrame_lengthLegal h hk hfits)
    (firstMissing_eq_none_iff.2 fun i hi => withFrame_isPresent s hi)

theorem encodeEnd_framingRule {s : State} (h : s.Inv) : (encodeEnd s).FramingRule s := by
  unfold encodeEnd
  rcases frameEnd_cases s with ⟨e, hframe⟩ | ⟨hc, hfits, hframe⟩
  · rw [hframe]; rfl
  · rw [hframe, CommandEnd.andThen_ok, parityEnd_withFrame h hc hfits]; rfl

theorem initEnd_dv (m k : Nat) (strat : Strategy) (s : State) : (initEnd m k strat s).state.dv = false := by
  unfold initEnd
  split_ifs
  · rfl
  · rfl

/-- Settles O23: command by command; the end of each says what its operation did to `DV`. -/
theorem dvFollowsItsRule : Obligations.DvFollowsItsRule := by
  intro i s t hinv hexec
  obtain rfl := exec_next_iff.1 hexec
  cases i with
  | gendec => exact (gendecEnd_descriptorRule s).next_dv
  | decode => exact (decodeEnd_descriptorRule s).next_dv
  | frame => exact (frameEnd_framingRule s).next_dv
  | parity => exact (parityEnd_framingRule s).next_dv
  | encode => exact (encodeEnd_framingRule hinv).next_dv
  | init m k strat => exact (CommandEnd.next_dv _).trans (initEnd_dv m k strat s)
  | deinit => rfl
  | nop => rfl
  | gfmul a b => rfl
  | gfdiv a b =>
    obtain ⟨x, hx⟩ := scalarResult_state s (gdiv s.params.poly a b)
    exact (CommandEnd.next_dv _).trans (congrArg State.dv hx :)
  | gfinv a =>
    obtain ⟨x, hx⟩ := scalarResult_state s (inverse s.params.poly a)
    exact (CommandEnd.next_dv _).trans (congrArg State.dv hx :)
  | matmul dst s1 s2 =>
    obtain ⟨m, -, hm⟩ := matmulEnd_state dst s1 s2 s
    exact (CommandEnd.next_dv _).trans (congrArg State.dv hm :)
  | invert dst s1 =>
    obtain ⟨m, -, hm⟩ := invertEnd_state dst s1 s
    exact (CommandEnd.next_dv _).trans (congrArg State.dv hm :)
  | recon =>
    obtain ⟨m, p, -, hm⟩ := reconEnd_state s
    exact (CommandEnd.next_dv _).trans (congrArg State.dv hm :)
  | unframe =>
    refine (CommandEnd.next_dv _).trans ?_
    show (unframeEnd s).state.dv = s.dv
    rcases unframeEnd_cases s with ⟨e, info, -, h⟩ | ⟨m, n, -, h⟩
    · rw [h]; rfl
    · rw [h]; rfl

end Sys2Proof.Machine
end

section
/-! # Host transactions at bytes and at reserved addresses (O6, O8, O15 to O18) -/

namespace Sys2Proof.Machine

open Sys2Proof.Claims

/-! ## A command's end -/

theorem step_of_ending {s : State} (hbusy : s.busy = true) (hend : s.busyLeft = 0 ∨ s.host = []) :
    step s = runCommand s := by
  rcases step_cases s with ⟨-, -, hs⟩ | ⟨left, e, rest, -, hleft, hhost, -⟩ | ⟨e, rest, hidle, -, -⟩ | ⟨hidle, -, -⟩
  · exact hs
  · simp [hleft, hhost] at hend
  · simp [hbusy] at hidle
  · simp [hbusy] at hidle

theorem runCommand_of_decode {s : State} {i : Instr} (h : decode s.cmd = .ok i) : runCommand s = exec i s := by
  simp [runCommand, h]

theorem step_of_no_event {s : State} (hbusy : s.busy = false) (hhost : s.host = []) : step s = .next s := by
  simp [step, hbusy, hhost]

/-- Settles O6: a command that ends is run by `runCommand`; without a command and an event nothing is left to do. -/
theorem stepRunsTheDecodedCommand : Obligations.StepRunsTheDecodedCommand := by
  refine ⟨fun s i hbusy hend hdecode => ?_, fun s => step_of_no_event⟩
  rw [step_of_ending hbusy hend, runCommand_of_decode hdecode]

/-! ## The places of registers -/

/-- R22: the offsets at which registers stand. -/
theorem registerOffset_mem : ∀ off, off < 0x60 → (regAtOffset off).isSome = true →
    off ∈ [0x00, 0x04, 0x08, 0x0C, 0x10, 0x14, 0x18, 0x1C, 0x20, 0x24, 0x28, 0x2C, 0x30, 0x40, 0x44, 0x48, 0x4C, 0x50, 0x54,
      0x58, 0x5C] := by decide

theorem regAtOffset_eq_status {off : Nat} (h : regAtOffset off = some .status) : off = 4 := by
  have hall : ∀ o, o < 0x60 → regAtOffset o = some .status → o = 4 := by decide
  exact hall off (regAtOffset_lt h) h

/-- R63, R67: only a four-byte transaction reaches a register, at the register's offset. -/
theorem regAtOffset_of_placeAt {p : Params} {addr : Word} {n : Width} {r : RegName} (h : placeAt p addr n = some (.reg r)) :
    n = .four ∧ regAtOffset addr.toNat = some r := by
  cases n with
  | one => cases (placeAt_one_some h).1
  | four =>
    rw [placeAt_four] at h
    split_ifs at h with hspace
    obtain ⟨r', hr, hreg⟩ := Option.map_eq_some_iff.1 h
    cases hreg
    have hindex : addrIndex addr = addr.toNat := by
      simp only [addrSpace, addrIndex] at hspace ⊢
      omega
    exact ⟨rfl, hindex ▸ hr⟩

/-- R67: a four-byte transaction reaches a register or nothing. -/
theorem placeAt_four_some {p : Params} {addr : Word} {pl : Place} (h : placeAt p addr .four = some pl) : ∃ r, pl = .reg r := by
  rw [placeAt_four] at h
  split_ifs at h
  obtain ⟨r, -, hreg⟩ := Option.map_eq_some_iff.1 h
  exact ⟨r, hreg.symm⟩

/-- R62 to R67: what a transaction reaches stands at a legal address for its width. -/
theorem legalAddress_of_placeAt {p : Params} {addr : Word} {n : Width} {pl : Place} (h : placeAt p addr n = some pl) :
    LegalAddress p addr n := by
  cases n with
  | one => exact (placeAt_one_some h).2.1
  | four =>
    obtain ⟨r, rfl⟩ := placeAt_four_some h
    obtain ⟨-, hreg⟩ := regAtOffset_of_placeAt h
    exact registerOffset_mem _ (regAtOffset_lt hreg) (Option.isSome_of_mem hreg)

theorem placeAt_of_not_legal {p : Params} {addr : Word} {n : Width} (h : ¬LegalAddress p addr n) : placeAt p addr n = none :=
  Option.eq_none_iff_forall_ne_some.2 fun _ hpl => h (legalAddress_of_placeAt hpl)

/-! ## What a transaction is answered -/

section
variable {s : State} {addr : Word}

theorem hostRead_of_no_place {n : Width} (h : placeAt s.params addr n = none) : s.hostRead addr n = none := by
  simp [State.hostRead, h]

theorem hostWrite_of_no_place {v : Data} (h : placeAt s.params addr v.width = none) : s.hostWrite addr v = none := by
  simp [State.hostWrite, h]

/-- R75: a busy block answers no read but that of `STATUS`. -/
theorem hostRead_of_busy {n : Width} (hbusy : s.busy = true) (h : ¬(addr = 4#32 ∧ n = .four)) : s.hostRead addr n = none := by
  refine if_pos ⟨hbusy, decide_eq_false fun hplace => h ?_⟩
  obtain ⟨rfl, hreg⟩ := regAtOffset_of_placeAt hplace
  exact ⟨BitVec.eq_of_toNat_eq (regAtOffset_eq_status hreg), rfl⟩

/-- R75: the read of `STATUS` is answered whether or not a command runs. -/
theorem hostRead_status : s.hostRead 4#32 .four = some (.word s.statusWord) := by
  have hplace : placeAt s.params 4#32 .four = some (.reg .status) := placeAt_register _ (off := 4) rfl
  simp [State.hostRead, isStatusRead, hplace, State.readReg]

/-- R64 to R66: an idle read of a byte place draws the byte at its address. -/
theorem hostRead_byte {pl : Place} (hbusy : s.busy = false) (h : placeAt s.params addr .one = some pl) :
    s.hostRead addr .one = some (.byte (s.sample addr.toNat)) := by
  have haddr := (placeAt_one_some h).1
  cases pl with
  | reg r => cases haddr
  | mat id i j => simp [State.hostRead, hbusy, h, haddr]
  | list id q => simp [State.hostRead, hbusy, h, haddr]
  | frag i o => simp [State.hostRead, hbusy, h, haddr]
  | pay o => simp [State.hostRead, hbusy, h, haddr]

/-- R64 to R66: an idle write of a byte place stores the byte where the host may. -/
theorem hostWrite_byte {pl : Place} (hbusy : s.busy = false) (h : placeAt s.params addr .one = some pl) (b : Byte) :
    s.hostWrite addr (.byte b) = if pl.hostWritable then some (s.withMem (s.mem.store addr.toNat b)) else none := by
  have haddr := (placeAt_one_some h).1
  cases pl with
  | reg r => cases haddr
  | mat id i j => simp [State.hostWrite, Data.width, hbusy, h, haddr, Data.toByte]
  | list id q => simp [State.hostWrite, Data.width, hbusy, h, haddr, Data.toByte]
  | frag i o => simp [State.hostWrite, Data.width, hbusy, h, haddr, Data.toByte]
  | pay o => simp [State.hostWrite, Data.width, hbusy, h, haddr, Data.toByte]

/-- R63: the registers that no host write changes. -/
theorem writeReg_of_readOnly {r : RegName} {v : Word} (h : regAtOffset addr.toNat = some r)
    (hro : addr.toNat ∈ [0x04, 0x0C, 0x10, 0x14, 0x2C, 0x30]) : s.writeReg r v = none := by
  simp only [List.mem_cons, List.not_mem_nil, or_false] at hro
  rcases hro with ha | ha | ha | ha | ha | ha
  all_goals
    rw [ha] at h
    cases h
    rfl

end

/-! ## Steps that serve a transaction -/

section
variable {s : State} {addr : Word} {rest : List HostEvent}

theorem step_read_ok {n : Width} {d : Data} (hbusy : s.busy = false) (hhost : s.host = .memRead addr n :: rest)
    (hread : { s with host := rest }.hostRead addr n = some d) : step s = .next (answered s rest (.okayData d)) := by
  rw [step_of_idle hbusy hhost, State.serve, hread]
  rfl

theorem step_read_refused {n : Width} (hbusy : s.busy = false) (hhost : s.host = .memRead addr n :: rest)
    (hread : { s with host := rest }.hostRead addr n = none) :
    ∃ d, step s = .next (answered s rest (.errorData d)) := by
  rw [step_of_idle hbusy hhost, State.serve, hread]
  exact ⟨_, rfl⟩

theorem step_write_ok {v : Data} {t : State} (hbusy : s.busy = false) (hhost : s.host = .memWrite addr v :: rest)
    (hwrite : { s with host := rest }.hostWrite addr v = some t) : step s = .next (t.respond .okay) := by
  rw [step_of_idle hbusy hhost, State.serve, hwrite]

theorem step_write_refused {v : Data} (hbusy : s.busy = false) (hhost : s.host = .memWrite addr v :: rest)
    (hwrite : { s with host := rest }.hostWrite addr v = none) : step s = .next (answered s rest .error) := by
  rw [step_of_idle hbusy hhost, State.serve, hwrite]
  rfl

end

/-- Settles O8: each transaction is served by `step_of_busy`; only the read of `STATUS` finds a value. -/
theorem busyRefusesAllButStatusReads : Obligations.BusyRefusesAllButStatusReads := by
  intro s left e rest hbusy hleft hhost
  rw [step_of_busy hbusy hleft hhost]
  refine ⟨?_, ?_, ?_⟩
  · rintro addr v rfl
    rw [State.serve, hostWrite_of_busy (s := { s with host := rest, busyLeft := left }) hbusy]
    rfl
  · rintro addr n rfl hother
    rw [State.serve, hostRead_of_busy (s := { s with host := rest, busyLeft := left }) hbusy hother]
    exact ⟨_, rfl⟩
  · rintro rfl
    obtain ⟨hbit0, hbit1, hbit2⟩ := flagNumber_testBit s
    have hflags := flagNumber_lt s
    have hword := statusWord_toNat s
    rw [State.serve, hostRead_status]
    refine ⟨s.statusWord, rfl, ?_, ?_, ?_, by omega⟩
    · exact (statusWord_getLsbD s (by decide)).trans (hbit0.trans hbusy)
    · exact (statusWord_getLsbD s (by decide)).trans hbit1
    · exact (statusWord_getLsbD s (by decide)).trans hbit2

/-! ## Protected and reserved places -/

/-- R60: the byte spaces stand above the registers. -/
theorem byteExists_ge {p : Params} {a : Nat} (h : byteExists p a) : 0x10000000 ≤ a := by
  rcases h with ⟨id, i, j, -, -, -, rfl⟩ | ⟨id, q, -, -, rfl⟩ | ⟨i, o, -, -, rfl⟩ | ⟨o, -, rfl⟩
  · unfold matAddr; omega
  · unfold listAddr; omega
  · unfold fragAddr; omega
  · unfold payAddr; omega

/-- R63, R64, R65, R70: no host write at a read-only register, in `G` or in space LIST is stored. -/
theorem hostWrite_protected {s : State} {addr : Word} (hbusy : s.busy = false)
    (h : addr.toNat ∈ [0x04, 0x0C, 0x10, 0x14, 0x2C, 0x30] ∨ InG addr.toNat ∨ addr.toNat / 2 ^ 28 = 2) (v : Data) :
    s.hostWrite addr v = none := by
  cases hplace : placeAt s.params addr v.width with
  | none => exact hostWrite_of_no_place hplace
  | some pl =>
    cases v with
    | word w =>
      obtain ⟨r, rfl⟩ := placeAt_four_some hplace
      obtain ⟨-, hreg⟩ := regAtOffset_of_placeAt hplace
      have hlt := regAtOffset_lt hreg
      rw [hostWrite_register hbusy hplace]
      rcases h with hro | hG | hlist
      · exact writeReg_of_readOnly hreg hro
      · simp only [InG] at hG
        omega
      · omega
    | byte b =>
      obtain ⟨-, hexists, hprot⟩ := placeAt_one_some hplace
      rw [hostWrite_byte hbusy hplace, hprot.2, if_neg (by decide)]
      rcases h with hro | hG | hlist
      · have hge := byteExists_ge hexists
        simp only [List.mem_cons, List.not_mem_nil, or_false] at hro
        omega
      · exact .inl hG
      · exact .inr hlist

/-- Settles O15: by `hostWrite_protected`. -/
theorem protectedPlacesRefuseWrites : Obligations.ProtectedPlacesRefuseWrites :=
  fun s _ v rest hbusy hhost hprot =>
    step_write_refused hbusy hhost (hostWrite_protected (s := { s with host := rest }) hbusy hprot v)

/-- Settles O18: an address that is not legal names no place. -/
theorem reservedAddressesAnswerError : Obligations.ReservedAddressesAnswerError := by
  intro s addr rest _ hbusy
  refine ⟨fun n hlegal hhost => ?_, fun v hlegal hhost => ?_⟩
  · exact step_read_refused hbusy hhost (hostRead_of_no_place (placeAt_of_not_legal hlegal))
  · exact step_write_refused hbusy hhost (hostWrite_of_no_place (placeAt_of_not_legal hlegal))

/-! ## Bytes that exist -/

/-- R7: the payload memory ends below the end of its space. -/
theorem psize_lt {p : Params} (hp : p.Valid) : p.psize < 2 ^ 28 := by
  obtain ⟨-, -, -, hmax, -, hlmax⟩ := hp
  have hle : p.kmax * p.lmax ≤ 254 * 2 ^ 20 := Nat.mul_le_mul (by unfold Params.kmax; omega) hlmax
  unfold Params.psize
  omega

theorem byteExists_lt {p : Params} (hp : p.Valid) {a : Nat} (h : byteExists p a) : a < 2 ^ 32 := by
  have hps := psize_lt hp
  obtain ⟨-, -, -, hmax, -, hlmax⟩ := hp
  rcases h with ⟨id, i, j, hid, hi, hj, rfl⟩ | ⟨id, q, hid, hq, rfl⟩ | ⟨i, o, hi, ho, rfl⟩ | ⟨o, ho, rfl⟩
  · unfold matAddr; omega
  · unfold listAddr; omega
  · unfold fragAddr; omega
  · unfold payAddr; omega

/-- R60 to R66: a byte that exists is reached at its bus address. -/
theorem placeAt_ofNat {p : Params} (hp : p.Valid) {a : Nat} (h : byteExists p a) :
    (BitVec.ofNat 32 a).toNat = a ∧ ∃ pl, placeAt p (BitVec.ofNat 32 a) .one = some pl := by
  have haddr : (BitVec.ofNat 32 a).toNat = a := by
    rw [BitVec.toNat_ofNat, Nat.mod_eq_of_lt (byteExists_lt hp h)]
  exact ⟨haddr, placeAt_one_of_byteExists hp (haddr.symm ▸ h)⟩

/-- R64 to R66: the step that answers an idle read of a byte. -/
theorem step_read_byte {s : State} {a : Nat} {rest : List HostEvent} (hp : s.params.Valid) (hbusy : s.busy = false)
    (h : byteExists s.params a) (hhost : s.host = .memRead (BitVec.ofNat 32 a) .one :: rest) :
    step s = .next (answered s rest (.okayData (.byte (s.sample a)))) := by
  obtain ⟨haddr, pl, hplace⟩ := placeAt_ofNat hp h
  have hread := hostRead_byte (s := { s with host := rest }) hbusy hplace
  rw [haddr] at hread
  exact step_read_ok hbusy hhost hread

/-- R64, R66: the state after a host's write of a byte is stored and answered, with the events `rest` still to come. -/
def State.stored (s : State) (rest : List HostEvent) (a : Nat) (b : Byte) : State :=
  (({ s with host := rest } : State).withMem (s.mem.store a b)).respond .okay

theorem stored_valueAt (s : State) (rest : List HostEvent) (a : Nat) (b : Byte) (x : Nat) :
    (s.stored rest a b).valueAt x = if x = a then some b else s.valueAt x := Memory.byteAt_store s.mem a b x

/-- R64, R66: the step that stores an idle write of a byte outside `G` and the lists. -/
theorem step_write_byte {s : State} {a : Nat} {b : Byte} {rest : List HostEvent} (hp : s.params.Valid) (hbusy : s.busy = false)
    (h : byteExists s.params a) (hG : ¬InG a) (hL : a / 2 ^ 28 ≠ 2)
    (hhost : s.host = .memWrite (BitVec.ofNat 32 a) (.byte b) :: rest) : step s = .next (s.stored rest a b) := by
  obtain ⟨haddr, pl, hplace⟩ := placeAt_ofNat hp h
  obtain ⟨-, -, hprot⟩ := placeAt_one_some hplace
  rw [haddr] at hprot
  have hwritable : pl.hostWritable = true := by
    rw [← Bool.not_eq_false]
    exact fun hno => (hprot.1 hno).elim hG hL
  have hwrite := hostWrite_byte (s := { s with host := rest }) hbusy hplace b
  rw [haddr, if_pos hwritable] at hwrite
  exact step_write_ok hbusy hhost hwrite

/-- Settles O17: the answer is the draw of the byte. -/
theorem hostReadOfAByte : Obligations.HostReadOfAByte :=
  fun _ _ _ hp hbusy hexists hhost =>
    ⟨_, step_read_byte hp hbusy hexists hhost, fun _ hv => State.sample_of_valueAt hv⟩

/-- R64, R66: the bytes the host may write exist, outside `G` and the lists. -/
theorem byteExists_of_writable {p : Params} (hp : p.Valid) {a : Nat}
    (h : (∃ id i j, 1 ≤ id ∧ id ≤ 4 ∧ i < p.mmax ∧ j < p.mmax ∧ a = 0x10000000 + id * 0x10000 + i * 0x100 + j) ∨
      (∃ i o, i < p.mmax ∧ o < p.lmax ∧ a = 0x30000000 + i * 0x100000 + o) ∨ ∃ o, o < p.psize ∧ a = 0x40000000 + o) :
    byteExists p a ∧ ¬InG a ∧ a / 2 ^ 28 ≠ 2 := by
  have hps := psize_lt hp
  obtain ⟨-, -, -, hmax, -, hlmax⟩ := hp
  unfold InG
  rcases h with ⟨id, i, j, hlo, hhi, hi, hj, rfl⟩ | ⟨i, o, hi, ho, rfl⟩ | ⟨o, ho, rfl⟩
  · exact ⟨.inl ⟨id, i, j, hhi, hi, hj, rfl⟩, by omega, by omega⟩
  · exact ⟨.inr (.inr (.inl ⟨i, o, hi, ho, rfl⟩)), by omega, by omega⟩
  · exact ⟨.inr (.inr (.inr ⟨o, ho, rfl⟩)), by omega, by omega⟩

/-- Settles O16: the stored byte is specified, so that the read after it draws that byte. -/
theorem hostByteReadsBackAsWritten : Obligations.HostByteReadsBackAsWritten := by
  intro s a b rest hp hbusy ha hhost
  obtain ⟨hexists, hG, hL⟩ := byteExists_of_writable hp ha
  refine ⟨_, step_write_byte hp hbusy hexists hG hL hhost, rfl, ?_, fun x hx => ?_⟩
  · have hread := step_read_byte (s := s.stored (.memRead (BitVec.ofNat 32 a) .one :: rest) a b) hp hbusy hexists rfl
    rwa [State.sample_of_valueAt ((stored_valueAt ..).trans (if_pos rfl))] at hread
  · rw [stored_valueAt, if_neg hx]

end Sys2Proof.Machine
end

section
/-! # What each command may write (O24)

`footprint` is the column "E write" of R70's table, one row per command. `Within` says that a state differs from another one
at most where a footprint allows it; each command's operation stays within its footprint. -/

namespace Sys2Proof.Machine

open Sys2Proof.Claims

/-! ## The memories by address -/

/-- R40 to R45: the memories of the block: `MAT[id]`, the two lists, the fragment buffers and the payload memory. -/
inductive MemoryName where
  | none
  | mat (id : Nat)
  | lists
  | frag
  | pay

/-- R60 to R66: the memory a bus address belongs to; space REG holds none. -/
def memoryOf (a : Nat) : MemoryName :=
  if a < 0x10000000 then .none
  else if a < 0x20000000 then .mat ((a - 0x10000000) / 2 ^ 16)
  else if a < 0x30000000 then .lists
  else if a < 0x40000000 then .frag
  else .pay

theorem memoryOf_matAddr {id i j : Nat} (hid : id ≤ 4) (hi : i < 256) (hj : j < 256) :
    memoryOf (matAddr id i j) = .mat id := by
  have hdiv : (matAddr id i j - 0x10000000) / 2 ^ 16 = id := by unfold matAddr; omega
  rw [memoryOf, if_neg (by unfold matAddr; omega), if_pos (by unfold matAddr; omega), hdiv]

theorem memoryOf_of_inG {a : Nat} (h : InG a) : memoryOf a = .mat idG := by
  obtain ⟨hlo, hhi⟩ := h
  have hdiv : (a - 0x10000000) / 2 ^ 16 = 0 := by omega
  rw [memoryOf, if_neg (by omega), if_pos (by omega), hdiv, idG]

theorem memoryOf_of_inLists {a : Nat} (h : InLists a) : memoryOf a = .lists := by
  obtain ⟨hlo, hhi⟩ := h
  rw [memoryOf, if_neg (by omega), if_neg (by omega), if_pos (by omega)]

theorem memoryOf_of_inFrag {a : Nat} (h : InFrag a) : memoryOf a = .frag := by
  obtain ⟨hlo, hhi⟩ := h
  rw [memoryOf, if_neg (by omega), if_neg (by omega), if_neg (by omega), if_pos hhi]

theorem memoryOf_of_inPay {a : Nat} (h : InPay a) : memoryOf a = .pay := by
  unfold InPay at h
  rw [memoryOf, if_neg (by omega), if_neg (by omega), if_neg (by omega), if_neg (by omega)]

theorem memoryOf_listAddr {id q : Nat} (hid : id ≤ 1) (hq : q < 256) : memoryOf (listAddr id q) = .lists :=
  memoryOf_of_inLists (inLists_listAddr hid hq)

theorem memoryOf_fragAddr {i o : Nat} (hi : i < 256) (ho : o < 2 ^ 20) : memoryOf (fragAddr i o) = .frag :=
  memoryOf_of_inFrag (by unfold InFrag fragAddr; omega)

/-- `m` agrees with `m₀` on every byte outside the memories `L`. -/
def Memory.SameOutside (L : List MemoryName) (m₀ m : Memory) : Prop := ∀ a, memoryOf a ∉ L → m.byteAt a = m₀.byteAt a

namespace Memory.SameOutside

variable {L : List MemoryName} {m₀ m : Memory}

theorem refl (m : Memory) : SameOutside L m m := fun _ _ => rfl

theorem fillMatrix (h : SameOutside L m₀ m) {id rows cols : Nat} (hL : .mat id ∈ L) (hid : id ≤ 4) (hr : rows ≤ 256)
    (hc : cols ≤ 256) (f : Nat → Nat → Option Byte) : SameOutside L m₀ (m.fillMatrix id rows cols f) := fun a ha => by
  rw [Memory.byteAt_fillMatrix_off _ _ _ _ _ _ hc, h a ha]
  rintro i j hi hj rfl
  rw [memoryOf_matAddr hid (by omega) (by omega)] at ha
  exact ha hL

theorem fillList (h : SameOutside L m₀ m) {id n : Nat} (hL : .lists ∈ L) (hid : id ≤ 1) (hn : n ≤ 256)
    (f : Nat → Option Byte) : SameOutside L m₀ (m.fillList id n f) := fun a ha => by
  rw [Memory.byteAt_fillList, if_neg, h a ha]
  rintro ⟨hlo, hhi⟩
  have he : a = listAddr id (a - listAddr id 0) := by unfold listAddr at *; omega
  rw [he, memoryOf_listAddr hid (by omega)] at ha
  exact ha hL

theorem fillFragments (h : SameOutside L m₀ m) {first count n : Nat} (hL : .frag ∈ L) (hc : first + count ≤ 256)
    (hn : n ≤ 2 ^ 20) (f : Nat → Nat → Option Byte) : SameOutside L m₀ (m.fillFragments first count n f) := fun a ha => by
  rw [Memory.byteAt_fillFragments_off _ _ _ _ _ _ hn, h a ha]
  rintro i o hi ho rfl
  rw [memoryOf_fragAddr (by omega) (by omega)] at ha
  exact ha hL

theorem fillPayload (h : SameOutside L m₀ m) (hL : .pay ∈ L) (n : Nat) (f : Nat → Option Byte) :
    SameOutside L m₀ (m.fillPayload n f) := fun a ha => by
  rw [Memory.byteAt_fillPayload, if_neg, h a ha]
  rintro ⟨hlo, -⟩
  rw [memoryOf_of_inPay hlo] at ha
  exact ha hL

theorem forgetG (h : SameOutside L m₀ m) (hL : .mat idG ∈ L) : SameOutside L m₀ m.forgetG := fun a ha => by
  rw [Memory.byteAt_forgetG, if_neg, h a ha]
  intro hG
  rw [memoryOf_of_inG hG] at ha
  exact ha hL

end Memory.SameOutside

/-! ## Footprints -/

/-- R70: which of these registers and memories a command may write. `counts` stands for `NERRS` and `NSRCERRS`. -/
structure Footprint where
  res : Bool := false
  len : Bool := false
  plen : Bool := false
  present : Bool := false
  counts : Bool := false
  memories : List MemoryName := []

/-- What `F` allows `G` allows too. -/
def Footprint.Le (F G : Footprint) : Prop :=
  (G.res = false → F.res = false) ∧ (G.len = false → F.len = false) ∧ (G.plen = false → F.plen = false) ∧
    (G.present = false → F.present = false) ∧ (G.counts = false → F.counts = false) ∧ F.memories ⊆ G.memories

/-- R70, column "E write". -/
def footprint : Instr → Footprint
  | .nop => {}
  | .gfmul _ _ | .gfdiv _ _ | .gfinv _ => { res := true }
  | .matmul dst _ _ | .invert dst _ => { memories := [.mat dst] }
  | .init _ _ _ | .deinit => { memories := [.mat idG] }
  | .gendec => { counts := true, memories := [.lists, .mat idB, .mat idBinv, .mat idD] }
  | .recon | .parity => { present := true, memories := [.frag] }
  | .frame | .encode => { len := true, present := true, memories := [.frag] }
  | .unframe => { plen := true, memories := [.pay] }
  | .decode =>
    { plen := true, present := true, counts := true
      memories := [.lists, .mat idB, .mat idBinv, .mat idD, .frag, .pay] }

/-- `t` differs from `s` in these registers and memories only where `F` allows it. -/
structure Within (F : Footprint) (s t : State) : Prop where
  params : t.params = s.params
  res : F.res = false → t.res = s.res
  len : F.len = false → t.len = s.len
  plen : F.plen = false → t.plen = s.plen
  present : F.present = false → t.present = s.present
  counts : F.counts = false → t.nerrs = s.nerrs ∧ t.nsrcerrs = s.nsrcerrs
  bytes : s.mem.SameOutside F.memories t.mem

namespace Within

variable {F G : Footprint} {s t u : State}

theorem refl (F : Footprint) (s : State) : Within F s s :=
  ⟨rfl, fun _ => rfl, fun _ => rfl, fun _ => rfl, fun _ => rfl, fun _ => ⟨rfl, rfl⟩, .refl _⟩

theorem trans (h₁ : Within F s t) (h₂ : Within F t u) : Within F s u where
  params := h₂.params.trans h₁.params
  res h := (h₂.res h).trans (h₁.res h)
  len h := (h₂.len h).trans (h₁.len h)
  plen h := (h₂.plen h).trans (h₁.plen h)
  present h := (h₂.present h).trans (h₁.present h)
  counts h := ⟨(h₂.counts h).1.trans (h₁.counts h).1, (h₂.counts h).2.trans (h₁.counts h).2⟩
  bytes a ha := (h₂.bytes a ha).trans (h₁.bytes a ha)

theorem mono (h : Within F s t) (hle : F.Le G) : Within G s t := by
  obtain ⟨hres, hlen, hplen, hpresent, hcounts, hmemories⟩ := hle
  exact ⟨h.params, fun h0 => h.res (hres h0), fun h0 => h.len (hlen h0), fun h0 => h.plen (hplen h0),
    fun h0 => h.present (hpresent h0), fun h0 => h.counts (hcounts h0), fun a ha => h.bytes a fun hF => ha (hmemories hF)⟩

theorem withMem {m : Memory} (h : s.mem.SameOutside F.memories m) : Within F s (s.withMem m) :=
  ⟨rfl, fun _ => rfl, fun _ => rfl, fun _ => rfl, fun _ => rfl, fun _ => ⟨rfl, rfl⟩, h⟩

end Within

/-! ## Every command stays within its footprint -/

section
variable {s : State}

theorem lmax_le (hp : s.params.Valid) : s.params.lmax ≤ 2 ^ 20 := by
  obtain ⟨-, -, -, -, -, hlmax⟩ := hp
  exact hlmax

theorem scalarResult_within (s : State) (v : Option Byte) : Within { res := true } s (scalarResult s v).state := by
  obtain ⟨x, h⟩ := scalarResult_state s v
  rw [h]
  exact ⟨rfl, nofun, fun _ => rfl, fun _ => rfl, fun _ => rfl, fun _ => ⟨rfl, rfl⟩, .refl _⟩

/-- A corner that a matrix command writes. -/
theorem fillMatrix_within {dst rows cols : Nat} (hdst : dst ≤ 4) (hr : rows ≤ 256) (hc : cols ≤ 256)
    (f : Nat → Nat → Option Byte) :
    Within { memories := [.mat dst] } s (s.withMem (s.mem.fillMatrix dst rows cols f)) :=
  .withMem ((Memory.SameOutside.refl _).fillMatrix List.mem_cons_self hdst hr hc f)

theorem matmulEnd_within (dst s1 s2 : Nat) (s : State) :
    Within { memories := [.mat dst] } s (matmulEnd dst s1 s2 s).state := by
  unfold matmulEnd
  split_ifs with hid
  · exact .refl _ s
  · exact .refl _ s
  · exact fillMatrix_within (by omega) (by omega) (by omega) _
  · exact .refl _ s

theorem invertEnd_within (dst s1 : Nat) (s : State) : Within { memories := [.mat dst] } s (invertEnd dst s1 s).state := by
  unfold invertEnd
  dsimp only
  split_ifs with hid
  · exact .refl _ s
  · exact .refl _ s
  · split
    · exact fillMatrix_within (by omega) (by omega) (by omega) _
    · exact fillMatrix_within (by omega) (by omega) (by omega) _
  · exact .refl _ s

theorem unconfigure_within (s : State) : Within { memories := [.mat idG] } s s.unconfigure :=
  ⟨rfl, fun _ => rfl, fun _ => rfl, fun _ => rfl, fun _ => rfl, fun _ => ⟨rfl, rfl⟩,
    (Memory.SameOutside.refl _).forgetG List.mem_cons_self⟩

theorem initEnd_within (hp : s.params.Valid) (m k : Nat) (strat : Strategy) :
    Within { memories := [.mat idG] } s (initEnd m k strat s).state := by
  by_cases hacc : ConfigurationAccepted s.params m k strat
  · rw [initEnd_of_accepted hacc]
    obtain ⟨-, -, -, hmax, -, -⟩ := hp
    obtain ⟨-, hkm, hm, -⟩ := hacc
    have hmem := (Memory.SameOutside.refl s.mem).forgetG (L := [.mat idG]) List.mem_cons_self
    exact ⟨rfl, fun _ => rfl, fun _ => rfl, fun _ => rfl, fun _ => rfl, fun _ => ⟨rfl, rfl⟩,
      hmem.fillMatrix List.mem_cons_self (by decide) (by omega) (by omega) _⟩
  · rw [initEnd_of_refused hacc]
    exact unconfigure_within s

theorem frameEnd_within (hp : s.params.Valid) : Within (footprint .frame) s (frameEnd s).state := by
  rcases frameEnd_cases s with ⟨e, h⟩ | ⟨-, hfits, h⟩
  · rw [h]; exact .refl _ s
  · rw [h]
    have hk := k_lt s
    have hlmax := lmax_le hp
    exact ⟨rfl, fun _ => rfl, nofun, fun _ => rfl, nofun, fun _ => ⟨rfl, rfl⟩,
      (Memory.SameOutside.refl _).fillFragments List.mem_cons_self (by omega) (by omega) _⟩

theorem parityEnd_within (hp : s.params.Valid) : Within (footprint .parity) s (parityEnd s).state := by
  unfold parityEnd
  split_ifs with hc hl
  · exact .refl _ s
  · exact .refl _ s
  · split
    · exact .refl _ s
    · have hk := k_lt s
      have hm := m_lt s
      have hle := lengthLegal_le hl
      have hlmax := lmax_le hp
      exact ⟨rfl, fun _ => rfl, fun _ => rfl, fun _ => rfl, nofun, fun _ => ⟨rfl, rfl⟩,
        (Memory.SameOutside.refl _).fillFragments List.mem_cons_self (by unfold State.r; omega) (by omega) _⟩

theorem unframeEnd_within (s : State) : Within (footprint .unframe) s (unframeEnd s).state := by
  unfold unframeEnd
  split_ifs
  · exact .refl _ s
  · exact .refl _ s
  · split
    · exact .refl _ s
    · split
      · exact .refl _ s
      · exact ⟨rfl, fun _ => rfl, fun _ => rfl, nofun, fun _ => rfl, fun _ => ⟨rfl, rfl⟩,
          (Memory.SameOutside.refl _).fillPayload List.mem_cons_self _ _⟩

/-- R170: `DIDX`, `B`, `BINV` and `D` after a synthesis, whether it failed or succeeded. -/
theorem synthesis_sameOutside {L : List MemoryName} (hL : [.lists, .mat idB, .mat idBinv, .mat idD] ⊆ L) {m₀ m : Memory}
    (h : m₀.SameOutside L m) {k nerrs : Nat} (hk : k ≤ 256) (hn : nerrs ≤ 256) :
    m₀.SameOutside L (m.forgetSynthesis k) ∧
      ∀ didx B Binv rows, m₀.SameOutside L (m.writeSynthesis k nerrs didx B Binv rows) := by
  simp only [List.cons_subset] at hL
  obtain ⟨hlists, hB, hBinv, hD, -⟩ := hL
  exact ⟨((h.fillList hlists (by decide) hk _).fillMatrix hB (by decide) hk hk _).fillMatrix hBinv (by decide) hk hk _,
    fun didx B Binv rows => (((h.fillList hlists (by decide) hk _).fillMatrix hB (by decide) hk hk _).fillMatrix hBinv
      (by decide) hk hk _).fillMatrix hD (by decide) hn hk _⟩

theorem gendecEnd_within (s : State) : Within (footprint .gendec) s (gendecEnd s).state := by
  have hk := k_lt s
  have hm := m_lt s
  have hle := errorCount_le s
  have herrl : s.mem.SameOutside (footprint .gendec).memories s.writeDescriptor.mem :=
    (Memory.SameOutside.refl _).fillList List.mem_cons_self (by decide) (by omega) _
  obtain ⟨hforget, hwrite⟩ := synthesis_sameOutside (List.Subset.refl _) herrl (k := s.k) (nerrs := s.errorCount)
    (by omega) (by omega)
  unfold gendecEnd
  split_ifs
  · exact .refl _ s
  · unfold gendecBody
    dsimp only
    split_ifs
    · exact ⟨rfl, fun _ => rfl, fun _ => rfl, fun _ => rfl, fun _ => rfl, nofun, herrl⟩
    · split
      · exact ⟨rfl, fun _ => rfl, fun _ => rfl, fun _ => rfl, fun _ => rfl, nofun, hforget⟩
      · exact ⟨rfl, fun _ => rfl, fun _ => rfl, fun _ => rfl, fun _ => rfl, nofun, hwrite _ _ _ _⟩

theorem reconEnd_within (hp : s.params.Valid) : Within (footprint .recon) s (reconEnd s).state := by
  unfold reconEnd
  split_ifs with hc hd hl
  · exact .refl _ s
  · exact .refl _ s
  · exact .refl _ s
  · have hle := lengthLegal_le hl
    have hlmax := lmax_le hp
    rw [CommandEnd.state_ok, rebuild_eq]
    refine ⟨rfl, fun _ => rfl, fun _ => rfl, fun _ => rfl, nofun, fun _ => ⟨rfl, rfl⟩, fun a ha => ?_⟩
    refine rebuild_valueAt_off s _ a ?_
    rintro p o - ho rfl
    rw [memoryOf_fragAddr (lostFragment_lt s p) (by omega)] at ha
    exact ha List.mem_cons_self

end

/-- A second stage starts from the state of a first one that ended `OK`, with the same parameters. -/
theorem CommandEnd.andThen_within {F : Footprint} {s : State} {c : CommandEnd} {f : State → CommandEnd}
    (h : Within F s c.state) (hf : ∀ t : State, t.params = s.params → Within F t (f t).state) :
    Within F s (c.andThen f).state := by
  cases c with
  | ok t => exact h.trans (hf t h.params)
  | error e info t => exact h

theorem CommandEnd.clearDvOnError_within {F : Footprint} {s : State} {c : CommandEnd} (h : Within F s c.state) :
    Within F s c.clearDvOnError.state := by
  cases c with
  | ok t => exact h
  | error e info t => exact ⟨h.params, h.res, h.len, h.plen, h.present, h.counts, h.bytes⟩

theorem encodeEnd_within {s : State} (hp : s.params.Valid) : Within (footprint .encode) s (encodeEnd s).state :=
  CommandEnd.andThen_within (frameEnd_within hp) fun t ht =>
    (parityEnd_within (s := t) (ht ▸ hp)).mono (by simp [Footprint.Le, footprint])

theorem decodeEnd_within {s : State} (hp : s.params.Valid) : Within (footprint .decode) s (decodeEnd s).state := by
  unfold decodeEnd
  split_ifs
  · exact .refl _ s
  · exact .refl _ s
  · refine CommandEnd.andThen_within (CommandEnd.andThen_within ?_ fun t ht => ?_) fun t _ => ?_
    · exact (gendecEnd_within s).mono (by simp [Footprint.Le, footprint])
    · exact (reconEnd_within (s := t) (ht ▸ hp)).mono (by simp [Footprint.Le, footprint])
    · exact (CommandEnd.clearDvOnError_within (unframeEnd_within t)).mono (by simp [Footprint.Le, footprint])

/-- R70: every command's operation stays within the command's row of the table. -/
theorem commandEnd_within (i : Instr) {s : State} (hp : s.params.Valid) : Within (footprint i) s (commandEnd i s).state := by
  cases i with
  | nop => exact .refl _ s
  | gfmul a b => exact scalarResult_within s (some (mul s.params.poly a b))
  | gfdiv a b => exact scalarResult_within s (gdiv s.params.poly a b)
  | gfinv a => exact scalarResult_within s (inverse s.params.poly a)
  | matmul dst s1 s2 => exact matmulEnd_within dst s1 s2 s
  | invert dst s1 => exact invertEnd_within dst s1 s
  | init m k strat => exact initEnd_within hp m k strat
  | deinit => exact unconfigure_within s
  | gendec => exact gendecEnd_within s
  | recon => exact reconEnd_within hp
  | frame => exact frameEnd_within hp
  | parity => exact parityEnd_within hp
  | unframe => exact unframeEnd_within s
  | encode => exact encodeEnd_within hp
  | decode => exact decodeEnd_within hp

/-! ## The report of an end -/

/-- R224: the report of an end writes none of these registers and memories. -/
theorem CommandEnd.next_within {F : Footprint} {s : State} {c : CommandEnd} (h : Within F s c.state) : Within F s c.next := by
  cases c with
  | ok t => exact ⟨h.params, h.res, h.len, h.plen, h.present, h.counts, h.bytes⟩
  | error e info t => exact ⟨h.params, h.res, h.len, h.plen, h.present, h.counts, h.bytes⟩

/-- R23, R31, R61: what only the host's transactions write. -/
def State.hostSide (s : State) : Word × Byte × Byte × Byte × List HostEvent × List Response :=
  (s.cmd, s.dim1, s.dim2, s.dim3, s.host, s.responses)

theorem CommandEnd.next_hostSide (c : CommandEnd) : c.next.hostSide = c.state.hostSide := by cases c <;> rfl

theorem commandEnd_hostSide (i : Instr) (s : State) : (commandEnd i s).next.hostSide = s.hostSide :=
  (CommandEnd.next_hostSide _).trans (congrArg State.hostSide (commandEnd_control i s) :)

/-! ## The columns of the table -/

section
variable {i : Instr}

theorem footprint_res (h : ∀ a b, i ≠ .gfmul a b ∧ i ≠ .gfdiv a b ∧ i ≠ .gfinv a) : (footprint i).res = false := by
  cases i with
  | gfmul a b => exact absurd rfl (h a b).1
  | gfdiv a b => exact absurd rfl (h a b).2.1
  | gfinv a => exact absurd rfl (h a 0#8).2.2
  | _ => rfl

theorem footprint_len (h : i ∉ [.frame, .encode]) : (footprint i).len = false := by
  revert h
  cases i <;> simp [footprint]

theorem footprint_plen (h : i ∉ [.unframe, .decode]) : (footprint i).plen = false ∧ .pay ∉ (footprint i).memories := by
  revert h
  cases i <;> simp [footprint]

theorem footprint_present (h : i ∉ [.frame, .parity, .encode, .recon, .decode]) :
    (footprint i).present = false ∧ .frag ∉ (footprint i).memories := by
  revert h
  cases i <;> simp [footprint]

theorem footprint_counts (h : i ∉ [.gendec, .decode]) :
    (footprint i).counts = false ∧ .lists ∉ (footprint i).memories := by
  revert h
  cases i <;> simp [footprint]

/-- R70: `MAT[id]` other than `G` is written by the matrix commands that name it and, for `B`, `BINV` and `D`, by GENDEC and
DECODE. -/
theorem footprint_mat {id : Nat} (hG : id ≠ idG) (hdecode : i ∉ [.gendec, .decode] ∨ 3 < id)
    (hname : ∀ s1 s2, i ≠ .matmul id s1 s2 ∧ i ≠ .invert id s1) : .mat id ∉ (footprint i).memories := by
  intro hmem
  cases i with
  | matmul dst s1 s2 =>
    obtain rfl : id = dst := by simpa [footprint] using hmem
    exact (hname s1 s2).1 rfl
  | invert dst s1 =>
    obtain rfl : id = dst := by simpa [footprint] using hmem
    exact (hname s1 0).2 rfl
  | init m k strat => exact hG (by simpa [footprint] using hmem)
  | deinit => exact hG (by simpa [footprint] using hmem)
  | gendec =>
    have hid : id = 1 ∨ id = 2 ∨ id = 3 := by simpa [footprint, idB, idBinv, idD] using hmem
    have hlt : 3 < id := hdecode.resolve_left (by simp)
    omega
  | decode =>
    have hid : id = 1 ∨ id = 2 ∨ id = 3 := by simpa [footprint, idB, idBinv, idD] using hmem
    have hlt : 3 < id := hdecode.resolve_left (by simp)
    omega
  | _ => simp [footprint] at hmem

end

/-- Settles O24: the host's side by `commandEnd_hostSide`, the configuration and `G` by `commandEnd_frame`, and every other
column by the command's footprint. -/
theorem commandsWriteOnlyWhatTheTableAllows : Obligations.CommandsWriteOnlyWhatTheTableAllows := by
  intro i s t hp hexec
  obtain rfl := exec_next_iff.1 hexec
  have hwithin := CommandEnd.next_within (commandEnd_within i hp)
  have hhost := commandEnd_hostSide i s
  simp only [State.hostSide, Prod.mk.injEq] at hhost
  obtain ⟨hcmd, hdim1, hdim2, hdim3, hevents, hresponses⟩ := hhost
  have hbytes : ∀ {M : MemoryName}, M ∉ (footprint i).memories → ∀ a, memoryOf a = M →
      (commandEnd i s).next.valueAt a = s.valueAt a := fun hM a ha => hwithin.bytes a (ha ▸ hM)
  refine ⟨hcmd, hdim1, hdim2, hdim3, hwithin.params, hevents, hresponses, fun h => hwithin.res (footprint_res h),
    fun hinit hdeinit => ?_, fun h => hwithin.len (footprint_len h), fun h => ?_, fun h => ?_, fun h => ?_,
    fun id hlo hhi h hname r c hr hc => ?_, fun hname r c hr hc => ?_⟩
  · rcases commandEnd_frame i s with ⟨m, k, strat, rfl⟩ | rfl | hframe
    · exact absurd rfl (hinit m k strat)
    · exact absurd rfl hdeinit
    · obtain ⟨hregs, hG⟩ := CommandEnd.next_sameConfiguration hframe.toSameConfiguration
      simp only [State.configuration, Prod.mk.injEq] at hregs
      obtain ⟨hv, hM, hK, hstrat⟩ := hregs
      exact ⟨hv, hM, hK, hstrat, hG⟩
  · obtain ⟨hplen, hpay⟩ := footprint_plen h
    exact ⟨hwithin.plen hplen, fun a ha => hbytes hpay a (memoryOf_of_inPay ha)⟩
  · obtain ⟨hpresent, hfrag⟩ := footprint_present h
    exact ⟨hwithin.present hpresent, fun a ha => hbytes hfrag a (memoryOf_of_inFrag ha)⟩
  · obtain ⟨hcounts, hlists⟩ := footprint_counts h
    obtain ⟨hnerrs, hnsrcerrs⟩ := hwithin.counts hcounts
    exact ⟨hnerrs, hnsrcerrs, fun a ha => hbytes hlists a (memoryOf_of_inLists ha)⟩
  · have hid : id ≠ idG := Nat.ne_of_gt hlo
    exact hbytes (footprint_mat hid (.inl h) hname) _ (memoryOf_matAddr (by omega) hr hc)
  · exact hbytes (footprint_mat (by decide) (.inr (by decide)) hname) _ (memoryOf_matAddr (by decide) hr hc)

end Sys2Proof.Machine
end

section
/-! # The encoding of commands (O1 to O5)

A word decodes to `i` exactly when its opcode is that of `i`, the reserved bits of the format of `i` are 0, and the operands read
from the word are those of `i` (`decode_eq_ok_iff`). The two directions of the round trip and the agreement with the opcode
table are facts about these three conditions. -/

namespace Sys2Proof

/-- R81, R82: the command with its operands read from the word. -/
def Instr.withOperandsOf (w : Word) : Instr → Instr
  | .gfmul _ _ => .gfmul (byteField w 8) (byteField w 16)
  | .gfdiv _ _ => .gfdiv (byteField w 8) (byteField w 16)
  | .gfinv _ => .gfinv (byteField w 8)
  | .matmul _ _ _ => .matmul (field w 8 4) (field w 12 4) (field w 16 4)
  | .invert _ _ => .invert (field w 8 4) (field w 12 4)
  | .init _ _ _ => .init (field w 8 8) (field w 16 8) (strategyField w)
  | i => i

/-- R84, R85: the word has the opcode of the command and 0 in the reserved bits of the command's format. -/
structure HasFormOf (w : Word) (i : Instr) : Prop where
  opcode : field w 0 8 = i.opcode
  reserved : field w i.firstReservedBit (32 - i.firstReservedBit) = 0

theorem field_lt (w : Word) (lo width : Nat) : field w lo width < 2 ^ width := Nat.mod_lt _ (Nat.two_pow_pos width)

@[simp] theorem byteField_toNat (w : Word) (lo : Nat) : (byteField w lo).toNat = field w lo 8 := by
  rw [byteField, BitVec.toNat_ofNat, Nat.mod_eq_of_lt (field_lt w lo 8)]

@[simp] theorem strategyBit_strategyField (w : Word) : strategyBit (strategyField w) = field w 24 1 := by
  have hlt := field_lt w 24 1
  unfold strategyField
  split
  · simp only [strategyBit, *]
  · simp only [strategyBit]
    omega

/-! ## The decoder -/

theorem ifReservedZero_eq_ok_iff {w : Word} {lo : Nat} {i j : Instr} :
    ifReservedZero w lo i = .ok j ↔ field w lo (32 - lo) = 0 ∧ i = j := by
  unfold ifReservedZero
  split <;> simp [*]

theorem decode_of_opcode {w : Word} {i : Instr} (h : field w 0 8 = i.opcode) :
    decode w = ifReservedZero w i.firstReservedBit (i.withOperandsOf w) := by
  cases i <;> simp only [decode, h, Instr.opcode] <;> rfl

theorem decode_of_hasFormOf {w : Word} {i : Instr} (h : HasFormOf w i) : decode w = .ok (i.withOperandsOf w) := by
  rw [decode_of_opcode h.opcode, ifReservedZero_eq_ok_iff]
  exact ⟨h.reserved, rfl⟩

/-- R83, R85: what it means for a word to decode to a command. -/
theorem decode_eq_ok_iff {w : Word} {i : Instr} : decode w = .ok i ↔ HasFormOf w i ∧ i.withOperandsOf w = i := by
  constructor
  · intro h
    unfold decode at h
    split at h
    case h_16 => cases h
    all_goals
      obtain ⟨hreserved, rfl⟩ := ifReservedZero_eq_ok_iff.1 h
      exact ⟨⟨‹_›, hreserved⟩, rfl⟩
  · rintro ⟨hform, hoperands⟩
    rw [decode_of_hasFormOf hform, hoperands]

/-! ## Operands read back from an encoded command -/

theorem byteField_formatS {op : Nat} (hop : op < 256) (a b : Byte) :
    byteField (formatS op a b) 8 = a ∧ byteField (formatS op a b) 16 = b := by
  have ha := a.isLt
  have hb := b.isLt
  constructor <;> apply BitVec.eq_of_toNat_eq <;>
    simp only [byteField_toNat, field, formatS, BitVec.toNat_ofNat] <;> omega

theorem field_formatM {op dst s1 s2 : Nat} (hop : op < 256) (hdst : dst < 16) (h1 : s1 < 16) (h2 : s2 < 16) :
    field (formatM op dst s1 s2) 8 4 = dst ∧ field (formatM op dst s1 s2) 12 4 = s1 ∧
      field (formatM op dst s1 s2) 16 4 = s2 := by
  simp only [field, formatM, BitVec.toNat_ofNat]
  omega

theorem strategyBit_lt (strat : Strategy) : strategyBit strat < 2 := by cases strat <;> decide

theorem field_formatC {op m k : Nat} (hop : op < 256) (hm : m < 256) (hk : k < 256) (strat : Strategy) :
    field (formatC op m k strat) 8 8 = m ∧ field (formatC op m k strat) 16 8 = k ∧
      field (formatC op m k strat) 24 1 = strategyBit strat := by
  have hstrat := strategyBit_lt strat
  simp only [field, formatC, BitVec.toNat_ofNat]
  omega

theorem strategyField_of_field {w : Word} {strat : Strategy} (h : field w 24 1 = strategyBit strat) :
    strategyField w = strat := by
  rw [strategyField, h]
  cases strat <;> rfl

theorem withOperandsOf_encode {i : Instr} (h : i.WellFormed) : i.withOperandsOf (encode i) = i := by
  cases i with
  | gfmul a b =>
    obtain ⟨ha, hb⟩ := byteField_formatS (op := 1) (by decide) a b
    simp only [Instr.withOperandsOf, encode, ha, hb]
  | gfdiv a b =>
    obtain ⟨ha, hb⟩ := byteField_formatS (op := 2) (by decide) a b
    simp only [Instr.withOperandsOf, encode, ha, hb]
  | gfinv a =>
    obtain ⟨ha, -⟩ := byteField_formatS (op := 3) (by decide) a 0#8
    simp only [Instr.withOperandsOf, encode, ha]
  | matmul dst s1 s2 =>
    obtain ⟨hdst, h1, h2⟩ := h
    obtain ⟨rdst, r1, r2⟩ := field_formatM (op := 0x10) (by decide) hdst h1 h2
    simp only [Instr.withOperandsOf, encode, rdst, r1, r2]
  | invert dst s1 =>
    obtain ⟨hdst, h1⟩ := h
    obtain ⟨rdst, r1, -⟩ := field_formatM (op := 0x11) (by decide) hdst h1 (s2 := 0) (by decide)
    simp only [Instr.withOperandsOf, encode, rdst, r1]
  | init m k strat =>
    obtain ⟨hm, hk⟩ := h
    obtain ⟨rm, rk, rstrat⟩ := field_formatC (op := 0x20) (by decide) hm hk strat
    simp only [Instr.withOperandsOf, encode, rm, rk, strategyField_of_field rstrat]
  | _ => rfl

theorem encodedFields (i : Instr) : Laws.EncodedFields.Statement i := by
  cases i with
  | nop => exact Laws.EncodedFields.nop
  | gfmul a b => exact Laws.EncodedFields.gfmul a b
  | gfdiv a b => exact Laws.EncodedFields.gfdiv a b
  | gfinv a => exact Laws.EncodedFields.gfinv a
  | matmul dst s1 s2 => exact Laws.EncodedFields.matmul dst s1 s2
  | invert dst s1 => exact Laws.EncodedFields.invert dst s1
  | init m k strat => exact Laws.EncodedFields.init m k strat
  | deinit => exact Laws.EncodedFields.deinit
  | gendec => exact Laws.EncodedFields.gendec
  | recon => exact Laws.EncodedFields.recon
  | frame => exact Laws.EncodedFields.frame
  | parity => exact Laws.EncodedFields.parity
  | unframe => exact Laws.EncodedFields.unframe
  | encode => exact Laws.EncodedFields.encode
  | decode => exact Laws.EncodedFields.decode

theorem hasFormOf_encode {i : Instr} (h : i.WellFormed) : HasFormOf (encode i) i := by
  obtain ⟨hopcode, hreserved⟩ := encodedFields i h
  exact ⟨hopcode, hreserved⟩

/-- Settles O1: the word has the form of the command, and its operands read back. -/
theorem decodeOfEncodeIsTheCommand : Obligations.DecodeOfEncodeIsTheCommand := fun _ h =>
  decode_eq_ok_iff.2 ⟨hasFormOf_encode h, withOperandsOf_encode h⟩

/-! ## A word put together from its fields -/

section
variable {w : Word} {op : Nat}

theorem formatN_of_fields (hop : field w 0 8 = op) (h : field w 8 24 = 0) : formatN op = w := by
  have hw := w.isLt
  apply BitVec.eq_of_toNat_eq
  simp only [formatN, field, BitVec.toNat_ofNat] at hop h ⊢
  omega

theorem formatS_of_fields (hop : field w 0 8 = op) (h : field w 24 8 = 0) :
    formatS op (byteField w 8) (byteField w 16) = w := by
  have hw := w.isLt
  apply BitVec.eq_of_toNat_eq
  simp only [formatS, byteField_toNat, field, BitVec.toNat_ofNat] at hop h ⊢
  omega

theorem formatM_of_fields (hop : field w 0 8 = op) (h : field w 20 12 = 0) :
    formatM op (field w 8 4) (field w 12 4) (field w 16 4) = w := by
  have hw := w.isLt
  apply BitVec.eq_of_toNat_eq
  simp only [formatM, field, BitVec.toNat_ofNat] at hop h ⊢
  omega

theorem formatC_of_fields (hop : field w 0 8 = op) (h : field w 25 7 = 0) :
    formatC op (field w 8 8) (field w 16 8) (strategyField w) = w := by
  have hw := w.isLt
  apply BitVec.eq_of_toNat_eq
  simp only [formatC, strategyBit_strategyField, field, BitVec.toNat_ofNat] at hop h ⊢
  omega

/-- R81: GFINV and INVERT reserve what is the last operand of the other commands of their format. -/
theorem field_eq_zero_of_reserved (h : field w 16 16 = 0) :
    field w 16 8 = 0 ∧ field w 16 4 = 0 ∧ field w 24 8 = 0 ∧ field w 20 12 = 0 := by
  have hw := w.isLt
  simp only [field] at h ⊢
  omega

theorem formatS_of_one_field (hop : field w 0 8 = op) (h : field w 16 16 = 0) : formatS op (byteField w 8) 0#8 = w := by
  obtain ⟨hb, -, hreserved, -⟩ := field_eq_zero_of_reserved h
  have hword := formatS_of_fields hop hreserved
  rwa [byteField, byteField, hb] at hword

theorem formatM_of_two_fields (hop : field w 0 8 = op) (h : field w 16 16 = 0) :
    formatM op (field w 8 4) (field w 12 4) 0 = w := by
  obtain ⟨-, hs2, -, hreserved⟩ := field_eq_zero_of_reserved h
  have hword := formatM_of_fields hop hreserved
  rwa [hs2] at hword

theorem encode_withOperandsOf {i : Instr} (h : HasFormOf w i) : encode (i.withOperandsOf w) = w := by
  obtain ⟨hopcode, hreserved⟩ := h
  cases i with
  | gfmul a b => exact formatS_of_fields hopcode hreserved
  | gfdiv a b => exact formatS_of_fields hopcode hreserved
  | gfinv a => exact formatS_of_one_field hopcode hreserved
  | matmul dst s1 s2 => exact formatM_of_fields hopcode hreserved
  | invert dst s1 => exact formatM_of_two_fields hopcode hreserved
  | init m k strat => exact formatC_of_fields hopcode hreserved
  | _ => exact formatN_of_fields hopcode hreserved

end

theorem withOperandsOf_wellFormed (w : Word) (i : Instr) : (i.withOperandsOf w).WellFormed := by
  cases i with
  | matmul dst s1 s2 => exact ⟨field_lt w 8 4, field_lt w 12 4, field_lt w 16 4⟩
  | invert dst s1 => exact ⟨field_lt w 8 4, field_lt w 12 4⟩
  | init m k strat => exact ⟨field_lt w 8 8, field_lt w 16 8⟩
  | _ => trivial

/-- Settles O2: the command's operands are those read from the word, and the word is put together from them. -/
theorem encodeOfDecodeIsTheWord : Obligations.EncodeOfDecodeIsTheWord := by
  intro w i h
  obtain ⟨hform, hoperands⟩ := decode_eq_ok_iff.1 h
  rw [← hoperands]
  exact ⟨withOperandsOf_wellFormed w i, encode_withOperandsOf hform⟩

/-! ## The opcode table -/

/-- R84: the mask of a format whose reserved bits are those from `lo` up. -/
def formatMask (lo : Nat) : Word := BitVec.ofNat 32 (2 ^ 8 - 1) ||| BitVec.allOnes 32 <<< lo

/-- R84: the row of a command, from its opcode and its reserved bits. -/
def Instr.row (i : Instr) : OpcodeRow := ⟨i.mnemonic, BitVec.ofNat 32 i.opcode, formatMask i.firstReservedBit⟩

/-- R84: one command for each row, in the order of the table. -/
def Instr.samples : List Instr :=
  [.nop, .gfmul 0 0, .gfdiv 0 0, .gfinv 0, .matmul 0 0 0, .invert 0 0, .init 0 0 .vandermonde, .deinit, .gendec, .recon, .frame,
    .parity, .unframe, .encode, .decode]

theorem opcodeTable_eq_map_row : opcodeTable = Instr.samples.map Instr.row := rfl

theorem row_withOperandsOf (w : Word) (i : Instr) : (i.withOperandsOf w).row = i.row := by cases i <;> rfl

theorem mnemonic_withOperandsOf (w : Word) (i : Instr) : (i.withOperandsOf w).mnemonic = i.mnemonic :=
  congrArg OpcodeRow.mnemonic (row_withOperandsOf w i)

theorem withOperandsOf_zero_mem_samples (i : Instr) : i.withOperandsOf 0#32 ∈ Instr.samples := by
  have hbyte (lo : Nat) : byteField 0#32 lo = 0 := by simp [byteField, field]
  have hfield (lo width : Nat) : field 0#32 lo width = 0 := by simp [field]
  have hstrategy : strategyField 0#32 = .vandermonde := by decide
  cases i <;> simp [Instr.samples, Instr.withOperandsOf, hbyte, hfield, hstrategy]

theorem mem_opcodeTable_iff {r : OpcodeRow} : r ∈ opcodeTable ↔ ∃ i : Instr, i.row = r := by
  rw [opcodeTable_eq_map_row, List.mem_map]
  constructor
  · rintro ⟨i, -, hi⟩
    exact ⟨i, hi⟩
  · rintro ⟨i, rfl⟩
    exact ⟨i.withOperandsOf 0#32, withOperandsOf_zero_mem_samples i, row_withOperandsOf 0#32 i⟩

theorem opcode_lt (i : Instr) : i.opcode < 2 ^ 8 := by cases i <;> simp [Instr.opcode]

theorem firstReservedBit_range (i : Instr) : 8 ≤ i.firstReservedBit ∧ i.firstReservedBit ≤ 32 := by
  cases i <;> simp [Instr.firstReservedBit]

theorem formatMask_getLsbD (lo : Nat) {j : Nat} (hj : j < 32) :
    (formatMask lo).getLsbD j = (decide (j < 8) || decide (lo ≤ j)) := by
  simp only [formatMask, BitVec.getLsbD_or, BitVec.getLsbD_ofNat, Nat.testBit_two_pow_sub_one, BitVec.getLsbD_shiftLeft,
    BitVec.getLsbD_allOnes, hj, decide_true, Bool.true_and]
  have hshift : j - lo < 32 := by omega
  simp only [hshift, ← decide_not, not_lt, decide_true, Bool.and_true]

/-- R9: a field, bit by bit. -/
theorem field_eq_iff {w : Word} {lo width n : Nat} (hn : n < 2 ^ width) :
    field w lo width = n ↔ ∀ j, j < width → w.getLsbD (lo + j) = n.testBit j := by
  have hbit (j : Nat) : (field w lo width).testBit j = (decide (j < width) && w.getLsbD (lo + j)) := by
    rw [field, Nat.testBit_mod_two_pow, Nat.testBit_div_two_pow, BitVec.getLsbD, Nat.add_comm]
  constructor
  · rintro rfl j hj
    simp [hbit, hj]
  · intro h
    apply Nat.eq_of_testBit_eq
    intro j
    rw [hbit]
    by_cases hj : j < width
    · simp [hj, h j hj]
    · simp [hj, Nat.testBit_lt_two_pow (hn.trans_le (Nat.pow_le_pow_right two_pos (not_lt.1 hj)))]

theorem opcode_testBit_of_le (i : Instr) {j : Nat} (hj : 8 ≤ j) : i.opcode.testBit j = false :=
  Nat.testBit_lt_two_pow ((opcode_lt i).trans_le (Nat.pow_le_pow_right two_pos hj))

/-- R81: the form of a command, bit by bit: the opcode below bit 8, and 0 from the first reserved bit up. -/
theorem hasFormOf_iff_getLsbD {w : Word} {i : Instr} : HasFormOf w i ↔ ∀ j, j < 32 →
    (w.getLsbD j && (decide (j < 8) || decide (i.firstReservedBit ≤ j))) = i.opcode.testBit j := by
  obtain ⟨hlo, hhi⟩ := firstReservedBit_range i
  constructor
  · rintro ⟨hopcode, hreserved⟩ j hj
    rw [field_eq_iff (opcode_lt i)] at hopcode
    rw [field_eq_iff (Nat.two_pow_pos _)] at hreserved
    by_cases hop : j < 8
    · simpa [hop] using hopcode j hop
    · rw [opcode_testBit_of_le i (not_lt.1 hop)]
      by_cases hres : i.firstReservedBit ≤ j
      · have hzero := hreserved (j - i.firstReservedBit) (by omega)
        rw [Nat.add_sub_cancel' hres, Nat.zero_testBit] at hzero
        simp [hzero]
      · simp [hop, hres]
  · intro hbit
    constructor
    · refine (field_eq_iff (opcode_lt i)).2 fun j hj => ?_
      simpa [hj] using hbit j (by omega)
    · refine (field_eq_iff (Nat.two_pow_pos _)).2 fun j hj => ?_
      simpa [opcode_testBit_of_le i (j := i.firstReservedBit + j) (by omega)] using hbit (i.firstReservedBit + j) (by omega)

/-- R83: comparing a masked word with `match` compares the opcode and the reserved bits. -/
theorem row_matches_iff {w : Word} {i : Instr} : w &&& i.row.mask = i.row.matchWord ↔ HasFormOf w i := by
  rw [hasFormOf_iff_getLsbD, BitVec.eq_of_getLsbD_eq_iff]
  refine forall₂_congr fun j hj => ?_
  rw [BitVec.getLsbD_and]
  simp only [Instr.row, formatMask_getLsbD _ hj, BitVec.getLsbD_ofNat, hj, decide_true, Bool.true_and]

/-- R84: no two rows of the table have one `match`. -/
theorem opcodeTable_eq_of_matchWord_eq :
    ∀ r ∈ opcodeTable, ∀ q ∈ opcodeTable, r.matchWord = q.matchWord → r = q := by decide

/-- R85: a word that no row accepts is illegal. -/
theorem decode_error_of_no_row {w : Word} (h : ∀ r ∈ opcodeTable, w &&& r.mask ≠ r.matchWord) : ∃ e, decode w = .error e := by
  rcases hdecode : decode w with e | i
  · exact ⟨e, rfl⟩
  · exact absurd (row_matches_iff.2 (decode_eq_ok_iff.1 hdecode).1) (h i.row (mem_opcodeTable_iff.2 ⟨i, rfl⟩))

/-- Settles O3: a row accepts the words that have the form of its command. -/
theorem decoderFollowsTheOpcodeTable : Obligations.DecoderFollowsTheOpcodeTable := by
  refine ⟨fun w r hr hmatch => ?_, fun w r q hr hq hrmatch hqmatch => ?_, fun w => decode_error_of_no_row⟩
  · obtain ⟨i, rfl⟩ := mem_opcodeTable_iff.1 hr
    exact ⟨_, decode_of_hasFormOf (row_matches_iff.1 hmatch), mnemonic_withOperandsOf w i⟩
  · apply opcodeTable_eq_of_matchWord_eq r hr q hq
    obtain ⟨i, rfl⟩ := mem_opcodeTable_iff.1 hr
    obtain ⟨j, rfl⟩ := mem_opcodeTable_iff.1 hq
    have hopcode : i.opcode = j.opcode := (row_matches_iff.1 hrmatch).opcode.symm.trans (row_matches_iff.1 hqmatch).opcode
    simp only [Instr.row, hopcode]

/-- Settles O4: the decoder evaluated on the six words. -/
theorem workedWordsDecode : Obligations.WorkedWordsDecode := by
  unfold Obligations.WorkedWordsDecode
  decide

/-! ## Illegal words -/

namespace Machine

open Sys2Proof.Claims

theorem runCommand_of_decode_error {s : State} {e : DecodeError} (h : decode s.cmd = .error e) :
    runCommand s = .next (errorEnd s .illegalCommand 0) := by
  simp only [runCommand, h]
  rfl

/-- Settles O5: the word decodes to no command. -/
theorem illegalWordEndsIllegalCommand : Obligations.IllegalWordEndsIllegalCommand := by
  intro s hbusy hleft hrows
  obtain ⟨e, hdecode⟩ := decode_error_of_no_row hrows
  rw [step_of_ending hbusy (.inl hleft), runCommand_of_decode_error hdecode]

end Machine

end Sys2Proof
end

section
/-! # The laws of `mul`, `inverse` and `gpow` (O30 to O32)

A product of degree below 8 is not reduced, so it is the same for every `POLY`. All other facts are facts about the ring of
classes modulo `POLY`, brought back to bytes by `fieldValue_injective`. -/

namespace Sys2Proof.Machine

open Sys2Proof.Claims
open Polynomial

section
variable {poly : BitVec 9}

/-! ## Products that need no reduction -/

theorem reduce_of_lt {p : BitVec 15} (hp : p.toNat < 2 ^ 8) : reduce poly p = p := by
  have hbit (i : Nat) (hi : 8 ≤ i) : p.getLsbD i = false := by
    rw [← BitVec.testBit_toNat]
    exact Nat.testBit_lt_two_pow (hp.trans_le (Nat.pow_le_pow_right two_pos hi))
  simp (disch := decide) only [reduce, List.foldl_cons, List.foldl_nil, hbit, Bool.false_eq_true, if_false]

/-- R102: a product of polynomials that is a byte is not reduced. -/
theorem mul_of_bitPoly_mul {a b c : Byte} (h : bitPoly a.toNat * bitPoly b.toNat = bitPoly c.toNat) : mul poly a b = c := by
  rw [← bitPoly_clmul, bitPoly_inj] at h
  apply BitVec.eq_of_toNat_eq
  rw [mul, reduce_of_lt (by rw [h]; exact c.isLt), BitVec.toNat_setWidth, h, Nat.mod_eq_of_lt c.isLt]

@[simp] theorem mul_zero_byte (a : Byte) : mul poly a 0#8 = 0#8 := mul_of_bitPoly_mul (by simp)

@[simp] theorem zero_byte_mul (a : Byte) : mul poly 0#8 a = 0#8 := mul_of_bitPoly_mul (by simp)

@[simp] theorem mul_one_byte (a : Byte) : mul poly a 1#8 = a := mul_of_bitPoly_mul (by simp)

/-! ## `mul` as a sum of shifts -/

/-- R102: one shift to the left, reduced by the low bits of `POLY` where bit 7 leaves the byte. -/
def timesXOnce (poly : BitVec 9) (a : Byte) : Byte := (a <<< 1) ^^^ if a.getLsbD 7 then poly.setWidth 8 else 0#8

theorem timesX_succ (a : Byte) (e : Nat) : timesX poly a (e + 1) = timesXOnce poly (timesX poly a e) := rfl

/-- The reduction at bit 8 of a shifted byte. -/
theorem toNat_timesXOnce (h : poly.getLsbD 8 = true) (a : Byte) :
    (timesXOnce poly a).toNat = reduceBit poly.toNat (a.toNat <<< 1) 8 := by
  have hlog := log2_of_getLsbD_eight h
  have hlt : reduceBit poly.toNat (a.toNat <<< 1) 8 < 2 ^ 8 := by
    have ha := a.isLt
    have hred := reduceBit_lt (q := a.toNat <<< 1) (i := 8) (toNat_ne_zero_of_getLsbD_eight h)
      (by rw [hlog, Nat.shiftLeft_eq, max_eq_left (by decide)]; omega)
    rwa [hlog] at hred
  have hbit : (a.toNat <<< 1).testBit 8 = a.getLsbD 7 := by simp [Nat.testBit_shiftLeft, BitVec.testBit_toNat]
  rw [← Nat.mod_eq_of_lt hlt, reduceBit, hlog, hbit, timesXOnce, BitVec.toNat_xor, BitVec.toNat_shiftLeft]
  cases a.getLsbD 7
  · simp
  · simp [Nat.xor_mod_two_pow (n := 8)]

/-- The class of `x`. -/
theorem fieldValue_two : fieldValue poly 2#8 = AdjoinRoot.mk _ X := by
  rw [fieldValue, show (2#8 : Byte).toNat = 1 <<< 1 from rfl, bitPoly_shiftLeft, bitPoly_one, one_mul, pow_one]

theorem fieldValue_timesXOnce (h : poly.getLsbD 8 = true) (a : Byte) :
    fieldValue poly (timesXOnce poly a) = fieldValue poly a * fieldValue poly 2#8 := by
  rw [fieldValue, toNat_timesXOnce h, mk_reduceBit, bitPoly_shiftLeft, pow_one, map_mul, fieldValue_two]
  rfl

theorem fieldValue_timesX (h : poly.getLsbD 8 = true) (a : Byte) (e : Nat) :
    fieldValue poly (timesX poly a e) = fieldValue poly a * fieldValue poly 2#8 ^ e := by
  induction e with
  | zero => rw [timesX, pow_zero, mul_one]
  | succ e ih => rw [timesX_succ, fieldValue_timesXOnce h, ih, pow_succ, mul_assoc]

theorem fieldValue_xorSum (f : Nat → Byte) (n : Nat) :
    fieldValue poly (xorSum f n) = ∑ i ∈ Finset.range n, fieldValue poly (f i) := by
  induction n with
  | zero => rw [xorSum, fieldValue_zero, Finset.sum_range_zero]
  | succ n ih => rw [xorSum, fieldValue_xor, ih, Finset.sum_range_succ]

/-- R100: a byte is the sum of the powers of `x` at its bits. -/
theorem fieldValue_eq_sum (b : Byte) :
    fieldValue poly b = ∑ i ∈ Finset.range 8, if b.getLsbD i then fieldValue poly 2#8 ^ i else 0 := by
  rw [fieldValue, bitPoly_eq_sum_range b.isLt, map_sum]
  refine Finset.sum_congr rfl fun i _ => ?_
  rw [BitVec.testBit_toNat, apply_ite (AdjoinRoot.mk _), map_pow, map_zero, fieldValue_two]

theorem two_mul_byte (h : poly.getLsbD 8 = true) (b : Byte) : mul poly 2#8 b = timesXOnce poly b := by
  apply fieldValue_injective h
  rw [fieldValue_mul h, fieldValue_timesXOnce h, mul_comm]

theorem mul_eq_xorSum_timesX (h : poly.getLsbD 8 = true) (a b : Byte) :
    mul poly a b = xorSum (fun i => if b.getLsbD i then timesX poly a i else 0#8) 8 := by
  apply fieldValue_injective h
  rw [fieldValue_mul h, fieldValue_xorSum, fieldValue_eq_sum b, Finset.mul_sum]
  refine Finset.sum_congr rfl fun i _ => ?_
  split
  · exact (fieldValue_timesX h a i).symm
  · rw [mul_zero, fieldValue_zero]

/-! ## The laws (R103) -/

theorem mul_comm_byte (h : poly.getLsbD 8 = true) (a b : Byte) : mul poly a b = mul poly b a := by
  apply fieldValue_injective h
  rw [fieldValue_mul h, fieldValue_mul h, mul_comm]

theorem mul_assoc_byte (h : poly.getLsbD 8 = true) (a b c : Byte) :
    mul poly (mul poly a b) c = mul poly a (mul poly b c) := by
  apply fieldValue_injective h
  simp only [fieldValue_mul h, mul_assoc]

theorem mul_xor (h : poly.getLsbD 8 = true) (a b c : Byte) :
    mul poly a (b ^^^ c) = mul poly a b ^^^ mul poly a c := by
  apply fieldValue_injective h
  simp only [fieldValue_mul h, fieldValue_xor, mul_add]

theorem one_byte_mul (h : poly.getLsbD 8 = true) (a : Byte) : mul poly 1#8 a = a := by
  rw [mul_comm_byte h, mul_one_byte]

theorem eq_zero_or_eq_zero_of_mul_byte_eq_zero (h : irreducibleOfDegree8 poly = true) {a b : Byte}
    (hab : mul poly a b = 0#8) : a = 0#8 ∨ b = 0#8 := by
  have h8 := getLsbD_eight_of_irreducible h
  have : Fact (Irreducible (bitPoly poly.toNat)) := ⟨irreducible_bitPoly h⟩
  by_contra hne
  rw [not_or] at hne
  refine mul_ne_zero ((fieldValue_ne_zero h8).2 hne.1) ((fieldValue_ne_zero h8).2 hne.2) ?_
  rw [← fieldValue_mul h8, hab, fieldValue_zero]

/-! ## Inverses (R104) -/

/-- The inverse is the only byte whose product with `a` is 1. -/
theorem inverse_eq_some_iff (h : irreducibleOfDegree8 poly = true) {a b : Byte} :
    inverse poly a = some b ↔ mul poly a b = 1#8 := by
  have h8 := getLsbD_eight_of_irreducible h
  by_cases ha : a = 0#8
  · simp [inverse, ha]
  · obtain ⟨v, hv, hav⟩ := mul_inverse h ha
    rw [hv, Option.some.injEq]
    refine ⟨fun hvb => hvb ▸ hav, fun hab => ?_⟩
    calc v = mul poly v (mul poly a b) := by rw [hab, mul_one_byte]
      _ = mul poly (mul poly a v) b := by rw [← mul_assoc_byte h8, mul_comm_byte h8 v]
      _ = b := by rw [hav, one_byte_mul h8]

/-- R104: the squarings of `inverse` come to the 254th power. -/
theorem inverse_eq_gpow (h : poly.getLsbD 8 = true) {a : Byte} (ha : a ≠ 0#8) :
    inverse poly a = some (gpow poly a 254) := by
  rw [inverse, if_neg ha, Option.some.injEq]
  apply fieldValue_injective h
  rw [fieldValue_mul h, fieldValue_gpowOnes h, fieldValue_gpow h, ← pow_add]
  rfl

theorem mul_gpow_254 (h : irreducibleOfDegree8 poly = true) {a : Byte} (ha : a ≠ 0#8) :
    mul poly a (gpow poly a 254) = 1#8 :=
  (inverse_eq_some_iff h).1 (inverse_eq_gpow (getLsbD_eight_of_irreducible h) ha)

theorem inverse_one (h : irreducibleOfDegree8 poly = true) : inverse poly 1#8 = some 1#8 :=
  (inverse_eq_some_iff h).2 (mul_one_byte 1#8)

theorem inverse_involutive (h : irreducibleOfDegree8 poly = true) {a b : Byte} (hab : inverse poly a = some b) :
    inverse poly b = some a := by
  rw [inverse_eq_some_iff h] at hab ⊢
  rw [mul_comm_byte (getLsbD_eight_of_irreducible h), hab]

/-! ## Powers (R106) -/

theorem gpow_zero_byte_succ (e : Nat) : gpow poly 0#8 (e + 1) = 0#8 := by rw [gpow, mul_zero_byte]

theorem gpow_255 (h : irreducibleOfDegree8 poly = true) {a : Byte} (ha : a ≠ 0#8) : gpow poly a 255 = 1#8 := by
  rw [gpow, mul_comm_byte (getLsbD_eight_of_irreducible h), mul_gpow_254 h ha]

theorem gpow_mod_255 (h : irreducibleOfDegree8 poly = true) {a : Byte} (ha : a ≠ 0#8) (e : Nat) :
    gpow poly a e = gpow poly a (e % 255) := by
  have h8 := getLsbD_eight_of_irreducible h
  apply fieldValue_injective h8
  rw [fieldValue_gpow h8, fieldValue_gpow h8]
  exact pow_eq_pow_mod e (field_pow_255 h ((fieldValue_ne_zero h8).2 ha))

theorem gpow_mul (h : poly.getLsbD 8 = true) (a : Byte) (m n : Nat) : gpow poly a (m * n) = gpow poly (gpow poly a m) n := by
  apply fieldValue_injective h
  simp only [fieldValue_gpow h, pow_mul]

theorem gpow_ne_zero (h : irreducibleOfDegree8 poly = true) {a : Byte} (ha : a ≠ 0#8) (e : Nat) : gpow poly a e ≠ 0#8 := by
  have h8 := getLsbD_eight_of_irreducible h
  have : Fact (Irreducible (bitPoly poly.toNat)) := ⟨irreducible_bitPoly h⟩
  rw [← fieldValue_ne_zero h8, fieldValue_gpow h8]
  exact pow_ne_zero e ((fieldValue_ne_zero h8).2 ha)

/-- A byte generates the group, of order 255 = 3 · 5 · 17, when none of its three powers of a maximal proper order is 1. -/
theorem orderOf_fieldValue (h : irreducibleOfDegree8 poly = true) {a : Byte} (ha : a ≠ 0#8)
    (hpowers : gpow poly a 85 ≠ 1#8 ∧ gpow poly a 51 ≠ 1#8 ∧ gpow poly a 15 ≠ 1#8) :
    orderOf (fieldValue poly a) = 255 := by
  have h8 := getLsbD_eight_of_irreducible h
  obtain ⟨h85, h51, h15⟩ := hpowers
  have hne (e : Nat) (he : gpow poly a e ≠ 1#8) : fieldValue poly a ^ e ≠ 1 := by
    rwa [← fieldValue_gpow h8, ← fieldValue_one, (fieldValue_injective h8).ne_iff]
  refine orderOf_eq_of_pow_and_pow_div_prime (by decide) (field_pow_255 h ((fieldValue_ne_zero h8).2 ha)) fun p hp hdvd => ?_
  rw [show 255 = 3 * 5 * 17 by decide, hp.dvd_mul, hp.dvd_mul, Nat.prime_dvd_prime_iff_eq hp (by decide),
    Nat.prime_dvd_prime_iff_eq hp (by decide), Nat.prime_dvd_prime_iff_eq hp (by decide)] at hdvd
  rcases hdvd with (rfl | rfl) | rfl
  · simpa using hne 85 h85
  · simpa using hne 51 h51
  · simpa using hne 15 h15

theorem gpow_injOn (h : irreducibleOfDegree8 poly = true) {a : Byte} (horder : orderOf (fieldValue poly a) = 255) :
    Set.InjOn (gpow poly a) (Finset.range 255) := by
  have h8 := getLsbD_eight_of_irreducible h
  intro e he f hf hef
  rw [Finset.coe_range] at he hf
  apply pow_injOn_Iio_orderOf (x := fieldValue poly a) (by rwa [horder]) (by rwa [horder])
  simp only [← fieldValue_gpow h8, hef]

theorem card_nonzero_bytes : (Finset.univ.erase (0#8 : Byte)).card = 255 := by
  rw [Finset.card_erase_of_mem (Finset.mem_univ _), Finset.card_univ, Fintype.card_congr BitVec.equivFin.toEquiv,
    Fintype.card_fin]
  rfl

/-- R106: the 255 different powers of a generator are all bytes but 0. -/
theorem exists_gpow_eq (h : irreducibleOfDegree8 poly = true) {a : Byte} (ha : a ≠ 0#8)
    (horder : orderOf (fieldValue poly a) = 255) {b : Byte} (hb : b ≠ 0#8) : ∃ e, e < 255 ∧ gpow poly a e = b := by
  have hsurj : Set.SurjOn (gpow poly a) (Finset.range 255) (Finset.univ.erase (0#8 : Byte)) :=
    Finset.surjOn_of_injOn_of_card_le _ (fun e _ => by simpa using gpow_ne_zero h ha e) (gpow_injOn h horder)
      (by rw [card_nonzero_bytes, Finset.card_range])
  simpa using hsurj (by simpa using hb)

end

theorem irreducible_reference : irreducibleOfDegree8 0x11D#9 = true := by decide +kernel

/-- R106: `0x02` generates the group under `0x11D`. -/
theorem orderOf_two_reference : orderOf (fieldValue 0x11D#9 2#8) = 255 := by
  have h8 := getLsbD_eight_of_irreducible irreducible_reference
  have h17 : gpow 0x11D#9 2#8 17 = 0x98#8 := by decide +kernel
  refine orderOf_fieldValue irreducible_reference (by decide) ⟨?_, ?_, by decide +kernel⟩
  · rw [show 85 = 17 * 5 by rfl, gpow_mul h8, h17]
    decide +kernel
  · rw [show 51 = 17 * 3 by rfl, gpow_mul h8, h17]
    decide +kernel

/-- Settles O30: each law is one of the ring of classes, and the field has no zero divisors. -/
theorem fieldLaws : Obligations.FieldLaws := by
  refine ⟨fun poly h a b => ⟨two_mul_byte h b, mul_eq_xorSum_timesX h a b⟩, fun poly h a b c => ?_⟩
  have h8 := getLsbD_eight_of_irreducible h
  exact ⟨mul_comm_byte h8 a b, (mul_assoc_byte h8 a b c).symm, mul_xor h8 a b c, mul_zero_byte a, mul_one_byte a,
    eq_zero_or_eq_zero_of_mul_byte_eq_zero h⟩

/-- Settles O31: by Fermat, and by the uniqueness in `inverse_eq_some_iff`. -/
theorem inverseIsTheFieldInverse : Obligations.InverseIsTheFieldInverse := by
  intro poly h
  refine ⟨rfl, gpow_zero_byte_succ 253, fun a ha => ?_⟩
  have hinv := inverse_eq_gpow (getLsbD_eight_of_irreducible h) ha
  refine ⟨_, hinv, rfl, mul_gpow_254 h ha, fun w hw => ?_⟩
  rw [← inverse_eq_some_iff h, hinv] at hw
  exact (Option.some.inj hw).symm

/-- Settles O32: by Fermat, and by the order of `0x02`. -/
theorem powersFollowTheirRule : Obligations.PowersFollowTheirRule := by
  refine ⟨fun poly a e => ⟨rfl, rfl⟩, fun poly a e h ha => ⟨gpow_255 h ha, gpow_mod_255 h ha e⟩, fun b hb => ?_⟩
  obtain ⟨e, he, rfl⟩ := exists_gpow_eq irreducible_reference (by decide) orderOf_two_reference hb
  exact ⟨e, he, rfl, fun f hf hfe =>
    gpow_injOn irreducible_reference orderOf_two_reference (Finset.mem_coe.2 (Finset.mem_range.2 hf))
      (Finset.mem_coe.2 (Finset.mem_range.2 he)) hfe⟩

end Sys2Proof.Machine
end

section
/-! # The field commands (O27 to O29) -/

namespace Sys2Proof.Machine

open Sys2Proof.Claims

/-! ## The ends of the three commands -/

/-- R224: a command whose operation gives a byte writes it to `RES`. -/
theorem exec_of_scalarResult_some {i : Instr} {s : State} {v : Option Byte} {x : Byte}
    (hi : commandEnd i s = scalarResult s v) (hv : v = some x) : exec i s = .next (okEnd { s with res := x }) :=
  exec_of_ok (by rw [hi, hv]; rfl)

/-- R111, R112: a command whose operation gives no byte ends `FieldInverseOfZero`. -/
theorem exec_of_scalarResult_none {i : Instr} {s : State} {v : Option Byte}
    (hi : commandEnd i s = scalarResult s v) (hv : v = none) : exec i s = .next (errorEnd s .fieldInverseOfZero 0) :=
  exec_of_error (by rw [hi, hv]; rfl)

theorem exec_gfdiv_of_inverse {s : State} {a b v : Byte} (hb : inverse s.params.poly b = some v) :
    exec (.gfdiv a b) s = .next (okEnd { s with res := mul s.params.poly a v }) :=
  exec_of_scalarResult_some rfl (by rw [gdiv, hb, Option.map_some])

/-! ## The words of format S -/

/-- R112: GFINV reserves the field of the second operand. -/
theorem decode_gfinv_error {a b : Byte} (hb : b ≠ 0#8) : ∃ e, decode (formatS 0x03 a b) = .error e := by
  rcases hdecode : decode (formatS 0x03 a b) with e | i
  · exact ⟨e, rfl⟩
  · have hopcode : field (formatS 0x03 a b) 0 8 = (Instr.gfinv a).opcode := by
      have ha := a.isLt
      have hb := b.isLt
      simp only [field, formatS, Instr.opcode, BitVec.toNat_ofNat]
      omega
    rw [decode_of_opcode hopcode, ifReservedZero_eq_ok_iff] at hdecode
    obtain ⟨hzero, -⟩ := field_eq_zero_of_reserved hdecode.1
    have hfield := (byteField_formatS (op := 0x03) (by decide) a b).2
    rw [byteField, hzero] at hfield
    exact absurd hfield.symm hb

/-! ## The obligations -/

/-- Settles O27: the operation always gives a byte. -/
theorem gfmulWritesTheProduct : Obligations.GfmulWritesTheProduct :=
  ⟨fun a b => decodeOfEncodeIsTheCommand (.gfmul a b) trivial, fun _ _ _ => exec_of_scalarResult_some rfl rfl,
    fun _ a => ⟨mul_zero_byte a, zero_byte_mul a, mul_one_byte a⟩, by decide +kernel⟩

/-- Settles O28: the quotient is the product with the inverse of `b`, as far as there is one. -/
theorem gfdivWritesTheQuotient : Obligations.GfdivWritesTheQuotient := by
  refine ⟨fun a b => decodeOfEncodeIsTheCommand (.gfdiv a b) trivial, fun a s => exec_of_scalarResult_none rfl rfl,
    fun a b s h hb => exec_gfdiv_of_inverse (inverse_eq_gpow (getLsbD_eight_of_irreducible h) hb),
    fun b s h hb => ?_, by decide +kernel⟩
  obtain ⟨v, hv, hmul⟩ := mul_inverse h hb
  have hzero := exec_gfdiv_of_inverse (a := 0#8) hv
  have hone := exec_gfdiv_of_inverse (a := b) (inverse_one h)
  have hself := exec_gfdiv_of_inverse (a := b) hv
  rw [zero_byte_mul] at hzero
  rw [mul_one_byte] at hone
  rw [hmul] at hself
  exact ⟨hzero, hone, hself⟩

/-- Settles O29: the inverse, as far as there is one; the reserved field decides the words. -/
theorem gfinvWritesTheInverse : Obligations.GfinvWritesTheInverse := by
  refine ⟨?_, fun a b hb => decode_gfinv_error hb, fun s => exec_of_scalarResult_none rfl rfl,
    fun a s h ha => exec_of_scalarResult_some rfl (inverse_eq_gpow (getLsbD_eight_of_irreducible h) ha),
    fun poly h => ⟨inverse_one h, fun a b => inverse_involutive h⟩, by decide +kernel⟩
  rintro a b rfl
  exact decodeOfEncodeIsTheCommand (.gfinv a) trivial

end Sys2Proof.Machine
end

section
/-! # The checks of MATMUL and INVERT, and the product (O33, O34) -/

namespace Sys2Proof.Machine

open Sys2Proof.Claims

section
variable {s : State} {dst s1 s2 : Nat}

theorem dimLegal_eq_true_iff {p : Params} {n : Byte} : dimLegal p n = true ↔ 1 ≤ n.toNat ∧ n.toNat ≤ p.mmax := by
  rw [dimLegal, Bool.and_eq_true, decide_eq_true_eq, decide_eq_true_eq]

theorem dimLegal_eq_false_iff {p : Params} {n : Byte} : ¬dimLegal p n = true ↔ n.toNat = 0 ∨ p.mmax < n.toNat := by
  rw [dimLegal_eq_true_iff]
  omega

/-! ## The ids (R130, R131) -/

/-- R130: the ids MATMUL refuses. -/
def MatmulIdsBad (dst s1 s2 : Nat) : Prop := 4 < dst ∨ 4 < s1 ∨ 4 < s2 ∨ dst = 0 ∨ dst = s1 ∨ dst = s2

/-- R131: the ids INVERT refuses. -/
def InvertIdsBad (dst s1 : Nat) : Prop := 4 < dst ∨ 4 < s1 ∨ dst = 0 ∨ dst = s1

theorem matmulEnd_of_bad_ids (hids : MatmulIdsBad dst s1 s2) : matmulEnd dst s1 s2 s = .error .illegalCommand 1 s :=
  if_pos hids

theorem invertEnd_of_bad_ids (hids : InvertIdsBad dst s1) : invertEnd dst s1 s = .error .illegalCommand 1 s :=
  if_pos hids

/-! ## The dimensions (R31) -/

/-- R130: MATMUL's three dimensions are legal. -/
def State.DimsLegal (s : State) : Prop := ∀ n ∈ [s.dim1, s.dim2, s.dim3], 1 ≤ n.toNat ∧ n.toNat ≤ s.params.mmax

theorem dimsLegal_iff : s.DimsLegal ↔
    dimLegal s.params s.dim1 = true ∧ dimLegal s.params s.dim2 = true ∧ dimLegal s.params s.dim3 = true := by
  simp [State.DimsLegal, dimLegal_eq_true_iff]

theorem matmulEnd_of_bad_dims (hids : ¬MatmulIdsBad dst s1 s2) (hdims : ¬s.DimsLegal) :
    matmulEnd dst s1 s2 s = .error .illegalCommand 2 s := by
  rw [dimsLegal_iff] at hdims
  exact (if_neg hids).trans (if_pos hdims)

theorem invertEnd_of_bad_dim (hids : ¬InvertIdsBad dst s1) (hdim : ¬dimLegal s.params s.dim1 = true) :
    invertEnd dst s1 s = .error .illegalCommand 2 s :=
  (if_neg hids).trans (if_pos hdim)

/-! ## The configuration (R41) -/

theorem matmulEnd_of_unconfigured (hids : ¬MatmulIdsBad dst s1 s2) (hdims : s.DimsLegal) (hG : s1 = 0 ∨ s2 = 0)
    (hc : s.cfgv = false) : matmulEnd dst s1 s2 s = .error .notConfigured 0 s :=
  (if_neg hids).trans ((if_neg (not_not.2 (dimsLegal_iff.1 hdims))).trans (if_pos ⟨hG, hc⟩))

theorem invertEnd_of_unconfigured (hids : ¬InvertIdsBad dst s1) (hdim : dimLegal s.params s.dim1 = true) (hG : s1 = 0)
    (hc : s.cfgv = false) : invertEnd dst s1 s = .error .notConfigured 0 s :=
  (if_neg hids).trans ((if_neg (not_not.2 hdim)).trans (if_pos ⟨hG, hc⟩))

/-! ## The product -/

/-- R130: what MATMUL writes. -/
theorem matmulEnd_of_legal (hids : ¬MatmulIdsBad dst s1 s2) (hdims : s.DimsLegal) (hG : s1 = 0 ∨ s2 = 0 → s.cfgv = true) :
    matmulEnd dst s1 s2 s =
      .ok (s.withMem (s.mem.fillMatrix dst s.dim1.toNat s.dim3.toNat (s.productAt s1 s2 s.dim2.toNat))) := by
  refine (if_neg hids).trans ((if_neg (not_not.2 (dimsLegal_iff.1 hdims))).trans (if_neg fun hc => ?_))
  exact absurd ((hG hc.1).symm.trans hc.2) (by decide)

theorem productAt_of_specified {n i j : Nat} {x y : Nat → Byte}
    (h : ∀ u, u < n → s.valueAt (matAddr s1 i u) = some (x u) ∧ s.valueAt (matAddr s2 u j) = some (y u)) :
    s.productAt s1 s2 n i j = some (xorSum (fun u => mul s.params.poly (x u) (y u)) n) :=
  xorSumValue_some fun u hu => by rw [(h u hu).1, (h u hu).2, mulValue_some]

theorem productAt_of_unspecified {n i j u : Nat} (hu : u < n)
    (h : (s.valueAt (matAddr s1 i u) = none ∧ s.valueAt (matAddr s2 u j) ≠ some 0#8) ∨
      (s.valueAt (matAddr s1 i u) ≠ some 0#8 ∧ s.valueAt (matAddr s2 u j) = none)) :
    s.productAt s1 s2 n i j = none :=
  xorSumValue_none hu (mulValue_eq_none.2 h)

end

/-- Settles O33: each check as an equation of its command's end, reported by `exec_of_error`. -/
theorem matrixOperandRefusals : Obligations.MatrixOperandRefusals := by
  refine ⟨fun dst s1 s2 s => ?_, fun dst s1 s => ?_⟩
  · have hdims : (∃ n ∈ [s.dim1, s.dim2, s.dim3], n.toNat = 0 ∨ s.params.mmax < n.toNat) ↔ ¬s.DimsLegal := by
      simp only [State.DimsLegal, ← dimLegal_eq_true_iff, ← dimLegal_eq_false_iff, not_forall, exists_prop]
    rw [hdims]
    exact ⟨fun hids => exec_of_error (matmulEnd_of_bad_ids hids),
      fun hids hdims => exec_of_error (matmulEnd_of_bad_dims hids hdims),
      fun hids hdims hG hc => exec_of_error (matmulEnd_of_unconfigured hids (not_not.1 hdims) hG hc)⟩
  · rw [← dimLegal_eq_false_iff]
    exact ⟨fun hids => exec_of_error (invertEnd_of_bad_ids hids),
      fun hids hdim => exec_of_error (invertEnd_of_bad_dim hids hdim),
      fun hids hdim hG hc => exec_of_error (invertEnd_of_unconfigured hids (not_not.1 hdim) hG hc)⟩

/-- Settles O34: the written corner is `productAt`, element by element. -/
theorem matmulWritesTheProduct : Obligations.MatmulWritesTheProduct := by
  intro dst s1 s2 s hdst hs1 hs2 hdst0 hne1 hne2 hdims hG
  have hids : ¬MatmulIdsBad dst s1 s2 := by
    unfold MatmulIdsBad
    omega
  have hend : commandEnd (.matmul dst s1 s2) s = _ := matmulEnd_of_legal hids hdims hG
  have hcols : s.dim3.toNat ≤ 2 ^ 8 := s.dim3.isLt.le
  refine ⟨_, exec_of_ok hend, rfl, fun i j x y hi hj hxy => ?_, fun i j u hi hj hu hnone => ?_, fun a ha => ?_⟩
  · exact (Memory.byteAt_fillMatrix_at _ _ _ _ _ _ _ hcols hi hj).trans (productAt_of_specified hxy)
  · exact (Memory.byteAt_fillMatrix_at _ _ _ _ _ _ _ hcols hi hj).trans (productAt_of_unspecified hu hnone)
  · exact Memory.byteAt_fillMatrix_off _ _ _ _ _ _ hcols ha

end Sys2Proof.Machine
end

section
/-! # Matrices of bytes as matrices over the field -/

open scoped Matrix

namespace Sys2Proof.Machine

open Sys2Proof.Claims

section
variable {poly : BitVec 9} {n : Nat}

/-- The classes of the first `n` bytes of a sequence. -/
noncomputable def fieldVector (poly : BitVec 9) (n : Nat) (f : Nat → Byte) (j : Fin n) : AdjoinRoot (bitPoly poly.toNat) :=
  fieldValue poly (f j)

/-- R120: the matrix over the field of the top-left `n × n` corner. -/
noncomputable def fieldMatrix (poly : BitVec 9) (n : Nat) (A : Nat → Nat → Byte) :=
  Matrix.of fun i : Fin n => fieldVector poly n (A i)

/-- R12: a sum of products of bytes is a dot product. -/
theorem dotProduct_fieldVector (h : poly.getLsbD 8 = true) (f g : Nat → Byte) :
    fieldVector poly n f ⬝ᵥ fieldVector poly n g = fieldValue poly (xorSum (fun j => mul poly (f j) (g j)) n) := by
  simp only [fieldValue_xorSum, fieldValue_mul h, Finset.sum_range, dotProduct, fieldVector]

theorem fieldMatrix_mul_apply (h : poly.getLsbD 8 = true) (A B : Nat → Nat → Byte) (i j : Fin n) :
    (fieldMatrix poly n A * fieldMatrix poly n B) i j =
      fieldValue poly (xorSum (fun t => mul poly (A i t) (B t j)) n) :=
  dotProduct_fieldVector h (A i) fun t => B t j

theorem fieldMatrix_mulVec_apply (h : poly.getLsbD 8 = true) (A : Nat → Nat → Byte) (x : Nat → Byte) (i : Fin n) :
    (fieldMatrix poly n A *ᵥ fieldVector poly n x) i = fieldValue poly (xorSum (fun t => mul poly (A i t) (x t)) n) :=
  dotProduct_fieldVector h (A i) x

theorem fieldVector_eq_iff (h : poly.getLsbD 8 = true) {f g : Nat → Byte} :
    fieldVector poly n f = fieldVector poly n g ↔ ∀ j, j < n → f j = g j := by
  simp only [funext_iff, Fin.forall_iff, fieldVector, (fieldValue_injective h).eq_iff]

theorem fieldVector_zero : fieldVector poly n (fun _ => 0#8) = 0 := funext fun _ => fieldValue_zero

theorem fieldMatrix_identity : fieldMatrix poly n identityAt = 1 := by
  ext i j
  rw [Matrix.one_apply, fieldMatrix, Matrix.of_apply, fieldVector, identityAt, apply_ite (fieldValue poly), fieldValue_one,
    fieldValue_zero]
  simp only [Fin.ext_iff]

/-- R120: the identity, as a product. -/
theorem productIsIdentity_iff (h : poly.getLsbD 8 = true) {A B : Nat → Nat → Byte} :
    ProductIsIdentity poly n A B ↔ fieldMatrix poly n A * fieldMatrix poly n B = 1 := by
  rw [← fieldMatrix_identity, ← Matrix.ext_iff]
  simp only [fieldMatrix_mul_apply h, Fin.forall_iff]
  simp only [fieldMatrix, Matrix.of_apply, fieldVector, (fieldValue_injective h).eq_iff]
  exact ⟨fun hAB i hi j hj => hAB i j hi hj, fun hAB i j hi hj => hAB i hi j hj⟩

/-! ## Inverses -/

/-- An inverse is two-sided. -/
theorem productIsIdentity_symm (h : poly.getLsbD 8 = true) {A B : Nat → Nat → Byte} (hAB : ProductIsIdentity poly n A B) :
    ProductIsIdentity poly n B A := by
  rw [productIsIdentity_iff h] at hAB ⊢
  exact mul_eq_one_comm.1 hAB

/-- A matrix has at most one inverse. -/
theorem productIsIdentity_unique (h : poly.getLsbD 8 = true) {V W M : Nat → Nat → Byte} (hV : ProductIsIdentity poly n V M)
    (hW : ProductIsIdentity poly n W M) {i j : Nat} (hi : i < n) (hj : j < n) : V i j = W i j := by
  rw [productIsIdentity_iff h] at hV hW
  have hVW : fieldMatrix poly n V = fieldMatrix poly n W := left_inv_eq_right_inv hV (mul_eq_one_comm.1 hW)
  exact fieldValue_injective h (congrFun (congrFun hVW ⟨i, hi⟩) ⟨j, hj⟩)

/-- R125: only an invertible matrix takes no vector but 0 to 0. -/
theorem productIsIdentity_eq_zero (h : poly.getLsbD 8 = true) {V M : Nat → Nat → Byte} (hV : ProductIsIdentity poly n V M)
    {x : Nat → Byte} (hx : fieldMatrix poly n M *ᵥ fieldVector poly n x = 0) {j : Nat} (hj : j < n) : x j = 0#8 := by
  rw [productIsIdentity_iff h] at hV
  have hzero : fieldVector poly n x = fieldVector poly n fun _ => 0#8 := by
    rw [fieldVector_zero, ← Matrix.one_mulVec (fieldVector poly n x), ← hV, ← Matrix.mulVec_mulVec, hx, Matrix.mulVec_zero]
  exact (fieldVector_eq_iff h).1 hzero j hj

/-! ## One element changed -/

/-- The matrix with `d` added to element `[a][b]`. -/
def addAt (M : Nat → Nat → Byte) (a b : Nat) (d : Byte) (i j : Nat) : Byte := M i j ^^^ if i = a ∧ j = b then d else 0#8

/-- The inverse of `addAt M a b d`, when `V` is that of `M` and `c` is `d / (1 + d·V[b][a])`. -/
def inverseOfAddAt (poly : BitVec 9) (V : Nat → Nat → Byte) (a b : Nat) (c : Byte) (i j : Nat) : Byte :=
  V i j ^^^ mul poly c (mul poly (V i a) (V b j))

/-- The matrix over the field with 1 at `[a][b]` and 0 elsewhere. -/
noncomputable def unitMatrix (poly : BitVec 9) (a b : Fin n) :=
  Matrix.single a b (1 : AdjoinRoot (bitPoly poly.toNat))

theorem fieldMatrix_addAt (M : Nat → Nat → Byte) (a b : Fin n) (d : Byte) :
    fieldMatrix poly n (addAt M a b d) = fieldMatrix poly n M + fieldValue poly d • unitMatrix poly a b := by
  ext i j
  have hij : ((i : Nat) = a ∧ (j : Nat) = b) ↔ (a = i ∧ b = j) := by rw [Fin.val_inj, Fin.val_inj, eq_comm, eq_comm (a := j)]
  simp [fieldMatrix, fieldVector, addAt, unitMatrix, hij, Matrix.single_apply, apply_ite (fieldValue poly)]

theorem fieldMatrix_inverseOfAddAt (h : poly.getLsbD 8 = true) (V : Nat → Nat → Byte) (a b : Fin n) (c : Byte) :
    fieldMatrix poly n (inverseOfAddAt poly V a b c) =
      fieldMatrix poly n V +
        fieldValue poly c • (fieldMatrix poly n V * unitMatrix poly a b * fieldMatrix poly n V) := by
  ext i j
  simp [fieldMatrix, fieldVector, inverseOfAddAt, unitMatrix, fieldValue_mul h, Matrix.mul_apply, Matrix.single_apply, ite_and]

/-- A change of one element changes the inverse by a matrix of rank one. -/
theorem productIsIdentity_addAt (h : poly.getLsbD 8 = true) {V M : Nat → Nat → Byte} (hV : ProductIsIdentity poly n V M)
    {a b : Nat} (ha : a < n) (hb : b < n) {c d : Byte} (hc : d ^^^ mul poly c (1#8 ^^^ mul poly d (V b a)) = 0#8) :
    ProductIsIdentity poly n (inverseOfAddAt poly V a b c) (addAt M a b d) := by
  lift a to Fin n using ha
  lift b to Fin n using hb
  have hcoeff : fieldValue poly d + fieldValue poly c * (1 + fieldValue poly d * fieldValue poly (V b a)) = 0 := by
    rw [← fieldValue_one, ← fieldValue_mul h, ← fieldValue_xor, ← fieldValue_mul h, ← fieldValue_xor, hc, fieldValue_zero]
  rw [productIsIdentity_iff h] at hV ⊢
  rw [fieldMatrix_inverseOfAddAt h, fieldMatrix_addAt]
  have hsquare : fieldMatrix poly n V * unitMatrix poly a b * (fieldMatrix poly n V * unitMatrix poly a b) =
      fieldValue poly (V b a) • (fieldMatrix poly n V * unitMatrix poly a b) := by
    rw [mul_assoc, ← mul_assoc (unitMatrix poly a b), unitMatrix, Matrix.single_mul_mul_single, one_mul, mul_one,
      ← Matrix.mul_smul, Matrix.smul_single, smul_eq_mul, mul_one]
    rfl
  generalize hN : fieldMatrix poly n V * unitMatrix poly a b = N at hsquare ⊢
  generalize fieldValue poly c = c' at hcoeff ⊢
  generalize fieldValue poly d = d' at hcoeff ⊢
  calc (fieldMatrix poly n V + c' • (N * fieldMatrix poly n V)) * (fieldMatrix poly n M + d' • unitMatrix poly a b)
      = (1 + c' • N) * (fieldMatrix poly n V * fieldMatrix poly n M + d' • (fieldMatrix poly n V * unitMatrix poly a b)) := by
        simp only [add_mul, mul_add, one_mul, smul_mul_assoc, mul_smul_comm, mul_assoc]
    _ = 1 + (d' + c' * (1 + d' * fieldValue poly (V b a))) • N := by
        rw [hV, hN]
        simp only [add_mul, mul_add, one_mul, mul_one, smul_mul_assoc, mul_smul_comm, hsquare]
        module
    _ = 1 := by rw [hcoeff, zero_smul, add_zero]

/-- A scalar for `productIsIdentity_addAt` that changes the inverse. -/
theorem exists_change_of_inverse (h : irreducibleOfDegree8 poly = true) (v : Byte) :
    ∃ c d : Byte, c ≠ 0#8 ∧ d ^^^ mul poly c (1#8 ^^^ mul poly d v) = 0#8 := by
  have h8 := getLsbD_eight_of_irreducible h
  obtain ⟨d, hd, hne⟩ : ∃ d : Byte, d ≠ 0#8 ∧ 1#8 ^^^ mul poly d v ≠ 0#8 := by
    by_cases hv : v = 1#8
    · exact ⟨2#8, by decide, by rw [hv, mul_one_byte]; decide⟩
    · exact ⟨1#8, by decide, by rw [one_byte_mul h8, Ne, BitVec.xor_eq_zero_iff]; exact fun h1 => hv h1.symm⟩
  obtain ⟨w, -, hw⟩ := mul_inverse h hne
  refine ⟨mul poly d w, d, fun hc => hd ?_, ?_⟩
  · rw [← mul_one_byte (poly := poly) d, ← hw, mul_comm_byte h8 _ w, ← mul_assoc_byte h8, hc, zero_byte_mul]
  · rw [mul_assoc_byte h8, mul_comm_byte h8 w, hw, mul_one_byte, BitVec.xor_self]

end

end Sys2Proof.Machine
end

section
/-! # Gauss-Jordan elimination (R124, R125)

A row pair relates vectors `u` and `w` when its left half times `u` is its right half times `w`. Row operations keep which vectors
all rows relate. At the start these are the `w = M·u`; when the left halves have become the identity they are the `u = V·w`. -/

open scoped Matrix

namespace Sys2Proof.Machine

open Sys2Proof.Claims

/-! ## Rows -/

/-- Row pair `i`. -/
def rowAt (rows : List RowPair) (i : Nat) : RowPair := rows.getD i ([], [])

theorem rowAt_of_lt {rows : List RowPair} {i : Nat} (hi : i < rows.length) : rowAt rows i = rows[i] :=
  List.getD_eq_getElem _ _ hi

theorem rowAt_mapIdx (f : Nat → RowPair → RowPair) {rows : List RowPair} {i : Nat} (hi : i < rows.length) :
    rowAt (rows.mapIdx f) i = f i (rowAt rows i) := by
  rw [rowAt_of_lt (by rwa [List.length_mapIdx]), List.getElem_mapIdx, rowAt_of_lt hi]

theorem rowAt_swapRows {c p i : Nat} {rows : List RowPair} (hi : i < rows.length) :
    rowAt (swapRows c p rows) i = rowAt rows (Equiv.swap c p i) := by
  rw [rowAt_of_lt (by simpa [swapRows] using hi), Equiv.swap_apply_def]
  simp only [swapRows, List.getElem_set, ← rowAt_of_lt hi]
  by_cases hip : i = p
  · subst hip
    by_cases hic : i = c
    · subst hic
      simp [rowAt]
    · simp [hic, rowAt]
  · by_cases hic : i = c
    · subst hic
      simp [Ne.symm hip, rowAt]
    · simp [hic, hip, Ne.symm hic, Ne.symm hip]

/-- R124: a pivot row is row `c` or a later one, and its pivot is not 0. -/
theorem findPivot_eq_some {n c p : Nat} {rows : List RowPair} (h : findPivot n c rows = some p) :
    c ≤ p ∧ p < n ∧ (rowAt rows p).1.getD c 0#8 ≠ 0#8 := by
  have hpivot := List.find?_some h
  rw [Bool.and_eq_true, decide_eq_true_eq, decide_eq_true_eq] at hpivot
  exact ⟨hpivot.1, List.mem_range.1 (List.mem_of_find?_eq_some h), hpivot.2⟩

theorem findPivot_eq_none {n c : Nat} {rows : List RowPair} (h : findPivot n c rows = none) {i : Nat} (hci : c ≤ i)
    (hi : i < n) : (rowAt rows i).1.getD c 0#8 = 0#8 := by
  have hi' := List.find?_eq_none.1 h i (List.mem_range.2 hi)
  rw [Bool.and_eq_true, decide_eq_true_eq, decide_eq_true_eq, not_and, not_not] at hi'
  exact hi' hci

section
variable {poly : BitVec 9} {n c : Nat}

/-- R124: the rows after pivot column `c`, with the pivot in row `p` and its inverse `v`. -/
def pivotedRow (poly : BitVec 9) (c p : Nat) (v : Byte) (rows : List RowPair) (i : Nat) : RowPair :=
  if i = c then scaleRow poly v (rowAt rows p)
  else eliminateRow poly c (scaleRow poly v (rowAt rows p)) (rowAt rows (Equiv.swap c p i))

theorem pivotColumn_of_no_pivot {rows : List RowPair} (hp : findPivot n c rows = none) : pivotColumn poly n c rows = none := by
  rw [pivotColumn, hp]

/-- R124: what a pivot column with a pivot does. -/
theorem pivotColumn_of_pivot (h : irreducibleOfDegree8 poly = true) {rows : List RowPair} {p : Nat} (hn : rows.length = n)
    (hc : c < n) (hp : findPivot n c rows = some p) :
    ∃ v rows', mul poly ((rowAt rows p).1.getD c 0#8) v = 1#8 ∧ pivotColumn poly n c rows = some rows' ∧ rows'.length = n ∧
      ∀ i, i < n → rowAt rows' i = pivotedRow poly c p v rows i := by
  obtain ⟨-, -, hne⟩ := findPivot_eq_some hp
  obtain ⟨v, hinv, hv⟩ := mul_inverse h hne
  have hpivot : (swapRows c p rows).getD c ([], []) = rowAt rows p := by
    have hswap := rowAt_swapRows (c := c) (p := p) (i := c) (hn ▸ hc)
    rwa [Equiv.swap_apply_left] at hswap
  have hlen : (swapRows c p rows).length = n := by simpa [swapRows] using hn
  have hcol : pivotColumn poly n c rows = some ((swapRows c p rows).mapIdx fun i r =>
      if i = c then scaleRow poly v (rowAt rows p) else eliminateRow poly c (scaleRow poly v (rowAt rows p)) r) := by
    rw [pivotColumn, hp]
    dsimp only
    rw [hpivot, hinv]
  refine ⟨v, _, hv, hcol, ?_, fun i hi => ?_⟩
  · rw [List.length_mapIdx, hlen]
  · rw [rowAt_mapIdx _ (hlen ▸ hi), rowAt_swapRows (hn ▸ hi)]
    rfl

/-! ## What a row pair relates -/

/-- The classes of the first `n` bytes of a list. -/
noncomputable def listVector (poly : BitVec 9) (n : Nat) (l : List Byte) := fieldVector poly n fun j => l.getD j 0#8

theorem getD_map_mul (l : List Byte) (v : Byte) (j : Nat) :
    (l.map fun x => mul poly x v).getD j 0#8 = mul poly (l.getD j 0#8) v := by
  simpa only [zero_byte_mul] using List.getD_map (l := l) (d := 0#8) (n := j) fun x => mul poly x v

theorem getD_zipWith_xor {l p : List Byte} (hl : l.length = p.length) (f : Byte) (j : Nat) :
    (List.zipWith (fun x y => x ^^^ mul poly f y) l p).getD j 0#8 = l.getD j 0#8 ^^^ mul poly f (p.getD j 0#8) := by
  by_cases hj : j < l.length
  · simp [hj, hl ▸ hj]
  · simp [hj, hl ▸ hj]

/-- Row operations act on lists as on vectors. -/
theorem listVector_map_mul (h : poly.getLsbD 8 = true) (l : List Byte) (v : Byte) :
    listVector poly n (l.map fun x => mul poly x v) = fieldValue poly v • listVector poly n l := by
  funext j
  simp only [listVector, fieldVector, Pi.smul_apply, smul_eq_mul, ← fieldValue_mul h, getD_map_mul, mul_comm_byte h v]

theorem listVector_zipWith_xor (h : poly.getLsbD 8 = true) {l p : List Byte} (hl : l.length = p.length) (f : Byte) :
    listVector poly n (List.zipWith (fun x y => x ^^^ mul poly f y) l p) =
      listVector poly n l + fieldValue poly f • listVector poly n p := by
  funext j
  simp only [listVector, fieldVector, Pi.smul_apply, Pi.add_apply, smul_eq_mul, ← fieldValue_mul h, ← fieldValue_xor,
    getD_zipWith_xor hl]

/-- The left half times `u` is the right half times `w`. -/
def Relates (poly : BitVec 9) (n : Nat) (u w : Fin n → AdjoinRoot (bitPoly poly.toNat)) (r : RowPair) : Prop :=
  listVector poly n r.1 ⬝ᵥ u = listVector poly n r.2 ⬝ᵥ w

theorem relates_scaleRow (h : poly.getLsbD 8 = true) {u w : Fin n → AdjoinRoot (bitPoly poly.toNat)} {r : RowPair}
    {x v : Byte} (hv : mul poly x v = 1#8) : Relates poly n u w (scaleRow poly v r) ↔ Relates poly n u w r := by
  have hunit : IsUnit (fieldValue poly v) :=
    IsUnit.of_mul_eq_one_right _ (by rw [← fieldValue_mul h, hv, fieldValue_one])
  simp only [Relates, scaleRow, listVector_map_mul h, smul_dotProduct, smul_eq_mul, hunit.mul_right_inj]

theorem relates_eliminateRow (h : poly.getLsbD 8 = true) {u w : Fin n → AdjoinRoot (bitPoly poly.toNat)} {p r : RowPair}
    (hwidth : r.1.length = p.1.length ∧ r.2.length = p.2.length) (hp : Relates poly n u w p) :
    Relates poly n u w (eliminateRow poly c p r) ↔ Relates poly n u w r := by
  unfold eliminateRow
  split
  · rfl
  · rw [Relates] at hp
    simp only [Relates, listVector_zipWith_xor h hwidth.1, listVector_zipWith_xor h hwidth.2, add_dotProduct, smul_dotProduct, hp,
      add_left_inj]

/-! ## A pivot column -/

theorem eliminateRow_width {p r : RowPair} (hwidth : r.1.length = p.1.length ∧ r.2.length = p.2.length) :
    (eliminateRow poly c p r).1.length = r.1.length ∧ (eliminateRow poly c p r).2.length = r.2.length := by
  unfold eliminateRow
  split
  · exact ⟨rfl, rfl⟩
  · simp [hwidth]

theorem getD_eliminateRow {p r : RowPair} (hwidth : r.1.length = p.1.length) (j : Nat) :
    (eliminateRow poly c p r).1.getD j 0#8 = r.1.getD j 0#8 ^^^ mul poly (r.1.getD c 0#8) (p.1.getD j 0#8) := by
  unfold eliminateRow
  split
  · next h0 => rw [h0, zero_byte_mul, BitVec.xor_zero]
  · exact getD_zipWith_xor hwidth _ j

theorem getD_scaleRow (v : Byte) (r : RowPair) (j : Nat) :
    (scaleRow poly v r).1.getD j 0#8 = mul poly (r.1.getD j 0#8) v := getD_map_mul _ _ _

/-- Every row has `n` bytes in each half. -/
def RowsOfWidth (n : Nat) (rows : Nat → RowPair) : Prop := ∀ i, i < n → (rows i).1.length = n ∧ (rows i).2.length = n

/-- The first `c` columns of the left half are those of the identity. -/
def UnitColumns (n c : Nat) (rows : Nat → RowPair) : Prop :=
  ∀ i j, i < n → j < c → (rows i).1.getD j 0#8 = identityAt i j

theorem swap_lt {p i : Nat} (hc : c < n) (hp : p < n) (hi : i < n) : Equiv.swap c p i < n := by
  rw [Equiv.swap_apply_def]
  split_ifs <;> assumption

section
variable {rows : List RowPair} {p : Nat} {v : Byte}

theorem scaleRow_width {r : RowPair} : (scaleRow poly v r).1.length = r.1.length ∧ (scaleRow poly v r).2.length = r.2.length := by
  simp [scaleRow]

theorem pivotedRow_width (hw : RowsOfWidth n (rowAt rows)) (hc : c < n) (hp : p < n) :
    RowsOfWidth n (pivotedRow poly c p v rows) := by
  intro i hi
  obtain ⟨hp1, hp2⟩ := hw p hp
  obtain ⟨hi1, hi2⟩ := hw _ (swap_lt hc hp hi)
  obtain ⟨hs1, hs2⟩ := scaleRow_width (poly := poly) (v := v) (r := rowAt rows p)
  unfold pivotedRow
  split
  · exact ⟨hs1.trans hp1, hs2.trans hp2⟩
  · obtain ⟨he1, he2⟩ := eliminateRow_width (poly := poly) (c := c) (p := scaleRow poly v (rowAt rows p))
      (r := rowAt rows (Equiv.swap c p i)) ⟨by omega, by omega⟩
    exact ⟨he1.trans hi1, he2.trans hi2⟩

theorem pivotedRow_unitColumns (hw : RowsOfWidth n (rowAt rows)) (hu : UnitColumns n c (rowAt rows)) (hcp : c ≤ p)
    (hp : p < n) (hv : mul poly ((rowAt rows p).1.getD c 0#8) v = 1#8) :
    UnitColumns n (c + 1) (pivotedRow poly c p v rows) := by
  intro i j hi hj
  have hswap := swap_lt (hcp.trans_lt hp) hp hi
  obtain ⟨hp1, -⟩ := hw p hp
  obtain ⟨hi1, -⟩ := hw _ hswap
  have hscaled : (scaleRow poly v (rowAt rows p)).1.getD j 0#8 = identityAt c j := by
    rw [getD_scaleRow]
    rcases Nat.lt_succ_iff_lt_or_eq.1 hj with hj | rfl
    · rw [hu p j hp hj, identityAt, identityAt, if_neg (by omega), if_neg (by omega), zero_byte_mul]
    · rw [hv, identityAt, if_pos rfl]
  unfold pivotedRow
  split
  · next hic => rw [hscaled, hic]
  · next hic =>
    rw [getD_eliminateRow (by rw [scaleRow_width.1]; omega), hscaled]
    rcases Nat.lt_succ_iff_lt_or_eq.1 hj with hj | rfl
    · rw [hu _ j hswap hj, identityAt, identityAt, identityAt, if_neg (c := c = j) (by omega), mul_zero_byte, BitVec.xor_zero]
      congr 1
      rw [Equiv.swap_apply_def]
      split_ifs <;> apply propext <;> omega
    · rw [identityAt, identityAt, if_pos rfl, if_neg hic, mul_one_byte, BitVec.xor_self]

theorem pivotedRow_relates (h : poly.getLsbD 8 = true) (hw : RowsOfWidth n (rowAt rows)) (hc : c < n) (hp : p < n)
    (hv : mul poly ((rowAt rows p).1.getD c 0#8) v = 1#8) (u w : Fin n → AdjoinRoot (bitPoly poly.toNat)) :
    (∀ i, i < n → Relates poly n u w (pivotedRow poly c p v rows i)) ↔ ∀ i, i < n → Relates poly n u w (rowAt rows i) := by
  have helim (i : Nat) (hi : i < n) (hpivot : Relates poly n u w (scaleRow poly v (rowAt rows p))) :
      Relates poly n u w (eliminateRow poly c (scaleRow poly v (rowAt rows p)) (rowAt rows i)) ↔
        Relates poly n u w (rowAt rows i) := by
    obtain ⟨hp1, hp2⟩ := hw p hp
    obtain ⟨hi1, hi2⟩ := hw i hi
    exact relates_eliminateRow h ⟨by rw [scaleRow_width.1]; omega, by rw [scaleRow_width.2]; omega⟩ hpivot
  constructor
  · intro hall i hi
    have hpivot := hall c hc
    rw [pivotedRow, if_pos rfl] at hpivot
    by_cases hip : i = p
    · rw [hip]
      exact (relates_scaleRow h hv).1 hpivot
    · have hj := hall _ (swap_lt hc hp hi)
      have hne : Equiv.swap c p i ≠ c := by
        rw [Equiv.swap_apply_def]
        split_ifs <;> omega
      rw [pivotedRow, if_neg hne, Equiv.swap_apply_self, helim i hi hpivot] at hj
      exact hj
  · intro hall i hi
    have hpivot := (relates_scaleRow h hv).2 (hall p hp)
    unfold pivotedRow
    split
    · exact hpivot
    · have hswap := swap_lt hc hp hi
      exact (helim _ hswap hpivot).2 (hall _ hswap)

end

/-! ## The loop over the columns -/

/-- R124: the rows of the elimination of `A` after the first `c` columns. -/
structure Reduced (poly : BitVec 9) (n : Nat) (A : Nat → Nat → Byte) (c : Nat) (rows : List RowPair) : Prop where
  length : rows.length = n
  width : RowsOfWidth n (rowAt rows)
  unit : UnitColumns n c (rowAt rows)
  relates : ∀ u w, (∀ i, i < n → Relates poly n u w (rowAt rows i)) ↔ fieldMatrix poly n A *ᵥ u = w

section
variable {A : Nat → Nat → Byte} {rows : List RowPair}

theorem Reduced.step (h : irreducibleOfDegree8 poly = true) (hr : Reduced poly n A c rows) (hc : c < n) {p : Nat}
    (hpivot : findPivot n c rows = some p) :
    ∃ rows', pivotColumn poly n c rows = some rows' ∧ Reduced poly n A (c + 1) rows' := by
  obtain ⟨hcp, hp, -⟩ := findPivot_eq_some hpivot
  obtain ⟨v, rows', hv, hcol, hlen, hrow⟩ := pivotColumn_of_pivot h hr.length hc hpivot
  refine ⟨rows', hcol, hlen, fun i hi => ?_, fun i j hi hj => ?_, fun u w => ?_⟩
  · rw [hrow i hi]
    exact pivotedRow_width hr.width hc hp i hi
  · rw [hrow i hi]
    exact pivotedRow_unitColumns hr.width hr.unit hcp hp hv i j hi hj
  · rw [← hr.relates, ← pivotedRow_relates (getLsbD_eight_of_irreducible h) hr.width hc hp hv]
    exact forall₂_congr fun i hi => by rw [hrow i hi]

/-- R124: the elimination reduces every column, or stops at the first one without a pivot. -/
theorem eliminateFrom_cases (h : irreducibleOfDegree8 poly = true) : ∀ (todo c : Nat) (rows : List RowPair), c + todo = n →
    Reduced poly n A c rows →
    (∃ rows', eliminateFrom poly n todo c rows = .ok rows' ∧ Reduced poly n A n rows') ∨
      ∃ c' rows', c' < n ∧ eliminateFrom poly n todo c rows = .error c' ∧ Reduced poly n A c' rows' ∧
        findPivot n c' rows' = none
  | 0, c, rows, hn, hr => .inl ⟨rows, rfl, hn ▸ hr⟩
  | todo + 1, c, rows, hn, hr => by
    have hc : c < n := by omega
    rw [eliminateFrom]
    rcases hpivot : findPivot n c rows with _ | p
    · rw [pivotColumn_of_no_pivot hpivot]
      exact .inr ⟨c, rows, hc, rfl, hr, hpivot⟩
    · obtain ⟨rows', hcol, hr'⟩ := hr.step h hc hpivot
      rw [hcol]
      exact eliminateFrom_cases h todo (c + 1) rows' (by omega) hr'

/-! ## The start and the end of the elimination -/

/-- R120: the list matrix `M` is the `n × n` matrix with the elements of `A`. -/
structure Matrix.Represents (M : Matrix) (n : Nat) (A : Nat → Nat → Byte) : Prop where
  length : M.length = n
  width : ∀ i, i < n → (M.getD i []).length = n
  element : ∀ i j, i < n → j < n → M.at i j = A i j

theorem Matrix.represents_tabulate {f : Nat → Nat → Byte} (hf : ∀ i j, i < n → j < n → f i j = A i j) :
    (Matrix.tabulate n n f).Represents n A := by
  have hrow (i : Nat) (hi : i < n) : (Matrix.tabulate n n f).getD i [] = (List.range n).map (f i) := by
    simp [Matrix.tabulate, hi]
  refine ⟨by simp [Matrix.tabulate], fun i hi => by rw [hrow i hi]; simp, fun i j hi hj => ?_⟩
  rw [Matrix.at, hrow i hi, ← hf i j hi hj]
  simp [hj]

theorem fieldVector_identityAt_dotProduct (u : Fin n → AdjoinRoot (bitPoly poly.toNat)) (i : Fin n) :
    fieldVector poly n (identityAt i) ⬝ᵥ u = u i := by
  have hone : (fieldMatrix poly n identityAt *ᵥ u) i = u i := by rw [fieldMatrix_identity, Matrix.one_mulVec]
  exact hone

theorem reduced_start (h : poly.getLsbD 8 = true) {M : Matrix} (hM : M.Represents n A) :
    Reduced poly n A 0 (List.zip M (Matrix.tabulate n n identityAt)) := by
  have hT : (Matrix.tabulate n n identityAt).Represents n identityAt := Matrix.represents_tabulate fun _ _ _ _ => rfl
  have hlen : (List.zip M (Matrix.tabulate n n identityAt)).length = n := by simp [hM.length, hT.length]
  have hrow (i : Nat) (hi : i < n) : rowAt (List.zip M (Matrix.tabulate n n identityAt)) i =
      (M.getD i [], (Matrix.tabulate n n identityAt).getD i []) := by
    rw [rowAt_of_lt (hi.trans_eq hlen.symm), List.getElem_zip, List.getD_eq_getElem, List.getD_eq_getElem]
  refine ⟨hlen, fun i hi => ?_, fun i j _ hj => absurd hj (Nat.not_lt_zero j), fun u w => ?_⟩
  · rw [hrow i hi]
    exact ⟨hM.width i hi, hT.width i hi⟩
  · have hleft (i : Fin n) : listVector poly n (M.getD i []) = fieldVector poly n (A i) :=
      (fieldVector_eq_iff h).2 fun j hj => hM.element i j i.isLt hj
    have hright (i : Fin n) :
        listVector poly n ((Matrix.tabulate n n identityAt).getD i []) = fieldVector poly n (identityAt i) :=
      (fieldVector_eq_iff h).2 fun j hj => hT.element i j i.isLt hj
    rw [funext_iff, Fin.forall_iff]
    refine forall₂_congr fun i hi => ?_
    rw [hrow i hi, Relates, hleft ⟨i, hi⟩, hright ⟨i, hi⟩, fieldVector_identityAt_dotProduct]
    rfl

/-- R124: when all columns are reduced the right half is the inverse. -/
theorem Reduced.productIsIdentity (h : poly.getLsbD 8 = true) (hr : Reduced poly n A n rows) :
    ProductIsIdentity poly n (Matrix.at (rows.map fun r => r.2)) A := by
  have hleft (i : Fin n) : listVector poly n (rowAt rows i).1 = fieldVector poly n (identityAt i) :=
    (fieldVector_eq_iff h).2 fun j hj => hr.unit i j i.isLt hj
  have hright (i : Fin n) : fieldVector poly n (Matrix.at (rows.map fun r => r.2) i) = listVector poly n (rowAt rows i).2 :=
    congrArg (fun l : List Byte => listVector poly n l) (List.getD_map (l := rows) (d := ([], [])) (n := i) fun r => r.2)
  rw [productIsIdentity_iff h]
  refine Matrix.mulVec_injective (funext fun u => ?_)
  rw [← Matrix.mulVec_mulVec, Matrix.one_mulVec]
  funext i
  have hrelated := (hr.relates u _).2 rfl i i.isLt
  rw [Relates, hleft, fieldVector_identityAt_dotProduct, ← hright] at hrelated
  exact hrelated.symm

/-- R125: the vectors a matrix takes to 0 are those its reduced rows take to 0. -/
theorem Reduced.mulVec_eq_zero_iff (h : poly.getLsbD 8 = true) (hr : Reduced poly n A c rows) {x : Nat → Byte} :
    fieldMatrix poly n A *ᵥ fieldVector poly n x = 0 ↔
      ∀ i, i < n → xorSum (fun j => mul poly ((rowAt rows i).1.getD j 0#8) (x j)) n = 0#8 := by
  rw [← hr.relates]
  refine forall₂_congr fun i hi => ?_
  rw [Relates, dotProduct_zero, listVector, dotProduct_fieldVector h, ← fieldValue_zero, (fieldValue_injective h).eq_iff]

/-! ## Dependent columns -/

/-- R12: terms that are 0 do not count. -/
theorem xorSum_of_zero_from {f : Nat → Byte} {m : Nat} (hm : m ≤ n) (hf : ∀ j, m ≤ j → j < n → f j = 0#8) :
    xorSum f n = xorSum f m := by
  induction n, hm using Nat.le_induction with
  | base => rfl
  | succ n hm ih => rw [xorSum, hf n hm (Nat.lt_succ_self n), BitVec.xor_zero, ih fun j h1 h2 => hf j h1 (by omega)]

/-- R120: a row of the identity times a column. -/
theorem xorSum_identityAt (h : poly.getLsbD 8 = true) (x : Nat → Byte) (i m : Nat) :
    xorSum (fun j => mul poly (identityAt i j) (x j)) m = if i < m then x i else 0#8 := by
  induction m with
  | zero => rfl
  | succ m ih =>
    rw [xorSum, ih, identityAt]
    rcases Nat.lt_trichotomy i m with hi | rfl | hi
    · rw [if_pos hi, if_neg hi.ne, if_pos (by omega), zero_byte_mul, BitVec.xor_zero]
    · rw [if_neg (Nat.lt_irrefl i), if_pos rfl, if_pos (by omega), one_byte_mul h, BitVec.zero_xor]
    · rw [if_neg (by omega), if_neg hi.ne', if_neg (by omega), zero_byte_mul, BitVec.xor_zero]

/-- The first `m` entries of `x`, then 0. -/
def firstEntries (m : Nat) (x : Nat → Byte) (j : Nat) : Byte := if j < m then x j else 0#8

theorem firstEntries_of_lt {m j : Nat} (hj : j < m) (x : Nat → Byte) : firstEntries m x j = x j := if_pos hj

theorem firstEntries_of_le {m j : Nat} (hj : m ≤ j) (x : Nat → Byte) : firstEntries m x j = 0#8 := if_neg (Nat.not_lt.2 hj)

/-- R125: columns `0..c` are dependent when `A` takes a vector but 0 with no other entries to 0. -/
theorem columnsDependent_iff (h : poly.getLsbD 8 = true) (hc : c < n) :
    ColumnsDependent poly n c A ↔
      ∃ x : Nat → Byte, (∃ j, j ≤ c ∧ x j ≠ 0#8) ∧ (∀ j, c < j → x j = 0#8) ∧
        fieldMatrix poly n A *ᵥ fieldVector poly n x = 0 := by
  have hmulVec (x : Nat → Byte) (hx : ∀ j, c < j → x j = 0#8) : fieldMatrix poly n A *ᵥ fieldVector poly n x = 0 ↔
      ∀ i, i < n → xorSum (fun j => mul poly (A i j) (x j)) (c + 1) = 0#8 := by
    rw [funext_iff, Fin.forall_iff]
    refine forall₂_congr fun i hi => ?_
    rw [fieldMatrix_mulVec_apply h, xorSum_of_zero_from hc fun j hj _ => by rw [hx j hj, mul_zero_byte], Pi.zero_apply,
      ← fieldValue_zero, (fieldValue_injective h).eq_iff]
  constructor
  · rintro ⟨x, ⟨j, hj, hxj⟩, hzero⟩
    have hx (j : Nat) (hj : c < j) : firstEntries (c + 1) x j = 0#8 := firstEntries_of_le hj x
    refine ⟨firstEntries (c + 1) x, ⟨j, hj, by rwa [firstEntries_of_lt (by omega)]⟩, hx, (hmulVec _ hx).2 fun i hi => ?_⟩
    rw [← hzero i hi]
    exact xorSum_congr fun j hj => by rw [firstEntries_of_lt hj]
  · rintro ⟨x, hne, hx, hzero⟩
    exact ⟨x, hne, (hmulVec x hx).1 hzero⟩

/-- R125: a matrix with dependent columns has no inverse. -/
theorem not_invertible_of_columnsDependent (h : poly.getLsbD 8 = true) (hc : c < n) (hA : ColumnsDependent poly n c A) :
    ¬Invertible poly n A := by
  rintro ⟨V, hV⟩
  obtain ⟨x, ⟨j, hj, hxj⟩, -, hzero⟩ := (columnsDependent_iff h hc).1 hA
  exact hxj (productIsIdentity_eq_zero h hV hzero (by omega))

/-- The combination of columns that a column `c` without a pivot gives: its entries in the rows above row `c`, and 1. -/
def columnRelation (rows : List RowPair) (c j : Nat) : Byte :=
  if j < c then (rowAt rows j).1.getD c 0#8 else identityAt j c

theorem columnRelation_of_lt {j : Nat} (hj : j < c) : columnRelation rows c j = (rowAt rows j).1.getD c 0#8 := if_pos hj

theorem columnRelation_self : columnRelation rows c c = 1#8 := by
  rw [columnRelation, if_neg (Nat.lt_irrefl c), identityAt, if_pos rfl]

theorem columnRelation_of_gt {j : Nat} (hj : c < j) : columnRelation rows c j = 0#8 := by
  rw [columnRelation, if_neg (by omega), identityAt, if_neg (by omega)]

/-- R125: a column without a pivot depends on the columns before it. -/
theorem Reduced.columnsDependent (h : poly.getLsbD 8 = true) (hr : Reduced poly n A c rows) (hc : c < n)
    (hpivot : findPivot n c rows = none) : ColumnsDependent poly n c A := by
  refine (columnsDependent_iff h hc).2 ⟨columnRelation rows c, ⟨c, le_rfl, by rw [columnRelation_self]; decide⟩,
    fun j hj => columnRelation_of_gt hj, (hr.mulVec_eq_zero_iff h).2 fun i hi => ?_⟩
  rw [xorSum_of_zero_from hc fun j hj _ => by rw [columnRelation_of_gt hj, mul_zero_byte], xorSum, columnRelation_self,
    mul_one_byte,
    xorSum_congr (g := fun j => mul poly (identityAt i j) ((rowAt rows j).1.getD c 0#8)) fun j hj => by
      rw [columnRelation_of_lt hj, hr.unit i j hi hj],
    xorSum_identityAt h]
  split
  · exact BitVec.xor_self
  · next hic => rw [findPivot_eq_none hpivot (Nat.not_lt.1 hic) hi, BitVec.xor_zero]

/-- R125: columns that are reduced are independent. -/
theorem Reduced.not_columnsDependent (h : poly.getLsbD 8 = true) (hr : Reduced poly n A c rows) (hc : c < n) {b : Nat}
    (hb : b < c) : ¬ColumnsDependent poly n b A := by
  intro hdep
  obtain ⟨x, ⟨j, hj, hxj⟩, hx, hzero⟩ := (columnsDependent_iff h (hb.trans hc)).1 hdep
  have hrow := (hr.mulVec_eq_zero_iff h).1 hzero j (by omega)
  rw [xorSum_of_zero_from (m := c) hc.le fun t ht _ => by rw [hx t (by omega), mul_zero_byte],
    xorSum_congr (g := fun t => mul poly (identityAt j t) (x t)) fun t ht => by rw [hr.unit j t (by omega) ht],
    xorSum_identityAt h, if_pos (by omega)] at hrow
  exact hxj hrow

/-! ## The inverse of a matrix -/

/-- R124, R125: `invert` finds the inverse, or the least column that depends on those before it. -/
theorem invert_cases (h : irreducibleOfDegree8 poly = true) {M : Matrix} (hM : M.Represents n A) :
    (∃ V, invert poly n M = .ok V ∧ ProductIsIdentity poly n V.at A) ∨
      ∃ c, c < n ∧ invert poly n M = .error c ∧ ColumnsDependent poly n c A ∧ ∀ b, b < c → ¬ColumnsDependent poly n b A := by
  have h8 := getLsbD_eight_of_irreducible h
  rcases eliminateFrom_cases h n 0 _ (Nat.zero_add n) (reduced_start h8 hM) with
    ⟨rows, hrows, hr⟩ | ⟨c, rows, hc, hrows, hr, hpivot⟩
  · exact .inl ⟨_, by rw [invert, hrows], hr.productIsIdentity h8⟩
  · exact .inr ⟨c, hc, by rw [invert, hrows], hr.columnsDependent h8 hc hpivot, fun b hb => hr.not_columnsDependent h8 hc hb⟩

end

end

end Sys2Proof.Machine
end

section
/-! # INVERT (O35, O36) -/

namespace Sys2Proof.Machine

open Sys2Proof.Claims

section
variable {s : State} {dst s1 : Nat}

/-- R131: what INVERT writes when the drawn matrix has an inverse. -/
def State.withInverse (s : State) (dst s1 : Nat) (V : Matrix) : State :=
  s.withMem (s.mem.fillMatrix dst s.dim1.toNat s.dim1.toNat (inverseValue V (s.unspecifiedIn s1 s.dim1.toNat)))

/-- R131, U5: what INVERT leaves when it has none. -/
def State.withCornerForgotten (s : State) (dst : Nat) : State :=
  s.withMem (s.mem.fillMatrix dst s.dim1.toNat s.dim1.toNat fun _ _ => none)

/-- R131: the operands INVERT accepts. -/
structure InvertLegal (dst s1 : Nat) (s : State) : Prop where
  ids : ¬InvertIdsBad dst s1
  dim : dimLegal s.params s.dim1 = true
  configured : s1 = 0 → s.cfgv = true

theorem InvertLegal.not_unconfigured (hlegal : InvertLegal dst s1 s) : ¬(s1 = 0 ∧ s.cfgv = false) := fun ⟨hG, hc⟩ =>
  absurd ((hlegal.configured hG).symm.trans hc) (by decide)

theorem invertLegal_of_operands (hdst : dst ≤ 4) (hs1 : s1 ≤ 4) (hdst0 : dst ≠ 0) (hne : dst ≠ s1)
    (hlo : 1 ≤ s.dim1.toNat) (hhi : s.dim1.toNat ≤ s.params.mmax) (hG : s1 = 0 → s.cfgv = true) : InvertLegal dst s1 s :=
  ⟨by unfold InvertIdsBad; omega, dimLegal_eq_true_iff.2 ⟨hlo, hhi⟩, hG⟩

/-- R131: INVERT with legal operands ends as the elimination of the drawn matrix does. -/
theorem invertEnd_of_inverse (hlegal : InvertLegal dst s1 s) {V : Matrix}
    (hV : invert s.params.poly s.dim1.toNat (s.cornerSample s1 s.dim1.toNat) = .ok V) :
    invertEnd dst s1 s = .ok (s.withInverse dst s1 V) := by
  refine (if_neg hlegal.ids).trans ((if_neg (not_not.2 hlegal.dim)).trans ((if_neg hlegal.not_unconfigured).trans ?_))
  rw [hV]
  rfl

theorem invertEnd_of_singular (hlegal : InvertLegal dst s1 s) {c : Nat}
    (hc : invert s.params.poly s.dim1.toNat (s.cornerSample s1 s.dim1.toNat) = .error c) :
    invertEnd dst s1 s = .error .singularMatrix c (s.withCornerForgotten dst) := by
  refine (if_neg hlegal.ids).trans ((if_neg (not_not.2 hlegal.dim)).trans ((if_neg hlegal.not_unconfigured).trans ?_))
  rw [hc]
  rfl

/-- R125, R131: INVERT with legal operands, on a drawn matrix with the elements of `A`. -/
theorem exec_invert_cases (hp : s.params.Valid) (hlegal : InvertLegal dst s1 s) {A : Nat → Nat → Byte}
    (hA : ∀ i j, i < s.dim1.toNat → j < s.dim1.toNat → s.sample (matAddr s1 i j) = A i j) :
    (∃ V, ProductIsIdentity s.params.poly s.dim1.toNat V.at A ∧
        exec (.invert dst s1) s = .next (s.withInverse dst s1 V).finish) ∨
      ∃ c, c < s.dim1.toNat ∧ ColumnsDependent s.params.poly s.dim1.toNat c A ∧
        (∀ b, b < c → ¬ColumnsDependent s.params.poly s.dim1.toNat b A) ∧
        exec (.invert dst s1) s = .next ((s.withCornerForgotten dst).raise .singularMatrix c) := by
  have hsample : (s.cornerSample s1 s.dim1.toNat).Represents s.dim1.toNat A := Matrix.represents_tabulate hA
  obtain ⟨hirr, -⟩ := hp
  rcases invert_cases hirr hsample with ⟨V, hV, hinv⟩ | ⟨c, hc, herr, hdep, hleast⟩
  · exact .inl ⟨V, hinv, exec_of_ok (invertEnd_of_inverse hlegal hV)⟩
  · exact .inr ⟨c, hc, hdep, hleast, exec_of_error (invertEnd_of_singular hlegal herr)⟩

/-! ## The destination -/

theorem withInverse_valueAt {V : Matrix} {i j : Nat} (hi : i < s.dim1.toNat) (hj : j < s.dim1.toNat) :
    (s.withInverse dst s1 V).valueAt (matAddr dst i j) = inverseValue V (s.unspecifiedIn s1 s.dim1.toNat) i j :=
  Memory.byteAt_fillMatrix_at _ _ _ _ _ _ _ s.dim1.isLt.le hi hj

theorem withInverse_valueAt_off {V : Matrix} {a : Nat}
    (ha : ∀ i j, i < s.dim1.toNat → j < s.dim1.toNat → a ≠ matAddr dst i j) :
    (s.withInverse dst s1 V).valueAt a = s.valueAt a :=
  Memory.byteAt_fillMatrix_off _ _ _ _ _ _ s.dim1.isLt.le ha

theorem withCornerForgotten_valueAt {i j : Nat} (hi : i < s.dim1.toNat) (hj : j < s.dim1.toNat) :
    (s.withCornerForgotten dst).valueAt (matAddr dst i j) = none :=
  Memory.byteAt_fillMatrix_at _ _ _ _ _ _ _ s.dim1.isLt.le hi hj

theorem withCornerForgotten_valueAt_off {a : Nat}
    (ha : ∀ i j, i < s.dim1.toNat → j < s.dim1.toNat → a ≠ matAddr dst i j) :
    (s.withCornerForgotten dst).valueAt a = s.valueAt a :=
  Memory.byteAt_fillMatrix_off _ _ _ _ _ _ s.dim1.isLt.le ha

/-! ## Unspecified elements (R257) -/

theorem sample_of_corner {id n : Nat} {M : Nat → Nat → Byte} (hM : Corner s id n n M) (i j : Nat) (hi : i < n) (hj : j < n) :
    s.sample (matAddr id i j) = M i j :=
  State.sample_of_valueAt (hM i j hi hj)

theorem fills_sample (s : State) (id n : Nat) : Fills s id n fun i j => s.sample (matAddr id i j) :=
  fun _ _ _ _ _ hv => State.sample_of_valueAt hv

/-- The specified elements stay when an unspecified one is changed. -/
theorem fills_addAt {id n a b : Nat} {X : Nat → Nat → Byte} (hX : Fills s id n X) (hab : (a, b) ∈ s.unspecifiedIn id n)
    (d : Byte) : Fills s id n (addAt X a b d) := by
  intro i j v hi hj hv
  obtain ⟨-, -, hnone⟩ := mem_unspecifiedIn.1 hab
  have hne : ¬(i = a ∧ j = b) := by
    rintro ⟨rfl, rfl⟩
    rw [hnone] at hv
    cases hv
  rw [addAt, if_neg hne, BitVec.xor_zero, hX i j v hi hj hv]

/-- R257, U1: an element with one value in the inverses of all fillings is left specified. -/
theorem inverseValue_of_determined {poly : BitVec 9} (h : irreducibleOfDegree8 poly = true) {id n i j : Nat} {V : Matrix}
    {X : Nat → Nat → Byte} {v : Byte} (hX : Fills s id n X) (hV : ProductIsIdentity poly n V.at X)
    (hall : ∀ Y W, Fills s id n Y → ProductIsIdentity poly n W Y → W i j = v) :
    inverseValue V (s.unspecifiedIn id n) i j = some v := by
  have hv := hall X V.at hX hV
  rcases hvalue : inverseValue V (s.unspecifiedIn id n) i j with _ | w
  · obtain ⟨a, b, hab, hia, hbj⟩ := inverseValue_eq_none.1 hvalue
    obtain ⟨ha, hb, -⟩ := mem_unspecifiedIn.1 hab
    obtain ⟨c, d, hc, hcd⟩ := exists_change_of_inverse h (V.at b a)
    have hchanged := hall _ _ (fills_addAt hX hab d) (productIsIdentity_addAt (getLsbD_eight_of_irreducible h) hV ha hb hcd)
    rw [inverseOfAddAt, hv] at hchanged
    have hzero := (BitVec.xor_right_inj v).1 (hchanged.trans BitVec.xor_zero.symm)
    rcases eq_zero_or_eq_zero_of_mul_byte_eq_zero h hzero with h0 | h0
    · exact absurd h0 hc
    · rcases eq_zero_or_eq_zero_of_mul_byte_eq_zero h h0 with h0 | h0
      · exact absurd h0 hia
      · exact absurd h0 hbj
  · rw [inverseValue_eq_some hvalue, hv]

end

/-- Settles O35: by `exec_invert_cases` INVERT follows the drawn matrix, which is the source where that is specified. -/
theorem invertWritesTheInverse : Obligations.InvertWritesTheInverse := by
  constructor
  · intro dst s1 s M hp hdst hs1 hdst0 hne hlo hhi hG hM hinv
    have h8 := getLsbD_eight_of_irreducible hp.1
    have hlegal := invertLegal_of_operands hdst hs1 hdst0 hne hlo hhi hG
    rcases exec_invert_cases hp hlegal (sample_of_corner hM) with ⟨V, hV, hexec⟩ | ⟨c, hc, hdep, -, -⟩
    · have hnil : s.unspecifiedIn s1 s.dim1.toNat = [] := unspecifiedIn_eq_nil fun a b ha hb => by simp [hM a b ha hb]
      refine ⟨_, V.at, hexec, rfl, fun i j hi hj => ?_, productIsIdentity_symm h8 hV, hV, fun a => withInverse_valueAt_off⟩
      exact (withInverse_valueAt hi hj).trans (by rw [hnil, inverseValue_nil])
    · exact absurd hinv (not_invertible_of_columnsDependent h8 hc hdep)
  · intro dst s1 s hp hdst hs1 hdst0 hne hlo hhi hG
    have h8 := getLsbD_eight_of_irreducible hp.1
    have hlegal := invertLegal_of_operands hdst hs1 hdst0 hne hlo hhi hG
    have hfills := fills_sample s s1 s.dim1.toNat
    rcases exec_invert_cases hp hlegal fun _ _ _ _ => rfl with ⟨V, hV, hexec⟩ | ⟨c, hc, hdep, hleast, hexec⟩
    · refine ⟨_, _, hfills, hexec, fun _ => ⟨rfl, fun W hW i j hi hj => ?_, fun i j v hi hj hall => ?_⟩,
        fun hsing => absurd ⟨_, hV⟩ hsing, fun a => withInverse_valueAt_off⟩
      · rw [State.finish_valueAt, withInverse_valueAt hi hj, productIsIdentity_unique h8 hW hV hi hj]
        rcases hvalue : inverseValue V (s.unspecifiedIn s1 s.dim1.toNat) i j with _ | w
        · exact .inr rfl
        · exact .inl (by rw [inverseValue_eq_some hvalue])
      · rw [State.finish_valueAt, withInverse_valueAt hi hj, inverseValue_of_determined hp.1 hfills hV hall]
    · refine ⟨_, _, hfills, hexec, fun hinv => absurd hinv (not_invertible_of_columnsDependent h8 hc hdep),
        fun _ => ⟨⟨c, hc, rfl, hdep, hleast⟩, fun i j => withCornerForgotten_valueAt⟩,
        fun a => withCornerForgotten_valueAt_off⟩

/-- Settles O36: the second case of `exec_invert_cases`, since the first gives an inverse. -/
theorem invertReportsTheFirstDependentColumn : Obligations.InvertReportsTheFirstDependentColumn := by
  intro dst s1 s M hp hdst hs1 hdst0 hne hlo hhi hG hM hsing
  have hlegal := invertLegal_of_operands hdst hs1 hdst0 hne hlo hhi hG
  rcases exec_invert_cases hp hlegal (sample_of_corner hM) with ⟨V, hV, -⟩ | ⟨c, hc, hdep, hleast, hexec⟩
  · exact absurd ⟨V.at, hV⟩ hsing
  · exact ⟨_, c, hexec, rfl, hc, hdep, hleast, fun i j => withCornerForgotten_valueAt, fun a => withCornerForgotten_valueAt_off⟩

end Sys2Proof.Machine
end

section
/-! # RECON and PARITY (O46, O49) -/

namespace Sys2Proof.Machine

open Sys2Proof.Claims

section
variable {s : State}

/-! ## Reconstruction -/

theorem lostFragment_of_listed {p e : Nat} (he : e < s.m) (h : s.valueAt (listAddr 0 p) = some (BitVec.ofNat 8 e)) :
    s.lostFragment p = e := by
  have hm := m_lt s
  rw [State.lostFragment, idErrl, State.sample_of_valueAt h, BitVec.toNat_ofNat, Nat.mod_eq_of_lt (by omega)]

/-- R34: with `DV` 1 the listed fragments are in increasing order. -/
theorem lostFragment_strictMono (h : s.Inv) (hdv : s.dv = true) {p q : Nat} (hpq : p < q) (hq : q < s.nerrs.toNat) :
    s.lostFragment p < s.lostFragment q := by
  obtain ⟨errl, _, hn, -, -, -, hrise, -, herrl, -, hval, -⟩ := h.descriptorHeld hdv
  have hlost : ∀ i (hi : i < errl.length), s.lostFragment i = errl[i] := fun i hi => by
    rw [← List.getD_eq_getElem _ 0 hi]
    refine lostFragment_of_listed ?_ (hval i hi)
    rw [List.getD_eq_getElem _ 0 hi]
    exact (herrl _ (List.getElem_mem hi)).1
  rw [hlost p (by omega), hlost q (by omega)]
  exact List.pairwise_iff_getElem.1 hrise p q _ _ hpq

theorem rebuiltAt_of_specified {p o : Nat} {didx : List Nat} {x y : Nat → Byte}
    (hdidx : ∀ j, j < s.k → didx.getD j 0 < s.m ∧ s.valueAt (listAddr 1 j) = some (BitVec.ofNat 8 (didx.getD j 0)))
    (hxy : ∀ j, j < s.k → s.valueAt (matAddr 3 p j) = some (x j) ∧ s.valueAt (fragAddr (didx.getD j 0) o) = some (y j)) :
    s.rebuiltAt p o = some (xorSum (fun j => mul s.params.poly (x j) (y j)) s.k) := by
  refine xorSumValue_some fun j hj => ?_
  have hm := m_lt s
  obtain ⟨hlt, hlist⟩ := hdidx j hj
  obtain ⟨hx, hy⟩ := hxy j hj
  rw [idD, idDidx, hx, hlist, Option.bind_some, BitVec.toNat_ofNat, Nat.mod_eq_of_lt (by omega), hy, mulValue_some]

/-! ## Parity -/

theorem parityAt_of_specified {i o : Nat} {g y : Nat → Byte}
    (h : ∀ j, j < s.k → s.valueAt (matAddr 0 i j) = some (g j) ∧ s.valueAt (fragAddr j o) = some (y j)) :
    s.parityAt i o = some (xorSum (fun j => mul s.params.poly (g j) (y j)) s.k) :=
  xorSumValue_some fun j hj => by rw [idG, (h j hj).1, (h j hj).2, mulValue_some]

theorem withParity_isPresent (s : State) (i : Nat) :
    s.withParity.isPresent i = (s.isPresent i || decide (s.k ≤ i ∧ i < s.m)) := by
  have hm := m_lt s
  refine (setPresentRange_getLsbD _ _ _ _).trans ?_
  congr 2
  apply propext
  omega

end

/-- Settles O46: the listed fragments are distinct, so each is rebuilt by its own row of `D`. -/
theorem reconRebuildsTheAbsentFragments : Obligations.ReconRebuildsTheAbsentFragments := by
  intro s errl didx hinv hc hdv hlo hhi hn _ herrl hdidx
  have hend : commandEnd .recon s = .ok (s.rebuild s.nerrs.toNat) :=
    reconEnd_of_ready (by simp [hc]) hdv (lengthLegal_eq_true_iff.2 ⟨hlo, hhi⟩)
  have hlost : ∀ p, p < errl.length → s.lostFragment p = errl.getD p 0 := fun p hp =>
    lostFragment_of_listed (herrl p hp).1 (herrl p hp).2
  refine ⟨_, exec_of_ok hend, ?_, fun i => ?_, fun p o x y hp ho hxy => ?_, fun a ha => ?_⟩
  · exact congrArg State.finish (rebuild_eq s _)
  · refine (rebuild_isPresent s _ i).trans ?_
    congr 2
    apply propext
    rw [List.mem_iff_getElem, ← hn]
    refine exists_congr fun p => ?_
    rw [← exists_prop]
    refine exists_congr fun hp => ?_
    rw [hlost p hp, List.getD_eq_getElem _ 0 hp]
  · have hl : s.l ≤ 2 ^ 20 := hhi.trans (lmax_le hinv.valid)
    rw [State.finish_valueAt, ← hlost p hp, rebuild_valueAt_at s _ p o (hn ▸ hp) ho hl
      fun q hpq hq => (lostFragment_strictMono hinv hdv hpq hq).ne', rebuiltAt_of_specified hdidx hxy]
  · refine rebuild_valueAt_off s _ a fun p o hp ho => ?_
    rw [← hn] at hp
    rw [hlost p hp]
    exact ha p o hp ho

/-- Settles O49: the written block is `parityAt`, byte by byte. -/
theorem parityComputesTheParityFragments : Obligations.ParityComputesTheParityFragments := by
  intro s G hinv hc hlo hhi hpres hG
  have hend : commandEnd .parity s = .ok s.withParity :=
    parityEnd_of_ready (by simp [hc]) (lengthLegal_eq_true_iff.2 ⟨hlo, hhi⟩) (firstMissing_eq_none_iff.2 hpres)
  have hl : s.l ≤ 2 ^ 20 := hhi.trans (lmax_le hinv.valid)
  refine ⟨_, exec_of_ok hend, rfl, withParity_isPresent s, fun i o y hki him ho hy => ?_, fun a ha => ?_⟩
  · obtain ⟨i, rfl⟩ := Nat.exists_eq_add_of_le hki
    exact (Memory.byteAt_fillFragments_at _ _ _ _ _ _ _ hl (by unfold State.r; omega) ho).trans
      (parityAt_of_specified fun j hj => ⟨hG _ _ him hj, hy j hj⟩)
  · refine Memory.byteAt_fillFragments_off _ _ _ _ _ _ hl fun i o hi ho => ?_
    unfold State.r at hi
    exact ha _ o (by omega) (by omega) ho

end Sys2Proof.Machine
end

section
/-! # INIT refused, and DEINIT (O38, O39) -/

namespace Sys2Proof.Machine

open Sys2Proof.Claims

/-- R41: every byte of `G` is unspecified, every other one as before. -/
theorem State.unconfigure_valueAt (s : State) (a : Nat) :
    s.unconfigure.valueAt a = if 0x10000000 ≤ a ∧ a < 0x10010000 then none else s.valueAt a :=
  Memory.byteAt_forgetG s.mem a

/-- R150: bits 24 to 8 of the word of INIT are `{strat, k, m}`. -/
theorem encode_init_operands {m k : Nat} (hm : m < 256) (hk : k < 256) (strat : Strategy) :
    (encode (.init m k strat)).toNat / 2 ^ 8 = m + k * 2 ^ 8 + strategyNumber strat * 2 ^ 16 := by
  cases strat <;> simp only [encode, formatC, strategyBit, strategyNumber, BitVec.toNat_ofNat] <;> omega

/-- Settles O38: the refused branch of INIT, with its detail read off the encoded word. -/
theorem initRefusesOtherConfigurations : Obligations.InitRefusesOtherConfigurations := by
  intro m k strat s hm hk hacc
  have hend : commandEnd (.init m k strat) s = _ := initEnd_of_refused hacc
  rw [encode_init_operands hm hk]
  exact ⟨_, exec_of_error hend, rfl, s.unconfigure_valueAt⟩

/-- A listed byte is specified. -/
theorem Memory.byteAt_ne_none_of_mem {m : Memory} {c : Host.Cell} (hc : c ∈ m) : m.byteAt c.1 ≠ none := by
  induction m with
  | nil => cases hc
  | cons d m ih =>
    rw [Memory.byteAt]
    split
    · exact Option.some_ne_none _
    · next hne => exact ih (List.mem_of_ne_of_mem (fun hcd => hne (congrArg Prod.fst hcd.symm)) hc)

/-- A memory with nothing specified in `G` has nothing there to forget. -/
theorem Memory.forgetG_of_unspecified {m : Memory} (h : ∀ a, InG a → m.byteAt a = none) : m.forgetG = m := by
  refine List.filter_eq_self.2 fun c hc => ?_
  have hout : ¬InG c.1 := fun hG => Memory.byteAt_ne_none_of_mem hc (h _ hG)
  rw [Bool.not_eq_true', ← Bool.not_eq_true, Bool.and_eq_true, decide_eq_true_eq, decide_eq_true_eq]
  exact hout

theorem exists_matAddr_of_inG {a : Nat} (h : InG a) : ∃ i j, i < 256 ∧ j < 256 ∧ a = matAddr idG i j := by
  obtain ⟨hlo, hhi⟩ := h
  exact ⟨(a - 0x10000000) / 2 ^ 8, (a - 0x10000000) % 2 ^ 8, by omega, by omega, by unfold matAddr idG; omega⟩

/-- R41, R151: there is nothing to release on an unconfigured block. -/
theorem State.Inv.unconfigure_eq {s : State} (h : s.Inv) (hc : s.cfgv = false) : s.unconfigure = s := by
  obtain ⟨-, -, -, -, ⟨-, hcfg⟩, hG, -⟩ := h
  obtain ⟨hM, hK, hstrat, hdv⟩ := hcfg hc
  have hmem : s.mem.forgetG = s.mem := Memory.forgetG_of_unspecified fun a ha => by
    obtain ⟨i, j, hi, hj, rfl⟩ := exists_matAddr_of_inG ha
    exact (hG i j hi hj).trans (if_neg (by simp [hc]))
  rw [State.unconfigure, hmem]
  cases s
  subst hc hM hK hstrat hdv
  rfl

/-- Settles O39: DEINIT always ends `OK`; on an unconfigured block `unconfigure` is the identity. -/
theorem deinitReleasesTheConfiguration : Obligations.DeinitReleasesTheConfiguration := by
  intro s
  have hexec : exec .deinit s = .next s.unconfigure.finish := exec_of_ok rfl
  refine ⟨⟨_, hexec, rfl, s.unconfigure_valueAt⟩, fun hinv hc => ?_⟩
  rw [hexec, hinv.unconfigure_eq hc]
  rfl

end Sys2Proof.Machine
end

section
/-! # Rows of a Cauchy generator are independent (R143, R144)

A vector `x` that the chosen rows take to 0 gives a polynomial of degree below `k`, the sum of `x j` times the product of the
`X - v l` for `l ≠ j`. At a node `v i` of an identity row it is a multiple of `x i`, at one of a parity row a multiple of the row
times `x`; so it is 0 at `k` nodes, hence everywhere, and `x` with it. -/

open scoped Matrix

namespace Sys2Proof.Machine

open Sys2Proof.Claims
open Polynomial

section
variable {K ι : Type*} [Field K] [DecidableEq ι] {cols rows : Finset ι} {v x : ι → K}

/-- The sum over the columns `j` of `x j` times the product of the `X - v l` over the other columns `l`. -/
noncomputable def cauchyPolynomial (cols : Finset ι) (v x : ι → K) : K[X] :=
  Lagrange.interpolate cols v fun j => (Lagrange.nodalWeight cols v j)⁻¹ * x j

theorem eval_cauchyPolynomial_of_mem (hv : Set.InjOn v cols) {i : ι} (hi : i ∈ cols) :
    (cauchyPolynomial cols v x).eval (v i) = (Lagrange.nodalWeight cols v i)⁻¹ * x i :=
  Lagrange.eval_interpolate_at_node _ hv hi

theorem eval_cauchyPolynomial_of_ne (hv : Set.InjOn v cols) {y : K} (hy : ∀ j ∈ cols, y ≠ v j) :
    (cauchyPolynomial cols v x).eval y = (Lagrange.nodal cols v).eval y * ∑ j ∈ cols, (y - v j)⁻¹ * x j := by
  rw [cauchyPolynomial, Lagrange.eval_interpolate_not_at_node _ hy]
  congr 1
  refine Finset.sum_congr rfl fun j hj => ?_
  have hne := Lagrange.nodalWeight_ne_zero hv hj
  field_simp

/-- As many rows as columns, of the identity and of the Cauchy matrix on the nodes `v`, take no vector but 0 to 0. -/
theorem eq_zero_of_cauchy_rows (hv : Set.InjOn v ↑(cols ∪ rows)) (hcard : rows.card = cols.card)
    (hidentity : ∀ i ∈ rows, i ∈ cols → x i = 0)
    (hparity : ∀ i ∈ rows, i ∉ cols → ∑ j ∈ cols, (v i - v j)⁻¹ * x j = 0) {j : ι} (hj : j ∈ cols) : x j = 0 := by
  rw [Finset.coe_union] at hv
  have hcols : Set.InjOn v cols := hv.mono Set.subset_union_left
  have hzero : cauchyPolynomial cols v x = 0 := by
    refine eq_zero_of_degree_lt_of_eval_index_eq_zero _ (hv.mono Set.subset_union_right)
      (hcard ▸ Lagrange.degree_interpolate_lt _ hcols) fun i hi => ?_
    by_cases hic : i ∈ cols
    · rw [eval_cauchyPolynomial_of_mem hcols hic, hidentity i hi hic, mul_zero]
    · have hne : ∀ l ∈ cols, v i ≠ v l := fun l hl hil => hic (hv (.inr hi) (.inl hl) hil ▸ hl)
      rw [eval_cauchyPolynomial_of_ne hcols hne, hparity i hi hic, mul_zero]
  have heval := eval_cauchyPolynomial_of_mem (x := x) hcols hj
  rw [hzero, eval_zero, eq_comm, mul_eq_zero] at heval
  exact heval.resolve_left (inv_ne_zero (Lagrange.nodalWeight_ne_zero hcols hj))

end

section
variable {poly : BitVec 9}

/-- R101: subtraction is XOR too. -/
theorem fieldValue_xor_eq_sub (a b : Byte) : fieldValue poly (a ^^^ b) = fieldValue poly a - fieldValue poly b := by
  rw [eq_sub_iff_add_eq, ← fieldValue_xor, BitVec.xor_assoc, BitVec.xor_self, BitVec.xor_zero]

/-- R143: the node of an index is the class of its byte. -/
noncomputable def indexNode (poly : BitVec 9) (i : Nat) : AdjoinRoot (bitPoly poly.toNat) := fieldValue poly (BitVec.ofNat 8 i)

theorem indexNode_injOn (h : poly.getLsbD 8 = true) : Set.InjOn (indexNode poly) (Set.Iio 256) := by
  intro i hi j hj hij
  have hbytes := congrArg BitVec.toNat (fieldValue_injective h hij)
  rwa [BitVec.toNat_ofNat, BitVec.toNat_ofNat, Nat.mod_eq_of_lt hi, Nat.mod_eq_of_lt hj] at hbytes

/-- R143: a Cauchy coefficient inverts the difference of its nodes. -/
theorem sub_mul_fieldValue_cauchyAt (h : irreducibleOfDegree8 poly = true) {i j : Nat} (hi : i < 256) (hj : j < 256)
    (hij : i ≠ j) : (indexNode poly i - indexNode poly j) * fieldValue poly (cauchyAt poly i j) = 1 := by
  rw [indexNode, indexNode, ← fieldValue_xor_eq_sub, ← BitVec.ofNat_xor, ← fieldValue_mul (getLsbD_eight_of_irreducible h),
    mul_cauchyAt h hi hj hij, fieldValue_one]

section
variable {k i : Nat} (x : Nat → Byte)

/-- R141: an identity row of the generator times a vector. -/
theorem xorSum_generatorAt_of_lt (h : poly.getLsbD 8 = true) (strat : Strategy) (hi : i < k) :
    xorSum (fun j => mul poly (generatorAt poly k strat i j) (x j)) k = x i := by
  have hrow := xorSum_identityAt h x i k
  rw [if_pos hi] at hrow
  rw [← hrow]
  exact xorSum_congr fun j _ => by rw [generatorAt_of_lt _ _ _ hi, identityAt]

/-- R143: a parity row of a Cauchy generator times a vector. -/
theorem fieldValue_xorSum_cauchy [Fact (Irreducible (bitPoly poly.toNat))] (h : irreducibleOfDegree8 poly = true) (hki : k ≤ i)
    (hi : i < 256) : fieldValue poly (xorSum (fun j => mul poly (generatorAt poly k .cauchy i j) (x j)) k) =
      ∑ j ∈ Finset.range k, (indexNode poly i - indexNode poly j)⁻¹ * fieldValue poly (x j) := by
  rw [fieldValue_xorSum]
  refine Finset.sum_congr rfl fun j hj => ?_
  have hjk := Finset.mem_range.1 hj
  have hinv := sub_mul_fieldValue_cauchyAt h hi (by omega : j < 256) (by omega)
  rw [generatorAt_cauchy _ _ hki, fieldValue_mul (getLsbD_eight_of_irreducible h), eq_inv_of_mul_eq_one_right hinv]

theorem fieldMatrix_mulVec_eq_zero_iff (h : poly.getLsbD 8 = true) (A : Nat → Nat → Byte) :
    fieldMatrix poly k A *ᵥ fieldVector poly k x = 0 ↔ ∀ p, p < k → xorSum (fun j => mul poly (A p j) (x j)) k = 0#8 := by
  rw [funext_iff, Fin.forall_iff]
  refine forall₂_congr fun p hp => ?_
  rw [fieldMatrix_mulVec_apply h, Pi.zero_apply, ← fieldValue_zero, (fieldValue_injective h).eq_iff]

end

/-- R144: no `k` different rows of a Cauchy generator have dependent columns. -/
theorem not_columnsDependent_of_cauchy (h : irreducibleOfDegree8 poly = true) {k : Nat} (hk : k ≤ 256) {row : Nat → Nat}
    (hlt : ∀ p, p < k → row p < 256) (hinj : Set.InjOn row ↑(Finset.range k)) {c : Nat} (hc : c < k) :
    ¬ColumnsDependent poly k c fun p j => generatorAt poly k .cauchy (row p) j := by
  have h8 := getLsbD_eight_of_irreducible h
  have : Fact (Irreducible (bitPoly poly.toNat)) := ⟨irreducible_bitPoly h⟩
  intro hdep
  obtain ⟨x, ⟨j, hj, hxj⟩, -, hzero⟩ := (columnsDependent_iff h8 hc).1 hdep
  rw [fieldMatrix_mulVec_eq_zero_iff x h8] at hzero
  have hnodes : Set.InjOn (indexNode poly) ↑(Finset.range k ∪ (Finset.range k).image row) := by
    refine (indexNode_injOn h8).mono fun i hi => ?_
    simp only [Finset.coe_union, Finset.coe_image, Finset.coe_range] at hi
    rcases hi with hi | ⟨p, hp, rfl⟩
    · exact lt_of_lt_of_le hi hk
    · exact hlt p hp
  refine (fieldValue_ne_zero h8).2 hxj (eq_zero_of_cauchy_rows (x := fun j => fieldValue poly (x j)) hnodes
    (Finset.card_image_of_injOn hinj) (fun i hi hik => ?_) (fun i hi hik => ?_) (Finset.mem_range.2 (by omega)))
  all_goals
    obtain ⟨p, hp, rfl⟩ := Finset.mem_image.1 hi
    rw [Finset.mem_range] at hp hik
  · rw [← xorSum_generatorAt_of_lt x h8 .cauchy hik, hzero p hp, fieldValue_zero]
  · rw [← fieldValue_xorSum_cauchy x h (Nat.not_lt.1 hik) (hlt p hp), hzero p hp, fieldValue_zero]

/-- R124, R144: the elimination of `k` different rows of a Cauchy generator finds an inverse. -/
theorem invert_cauchy_rows (h : irreducibleOfDegree8 poly = true) {k : Nat} (hk : k ≤ 256) {row : Nat → Nat}
    (hlt : ∀ p, p < k → row p < 256) (hinj : Set.InjOn row ↑(Finset.range k)) {M : Matrix}
    (hM : M.Represents k fun p j => generatorAt poly k .cauchy (row p) j) : ∃ V, invert poly k M = .ok V := by
  rcases invert_cases h hM with ⟨V, hV, -⟩ | ⟨c, hc, -, hdep, -⟩
  · exact ⟨V, hV⟩
  · exact absurd hdep (not_columnsDependent_of_cauchy h hk hlt hinj hc)

end

end Sys2Proof.Machine
end

section
/-! # GENDEC on a Cauchy generator (O44) -/

namespace Sys2Proof.Machine

open Sys2Proof.Claims

/-! ## The synthesis -/

/-- R161: the working submatrix, element by element. -/
theorem selectRows_represents {G A : Nat → Nat → Byte} {k : Nat} {didx : List Nat} (hlen : didx.length = k)
    (hA : ∀ p c, p < k → c < k → G (didx.getD p 0) c = A p c) : (selectRows G k didx).Represents k A := by
  have hrow (p : Nat) (hp : p < k) : (selectRows G k didx).getD p [] = (List.range k).map (G (didx.getD p 0)) := by
    simp [selectRows, hlen, hp]
  refine ⟨by simp [selectRows, hlen], fun p hp => by rw [hrow p hp]; simp, fun p c hp hc => ?_⟩
  rw [Matrix.at, hrow p hp, ← hA p c hp hc]
  simp [hc]

/-- R161: the synthesis ends with its first candidate if that gives invertible rows. -/
theorem synthesize_of_first {poly : BitVec 9} {G : Nat → Nat → Byte} {k last : Nat} {first later : List Nat} {V : Matrix}
    (hV : invert poly k (selectRows G k (first ++ [last])) = .ok V) :
    synthesize poly G k first (last :: later) = some (first ++ [last], selectRows G k (first ++ [last]), V) := by
  rw [synthesize, hV]

section
variable {s : State}

/-- R161: if the first `k` survivors give invertible rows they are the decode index. -/
theorem synthesis_of_first (hk : 1 ≤ s.k) (hlen : s.k ≤ s.survivors.length) {V : Matrix}
    (hV : invert s.params.poly s.k (selectRows s.gAt s.k (s.survivors.take s.k)) = .ok V) :
    s.synthesis = some (s.survivors.take s.k, selectRows s.gAt s.k (s.survivors.take s.k), V) := by
  have hlast : s.k - 1 < s.survivors.length := by omega
  have htake : s.survivors.take s.k = s.survivors.take (s.k - 1) ++ [s.survivors[s.k - 1]] := by
    rw [List.take_append_getElem, Nat.sub_add_cancel hk]
  rw [htake] at hV ⊢
  rw [State.synthesis, List.drop_eq_getElem_cons hlast]
  exact synthesize_of_first hV

/-! ## GENDEC (R170) -/

/-- R170: the state a successful synthesis leaves. -/
def State.withSynthesis (s : State) (didx : List Nat) (B Binv : Matrix) : State :=
  { s.writeDescriptor with
    dv := true
    mem := s.writeDescriptor.mem.writeSynthesis s.k s.errorCount didx B Binv fun p i =>
      decodeRowAt s.params.poly s.gAt s.k Binv (s.errorList.getD p 0) i }

theorem gendecEnd_of_synthesis {didx : List Nat} {B Binv : Matrix} (hc : ¬s.cfgv = false) (he : s.errorCount ≤ s.r)
    (h : s.synthesis = some (didx, B, Binv)) : gendecEnd s = .ok (s.withSynthesis didx B Binv) := by
  rw [gendecEnd, if_neg hc, gendecBody, if_neg (Nat.not_lt.2 he), h]
  rfl

theorem withSynthesis_didx (didx : List Nat) (B Binv : Matrix) {j : Nat} (hj : j < s.k) :
    (s.withSynthesis didx B Binv).valueAt (listAddr 1 j) = some (BitVec.ofNat 8 (didx.getD j 0)) := by
  have hle := errorCount_le s
  have hm := m_lt s
  obtain ⟨hdidx, -⟩ := writeSynthesis_lists (m := s.writeDescriptor.mem) (k_lt s) (by omega : s.errorCount ≤ 256) didx B Binv
    fun p i => decodeRowAt s.params.poly s.gAt s.k Binv (s.errorList.getD p 0) i
  exact hdidx j hj

/-! ## The survivors and the generator -/

/-- R41: `G` as GENDEC reads it under an active configuration. -/
theorem State.Inv.gAt_eq (h : s.Inv) (hc : s.cfgv = true) {i j : Nat} (hi : i < s.m) (hj : j < s.k) :
    s.gAt i j = generatorAt s.params.poly s.k s.cfgStrat i j := by
  obtain ⟨-, -, -, -, -, hG, -⟩ := h
  have hm := m_lt s
  have hk := k_lt s
  exact State.sample_of_valueAt ((hG i j (by omega) (by omega)).trans (if_pos ⟨hc, hi, hj⟩))

/-- R161: with at most `r` fragments absent at least `k` survive. -/
theorem k_le_survivors_length (hkm : s.k < s.m) (he : s.errorCount ≤ s.r) : s.k ≤ s.survivors.length := by
  have hlen := survivors_length s
  unfold State.r at he
  omega

/-- R161: the first `k` survivors, as rows of `G`. -/
theorem getD_take_survivors {j : Nat} (hj : j < s.k) (hlen : s.k ≤ s.survivors.length) :
    (s.survivors.take s.k).getD j 0 = s.survivors[j] := by
  rw [List.getD_eq_getElem _ _ (by rw [List.length_take]; omega), List.getElem_take]

theorem survivors_getElem_lt {j : Nat} (hj : j < s.survivors.length) : s.survivors[j] < s.m :=
  (mem_survivors.1 (List.getElem_mem hj)).1

/-- R144: under the Cauchy strategy the first `k` survivors give invertible rows. -/
theorem invert_cauchy_survivors (h : s.Inv) (hc : s.cfgv = true) (hstrat : s.cfgStrat = .cauchy)
    (hlen : s.k ≤ s.survivors.length) :
    ∃ V, invert s.params.poly s.k (selectRows s.gAt s.k (s.survivors.take s.k)) = .ok V := by
  obtain ⟨hirr, -⟩ := h.valid
  have hm := m_lt s
  have hrow (p : Nat) (hp : p < s.k) : (s.survivors.take s.k).getD p 0 < s.m := by
    rw [getD_take_survivors hp hlen]
    exact survivors_getElem_lt _
  refine invert_cauchy_rows hirr (k_lt s).le (row := fun p => (s.survivors.take s.k).getD p 0)
    (fun p hp => (hrow p hp).trans hm) ?_ (selectRows_represents ?_ fun p c hp hcol => ?_)
  · intro p hp q hq hpq
    rw [Finset.coe_range, Set.mem_Iio] at hp hq
    dsimp only at hpq
    rw [getD_take_survivors hp hlen, getD_take_survivors hq hlen] at hpq
    have hnodup : s.survivors.Nodup := (survivors_pairwise s).imp Nat.ne_of_lt
    exact hnodup.getElem_inj_iff.1 hpq
  · rw [List.length_take, min_eq_left hlen]
  · rw [h.gAt_eq hc (hrow p hp) hcol, hstrat]

end

/-- Settles O44: the first candidate of the synthesis is invertible, since rows of a Cauchy generator are independent. -/
theorem cauchySynthesisAlwaysSucceeds : Obligations.CauchySynthesisAlwaysSucceeds := by
  intro s t hinv hc hstrat he hexec
  have hc' : ¬s.cfgv = false := by simp [hc]
  obtain ⟨hk, hkm, -⟩ := hinv.configured hc'
  have hlen := k_le_survivors_length hkm he
  obtain ⟨V, hV⟩ := invert_cauchy_survivors hinv hc hstrat hlen
  have hend : commandEnd .gendec s = .ok _ := gendecEnd_of_synthesis hc' he (synthesis_of_first hk hlen hV)
  obtain rfl := exec_next_iff.1 hexec
  rw [hend]
  refine ⟨rfl, fun surv ⟨hrise, hmem⟩ j hj => ?_⟩
  obtain rfl := rising_lists_ext hrise (survivors_pairwise s) fun i => (hmem i).trans mem_survivors.symm
  refine (withSynthesis_didx _ _ _ hj).trans ?_
  rw [getD_take_survivors hj hlen, List.getD_eq_getElem]

end Sys2Proof.Machine
end

section
/-! # What GENDEC writes, byte by byte (R170) -/

namespace Sys2Proof.Machine

open Sys2Proof.Claims

/-! ## The named writes of GENDEC -/

section
variable {m : Memory}

theorem byteAt_fillList_off {id n a : Nat} (f : Nat → Option Byte) (h : ∀ q, q < n → a ≠ listAddr id q) :
    (m.fillList id n f).byteAt a = m.byteAt a := by
  rw [Memory.byteAt_fillList, if_neg]
  rintro ⟨hlo, hhi⟩
  exact h (a - listAddr id 0) (by omega) (by unfold listAddr at *; omega)

theorem byteAt_fillMatrix_of_ne {id id' rows cols i j : Nat} (f : Nat → Nat → Option Byte) (hid : id' ≠ id) (hr : rows ≤ 256)
    (hc : cols ≤ 256) (hi : i < 256) (hj : j < 256) :
    (m.fillMatrix id rows cols f).byteAt (matAddr id' i j) = m.byteAt (matAddr id' i j) :=
  Memory.byteAt_fillMatrix_off _ _ _ _ _ _ hc fun i' j' hi' hj' => by unfold matAddr; omega

/-- R170: the writes of `DIDX`, `B` and `BINV`, which every synthesis makes. -/
def Memory.fillSelection (m : Memory) (k : Nat) (d : Nat → Option Byte) (b v : Nat → Nat → Option Byte) : Memory :=
  ((m.fillList idDidx k d).fillMatrix idB k k b).fillMatrix idBinv k k v

theorem forgetSynthesis_eq_fillSelection (m : Memory) (k : Nat) :
    m.forgetSynthesis k = m.fillSelection k (fun _ => none) (fun _ _ => none) fun _ _ => none := rfl

theorem writeSynthesis_eq_fillSelection (m : Memory) (k nerrs : Nat) (didx : List Nat) (B Binv : Matrix)
    (rows : Nat → Nat → Byte) : m.writeSynthesis k nerrs didx B Binv rows =
      (m.fillSelection k (fun j => some (BitVec.ofNat 8 (didx.getD j 0))) (fun i j => some (B.at i j)) fun i j =>
        some (Binv.at i j)).fillMatrix idD nerrs k fun p i => some (rows p i) := rfl

section
variable {k : Nat} (hk : k < 256) (d : Nat → Option Byte) (b v : Nat → Nat → Option Byte)
include hk

theorem fillSelection_off {a : Nat} (hdidx : ∀ j, j < k → a ≠ listAddr 1 j)
    (hmat : ∀ i j, i < k → j < k → a ≠ matAddr 1 i j ∧ a ≠ matAddr 2 i j) :
    (m.fillSelection k d b v).byteAt a = m.byteAt a :=
  (Memory.byteAt_fillMatrix_off _ _ _ _ _ _ hk.le fun i j hi hj => (hmat i j hi hj).2).trans
    ((Memory.byteAt_fillMatrix_off _ _ _ _ _ _ hk.le fun i j hi hj => (hmat i j hi hj).1).trans
      (byteAt_fillList_off _ hdidx))

theorem fillSelection_errl {p : Nat} (hp : p < 256) :
    (m.fillSelection k d b v).byteAt (listAddr 0 p) = m.byteAt (listAddr 0 p) :=
  fillSelection_off hk d b v (fun j hj => by unfold listAddr; omega) fun i j hi hj => by unfold listAddr matAddr; omega

theorem fillSelection_didx {j : Nat} (hj : j < k) : (m.fillSelection k d b v).byteAt (listAddr 1 j) = d j := by
  rw [Memory.fillSelection, Memory.byteAt_fillMatrix_off _ _ _ _ _ _ hk.le, Memory.byteAt_fillMatrix_off _ _ _ _ _ _ hk.le]
  · exact byteAt_fillList_at m d hj
  all_goals
    intro i' j' hi' hj'
    simp only [listAddr, matAddr, idB, idBinv]
    omega

theorem fillSelection_B {i j : Nat} (hi : i < k) (hj : j < k) : (m.fillSelection k d b v).byteAt (matAddr 1 i j) = b i j :=
  (byteAt_fillMatrix_of_ne v (by decide) hk.le hk.le (by omega) (by omega)).trans
    (Memory.byteAt_fillMatrix_at _ _ _ _ _ _ _ hk.le hi hj)

theorem fillSelection_Binv {i j : Nat} (hi : i < k) (hj : j < k) : (m.fillSelection k d b v).byteAt (matAddr 2 i j) = v i j :=
  Memory.byteAt_fillMatrix_at _ _ _ _ _ _ _ hk.le hi hj

end

end

/-! ## The states GENDEC leaves -/

section
variable {s : State}

theorem gendecEnd_of_tooManyErrors (hc : ¬s.cfgv = false) (he : s.r < s.errorCount) :
    gendecEnd s = .error .tooManyErrors s.errorCount s.writeDescriptor := by
  rw [gendecEnd, if_neg hc, gendecBody, if_pos he]

/-- R170: the state a failed synthesis leaves. -/
def State.withSynthesisForgotten (s : State) : State := s.writeDescriptor.withMem (s.writeDescriptor.mem.forgetSynthesis s.k)

theorem gendecEnd_of_no_synthesis (hc : ¬s.cfgv = false) (he : s.errorCount ≤ s.r) (h : s.synthesis = none) :
    gendecEnd s = .error .noInvertibleSubmatrix (s.r - s.errorCount + 1) s.withSynthesisForgotten := by
  rw [gendecEnd, if_neg hc, gendecBody, if_neg (Nat.not_lt.2 he), h]
  rfl

theorem writeDescriptor_errl {p : Nat} (hp : p < s.errorCount) :
    s.writeDescriptor.valueAt (listAddr 0 p) = some (BitVec.ofNat 8 (s.errorList.getD p 0)) :=
  byteAt_fillList_at s.mem _ hp

theorem writeDescriptor_valueAt_off {a : Nat} (ha : ∀ p, p < s.errorCount → a ≠ listAddr 0 p) :
    s.writeDescriptor.valueAt a = s.valueAt a :=
  byteAt_fillList_off _ ha

theorem errorCount_lt (s : State) : s.errorCount < 256 := (errorCount_le s).trans_lt (m_lt s)

theorem withSynthesisForgotten_errl {p : Nat} (hp : p < s.errorCount) :
    s.withSynthesisForgotten.valueAt (listAddr 0 p) = some (BitVec.ofNat 8 (s.errorList.getD p 0)) :=
  (fillSelection_errl (k_lt s) _ _ _ (hp.trans (errorCount_lt s))).trans (writeDescriptor_errl hp)

theorem withSynthesisForgotten_didx {j : Nat} (hj : j < s.k) : s.withSynthesisForgotten.valueAt (listAddr 1 j) = none :=
  fillSelection_didx (k_lt s) _ _ _ hj

theorem withSynthesisForgotten_matrices {i j : Nat} (hi : i < s.k) (hj : j < s.k) :
    s.withSynthesisForgotten.valueAt (matAddr 1 i j) = none ∧ s.withSynthesisForgotten.valueAt (matAddr 2 i j) = none :=
  ⟨fillSelection_B (k_lt s) _ _ _ hi hj, fillSelection_Binv (k_lt s) _ _ _ hi hj⟩

theorem withSynthesisForgotten_valueAt_off {a : Nat} (herrl : ∀ p, p < s.errorCount → a ≠ listAddr 0 p)
    (hdidx : ∀ j, j < s.k → a ≠ listAddr 1 j)
    (hmat : ∀ i j, i < s.k → j < s.k → a ≠ matAddr 1 i j ∧ a ≠ matAddr 2 i j) :
    s.withSynthesisForgotten.valueAt a = s.valueAt a :=
  (fillSelection_off (k_lt s) _ _ _ hdidx hmat).trans (writeDescriptor_valueAt_off herrl)

section
variable (didx : List Nat) (B Binv : Matrix)

theorem withSynthesis_errl {p : Nat} (hp : p < s.errorCount) :
    (s.withSynthesis didx B Binv).valueAt (listAddr 0 p) = some (BitVec.ofNat 8 (s.errorList.getD p 0)) :=
  ((writeSynthesis_lists (k_lt s) (errorCount_lt s).le didx B Binv _).2 p (hp.trans (errorCount_lt s))).trans
    (writeDescriptor_errl hp)

theorem withSynthesis_B : Corner (s.withSynthesis didx B Binv) 1 s.k s.k B.at := fun _ _ hi hj =>
  have hk := k_lt s
  (byteAt_fillMatrix_of_ne _ (by decide) (errorCount_lt s).le hk.le (by omega) (by omega)).trans
    (fillSelection_B hk _ _ _ hi hj)

theorem withSynthesis_Binv : Corner (s.withSynthesis didx B Binv) 2 s.k s.k Binv.at := fun _ _ hi hj =>
  have hk := k_lt s
  (byteAt_fillMatrix_of_ne _ (by decide) (errorCount_lt s).le hk.le (by omega) (by omega)).trans
    (fillSelection_Binv hk _ _ _ hi hj)

theorem withSynthesis_D : Corner (s.withSynthesis didx B Binv) 3 s.errorCount s.k fun p i =>
    decodeRowAt s.params.poly s.gAt s.k Binv (s.errorList.getD p 0) i :=
  fun _ _ hp hi => Memory.byteAt_fillMatrix_at _ _ _ _ _ _ _ (k_lt s).le hp hi

theorem withSynthesis_valueAt_off {a : Nat} (herrl : ∀ p, p < s.errorCount → a ≠ listAddr 0 p)
    (hdidx : ∀ j, j < s.k → a ≠ listAddr 1 j) (hmat : ∀ i j, i < s.k → j < s.k → a ≠ matAddr 1 i j ∧ a ≠ matAddr 2 i j)
    (hD : ∀ p i, p < s.errorCount → i < s.k → a ≠ matAddr 3 p i) :
    (s.withSynthesis didx B Binv).valueAt a = s.valueAt a :=
  (Memory.byteAt_fillMatrix_off _ _ _ _ _ _ (k_lt s).le hD).trans
    ((fillSelection_off (k_lt s) _ _ _ hdidx hmat).trans (writeDescriptor_valueAt_off herrl))

end

end

end Sys2Proof.Machine
end

section
/-! # The synthesis finds the first invertible selection (O41 to O43) -/

namespace Sys2Proof.Machine

open Sys2Proof.Claims

/-! ## The elimination decides invertibility -/

section
variable {poly : BitVec 9} {n : Nat} {M : Matrix} {A : Nat → Nat → Byte}

theorem productIsIdentity_of_invert (h : irreducibleOfDegree8 poly = true) (hM : M.Represents n A) {V : Matrix}
    (hV : invert poly n M = .ok V) : ProductIsIdentity poly n V.at A := by
  rcases invert_cases h hM with ⟨W, hW, hprod⟩ | ⟨c, -, herr, -⟩
  · obtain rfl : W = V := Except.ok.inj (hW.symm.trans hV)
    exact hprod
  · exact nomatch herr.symm.trans hV

/-- R125: the elimination fails exactly on the matrices without an inverse. -/
theorem invert_error_iff (h : irreducibleOfDegree8 poly = true) (hM : M.Represents n A) :
    (∃ c, invert poly n M = .error c) ↔ ¬Invertible poly n A := by
  rcases invert_cases h hM with ⟨V, hV, hprod⟩ | ⟨c, hc, herr, hdep, -⟩
  · exact iff_of_false (fun ⟨c, hc⟩ => nomatch hV.symm.trans hc) (not_not.2 ⟨V.at, hprod⟩)
  · exact iff_of_true ⟨c, herr⟩ (not_invertible_of_columnsDependent (getLsbD_eight_of_irreducible h) hc hdep)

end

/-! ## The candidates (R163, R164) -/

section
variable {s : State} {G : Nat → Nat → Byte} {t : Nat}

theorem eq_errorList {errl : List Nat} (h : IsErrorList s errl) : errl = s.errorList := by
  obtain ⟨hrise, hmem⟩ := h
  exact rising_lists_ext hrise (errorList_pairwise s) fun i => (hmem i).trans mem_errorList.symm

theorem eq_survivors {surv : List Nat} (h : IsSurvivorList s surv) : surv = s.survivors := by
  obtain ⟨hrise, hmem⟩ := h
  exact rising_lists_ext hrise (survivors_pairwise s) fun i => (hmem i).trans mem_survivors.symm

/-- R161, R163: what the synthesis tries after `t` substitutions. -/
theorem take_append_candidate (s : State) (t : Nat) :
    s.survivors.take (s.k - 1) ++ [(s.survivors.drop (s.k - 1)).getD t 0] = decodeIndex s.k s.survivors t := by
  rw [decodeIndex, List.getD_eq_getElem?_getD, List.getD_eq_getElem?_getD, List.getElem?_drop]

/-- What a synthesis starts from: a configuration with generator `G`, of which at most `r` fragments are absent. -/
structure SynthesisReady (s : State) (G : Nat → Nat → Byte) : Prop where
  irreducible : irreducibleOfDegree8 s.params.poly = true
  one_le_k : 1 ≤ s.k
  k_lt_m : s.k < s.m
  errorCount_le_r : s.errorCount ≤ s.r
  generator : Corner s 0 s.m s.k G

theorem State.Inv.synthesisReady (h : s.Inv) (hc : s.cfgv = true) (he : s.errorCount ≤ s.r) (hG : Corner s 0 s.m s.k G) :
    SynthesisReady s G :=
  have ⟨hk, hkm, _⟩ := h.configured (by simp [hc])
  ⟨h.valid.1, hk, hkm, he, hG⟩

namespace SynthesisReady

/-- R164: there are `r - nerrs + 1` candidates. -/
theorem candidates_length (h : SynthesisReady s G) : (s.survivors.drop (s.k - 1)).length = s.r - s.errorCount + 1 := by
  obtain ⟨-, hk, hkm, he, -⟩ := h
  have hlen := survivors_length s
  rw [List.length_drop]
  unfold State.r at *
  omega

theorem candidate_lt (h : SynthesisReady s G) (ht : t ≤ s.r - s.errorCount) : s.k - 1 + t < s.survivors.length := by
  have hlen := h.candidates_length
  rw [List.length_drop] at hlen
  omega

/-- R161: the working submatrix of a decode index holds the selected rows of `G`. -/
theorem represents (h : SynthesisReady s G) (ht : t ≤ s.r - s.errorCount) :
    (selectRows s.gAt s.k (decodeIndex s.k s.survivors t)).Represents s.k (selected G (decodeIndex s.k s.survivors t)) := by
  obtain ⟨hlen, -, hmem⟩ := decodeIndex_spec h.one_le_k (h.candidate_lt ht)
  refine selectRows_represents hlen fun p c hp hc => State.sample_of_valueAt (h.generator _ c ?_ hc)
  rw [List.getD_eq_getElem _ _ (hp.trans_eq hlen.symm)]
  exact (mem_survivors.1 (hmem _ (List.getElem_mem _))).1

/-- R164: the synthesis fails exactly when no substitution gives invertible rows. -/
theorem synthesis_eq_none_iff (h : SynthesisReady s G) : s.synthesis = none ↔
    ∀ t, t ≤ s.r - s.errorCount → ¬Invertible s.params.poly s.k (selected G (decodeIndex s.k s.survivors t)) := by
  rw [State.synthesis, synthesize_none, h.candidates_length]
  refine forall_congr' fun t => ?_
  rw [Nat.lt_succ_iff, take_append_candidate]
  exact forall_congr' fun ht => invert_error_iff h.irreducible (h.represents ht)

/-- R161 to R164: the synthesis takes the first substitution count that gives invertible rows. -/
theorem synthesis_of_least (h : SynthesisReady s G) {t₀ : Nat} (ht₀ : t₀ ≤ s.r - s.errorCount)
    (hinv : Invertible s.params.poly s.k (selected G (decodeIndex s.k s.survivors t₀)))
    (hleast : ∀ t, t < t₀ → ¬Invertible s.params.poly s.k (selected G (decodeIndex s.k s.survivors t))) :
    ∃ V, s.synthesis = some (decodeIndex s.k s.survivors t₀, selectRows s.gAt s.k (decodeIndex s.k s.survivors t₀), V) ∧
      ProductIsIdentity s.params.poly s.k V.at (selected G (decodeIndex s.k s.survivors t₀)) := by
  rcases hs : s.synthesis with _ | ⟨didx, B, V⟩
  · exact absurd hinv (h.synthesis_eq_none_iff.1 hs t₀ ht₀)
  · obtain ⟨t, ht, rfl, rfl, hV, hbefore⟩ := synthesize_some hs
    rw [h.candidates_length, Nat.lt_succ_iff] at ht
    rw [take_append_candidate] at hV ⊢
    have hprod := productIsIdentity_of_invert h.irreducible (h.represents ht) hV
    have hle : t ≤ t₀ := Nat.not_lt.1 fun hgt => by
      have herr := hbefore t₀ hgt
      rw [take_append_candidate, invert_error_iff h.irreducible (h.represents ht₀)] at herr
      exact herr hinv
    have hge : t₀ ≤ t := Nat.not_lt.1 fun hlt => hleast t hlt ⟨V.at, hprod⟩
    obtain rfl := Nat.le_antisymm hle hge
    exact ⟨V, rfl, hprod⟩

end SynthesisReady

/-- R165: the decode matrix, from the elements of `G`. -/
theorem decodeRowAt_of_corner (hG : Corner s 0 s.m s.k G) (V : Matrix) {e : Nat} (he : e < s.m) (i : Nat) :
    decodeRowAt s.params.poly s.gAt s.k V e i =
      if e < s.k then V.at e i else xorSum (fun j => mul s.params.poly (V.at j i) (G e j)) s.k := by
  have hrow : xorSum (fun j => mul s.params.poly (V.at j i) (s.gAt e j)) s.k =
      xorSum (fun j => mul s.params.poly (V.at j i) (G e j)) s.k :=
    xorSum_congr fun j hj => congrArg _ (State.sample_of_valueAt (hG e j he hj))
  rw [decodeRowAt, hrow]

theorem errorList_getD_lt {p : Nat} (hp : p < s.errorCount) : s.errorList.getD p 0 < s.m := by
  rw [List.getD_eq_getElem _ _ hp]
  exact (mem_errorList.1 (List.getElem_mem hp)).1

end

/-! ## GENDEC -/

/-- Settles O41: the first check of GENDEC after `NotConfigured`, on the descriptor it has written. -/
theorem gendecRefusesTooManyErrors : Obligations.GendecRefusesTooManyErrors := by
  intro s errl _ hc herrl hmany
  obtain rfl := eq_errorList herrl
  have hend : commandEnd .gendec s = _ := gendecEnd_of_tooManyErrors (by simp [hc]) hmany
  exact ⟨_, exec_of_error hend, rfl, fun p => writeDescriptor_errl, fun a => writeDescriptor_valueAt_off⟩

/-- Settles O42: the synthesis stops at the least invertible selection, and each write is read back at its address. -/
theorem gendecSynthesizesTheDecodeMatrix : Obligations.GendecSynthesizesTheDecodeMatrix := by
  intro s G errl surv t₀ hinv hc hG herrl hsurv he ht₀ hinvertible hleast
  obtain rfl := eq_errorList herrl
  obtain rfl := eq_survivors hsurv
  have hready := hinv.synthesisReady hc he hG
  obtain ⟨V, hs, hprod⟩ := hready.synthesis_of_least ht₀ hinvertible hleast
  have hend : commandEnd .gendec s = _ := gendecEnd_of_synthesis (by simp [hc]) he hs
  have hsymm := productIsIdentity_symm (getLsbD_eight_of_irreducible hready.irreducible) hprod
  refine ⟨_, V.at, exec_of_ok hend, rfl, fun p => withSynthesis_errl _ _ _, fun j => withSynthesis_didx _ _ _,
    fun i j hi hj => ?_, withSynthesis_Binv _ _ _, hsymm, hprod, fun p i hp hi => ?_, fun a => withSynthesis_valueAt_off _ _ _⟩
  · exact (withSynthesis_B _ _ _ i j hi hj).trans (congrArg some ((hready.represents ht₀).element i j hi hj))
  · exact (withSynthesis_D _ _ _ p i hp hi).trans (congrArg some (decodeRowAt_of_corner hG V (errorList_getD_lt hp) i))

/-- Settles O43: a synthesis without an invertible selection fails, and what it forgets reads as unspecified. -/
theorem gendecReportsNoInvertibleSubmatrix : Obligations.GendecReportsNoInvertibleSubmatrix := by
  intro s G errl surv hinv hc hG herrl hsurv he hnone
  obtain rfl := eq_errorList herrl
  obtain rfl := eq_survivors hsurv
  have hs := (hinv.synthesisReady hc he hG).synthesis_eq_none_iff.2 hnone
  have hend : commandEnd .gendec s = _ := gendecEnd_of_no_synthesis (by simp [hc]) he hs
  exact ⟨_, exec_of_error hend, rfl, fun p => withSynthesisForgotten_errl, fun j => withSynthesisForgotten_didx,
    fun i j => withSynthesisForgotten_matrices, fun a => withSynthesisForgotten_valueAt_off⟩

end Sys2Proof.Machine
end

section
/-! # The trailer, and UNFRAME of a well-formed frame (R184, R192) -/

namespace Sys2Proof.Machine

open Sys2Proof.Claims

/-! ## The scan -/

section
variable {X Y : Nat → Byte} {total d : Nat}

theorem trailerNumber_eq_sum (X : Nat → Byte) (total d : Nat) : trailerNumber X total d =
    ((List.range d).map fun t => ((X (total - 1 - t)).toNat - 0x30) * 10 ^ t).sum := by
  induction d with
  | zero => rfl
  | succ d ih => rw [trailerNumber, ih, List.range_succ, List.map_append, List.sum_append, List.map_singleton, List.sum_singleton]

/-- R184: a digit run that ends before the buffer's start is read to its end. -/
theorem scanDigits_of_digitRun (hrun : DigitRun X total d) (hd : d < total) (hstop : isDigit (X (total - 1 - d)) = false) :
    scanDigits X total 0 0 = (total - d, d, trailerNumber X total d) := by
  rw [scanDigits_run X d total 0 0 hd.le hrun fun _ => hstop, trailerNumber_eq_sum]
  simp only [Nat.zero_add]

/-- R184: the payload length of a buffer that ends in a pad byte and a digit run. -/
theorem unframeLength_of_trailer {pad : Byte} (hpad : isDigit pad = false) (hd1 : 1 ≤ d) (hd : d < total)
    (hrun : DigitRun X total d) (hX : X (total - 1 - d) = pad) (hn : trailerNumber X total d ≤ total) :
    unframeLength pad X total = .ok (trailerNumber X total d) := by
  have hlast : total - d - 1 = total - 1 - d := Nat.sub_right_comm _ _ _
  rw [unframeLength, scanDigits_of_digitRun hrun hd (hX ▸ hpad)]
  dsimp only
  rw [if_neg (by omega), if_neg (not_or.2 ⟨by omega, not_not.2 (hlast ▸ hX)⟩), if_neg (Nat.not_lt.2 hn)]

/-- The trailer of a buffer depends on the bytes of the buffer only. -/
theorem digitRun_congr (h : ∀ x, x < total → Y x = X x) (hd : d < total) (hrun : DigitRun X total d) : DigitRun Y total d :=
  fun t ht => by rw [h _ (by omega), hrun t ht]

theorem trailerNumber_congr (h : ∀ x, x < total → Y x = X x) (hd : d < total) :
    trailerNumber Y total d = trailerNumber X total d := by
  rw [trailerNumber_eq_sum, trailerNumber_eq_sum]
  refine congrArg List.sum (List.map_congr_left fun t ht => ?_)
  rw [h _ (by omega)]

end

/-! ## UNFRAME -/

section
variable {s : State}

/-- R192: the state UNFRAME leaves for a payload of `n` bytes. -/
def State.withPayload (s : State) (n : Nat) : State :=
  { s with mem := s.mem.fillPayload n fun o => s.valueAt (frameAddr s.l o), plen := BitVec.ofNat 32 n }

theorem withPayload_valueAt_pay {n x : Nat} (hx : x < n) :
    (s.withPayload n).valueAt (payAddr x) = s.valueAt (frameAddr s.l x) := by
  have e : payAddr x - payAddr 0 = x := by unfold payAddr; omega
  refine (Memory.byteAt_fillPayload _ _ _ _).trans ?_
  rw [if_pos (by unfold payAddr; omega), e]

theorem withPayload_valueAt_off {n a : Nat} (ha : ∀ x, x < n → a ≠ payAddr x) : (s.withPayload n).valueAt a = s.valueAt a := by
  refine (Memory.byteAt_fillPayload _ _ _ _).trans (if_neg ?_)
  rintro ⟨hlo, hhi⟩
  exact ha (a - payAddr 0) (by omega) (by unfold payAddr at *; omega)

theorem withPayload_valueAt_of_lt {n a : Nat} (ha : a < payAddr 0) : (s.withPayload n).valueAt a = s.valueAt a :=
  withPayload_valueAt_off fun x _ => by unfold payAddr at *; omega

theorem withPayload_corner {n id rows cols : Nat} {A : Nat → Nat → Byte} (h : Corner s id rows cols A) (hid : id ≤ 4)
    (hr : rows ≤ 256) (hc : cols ≤ 256) : Corner (s.withPayload n) id rows cols A := fun i j hi hj =>
  (withPayload_valueAt_of_lt (by unfold matAddr payAddr; omega)).trans (h i j hi hj)

/-- What R184 asks of a buffer `X` of `total` bytes that holds `n` payload bytes: `d` digits at the end, whose number is `n`, and a
pad byte before them. -/
structure WellFramed (pad : Byte) (X : Nat → Byte) (total d n : Nat) : Prop where
  one_le_digits : 1 ≤ d
  digits_lt : d < total
  run : DigitRun X total d
  pad_before : X (total - 1 - d) = pad
  number : n = trailerNumber X total d
  number_le : n ≤ total

theorem unframeEnd_of_wellFramed {X : Nat → Byte} {d n : Nat} (hp : s.params.Valid) (hc : ¬s.cfgv = false)
    (hl : s.lengthLegal = true) (hpresent : s.firstMissing = none)
    (hX : ∀ x, x < s.k * s.l → s.valueAt (frameAddr s.l x) = some (X x))
    (hframe : WellFramed s.params.pad X (s.k * s.l) d n) : unframeEnd s = .ok (s.withPayload n) := by
  obtain ⟨hd1, hd, hrun, hXpad, rfl, hn⟩ := hframe
  obtain ⟨-, hpad, -⟩ := hp
  have hsample (x : Nat) (hx : x < s.k * s.l) : s.sample (frameAddr s.l x) = X x := State.sample_of_valueAt (hX x hx)
  have hnumber := trailerNumber_congr hsample hd
  have hlen := unframeLength_of_trailer hpad hd1 hd (digitRun_congr hsample hd hrun) ((hsample _ (by omega)).trans hXpad)
    (hnumber.trans_le hn)
  rw [unframeEnd, if_neg hc, if_neg (by simp [hl]), hpresent]
  dsimp only
  rw [hlen, hnumber]
  rfl

end

end Sys2Proof.Machine
end

section
/-! # DECODE without holes (O56) -/

namespace Sys2Proof.Machine

open Sys2Proof.Claims

/-! ## The first `k` rows of the generator -/

section
variable {poly : BitVec 9} {k : Nat}

theorem getD_range {j n : Nat} (hj : j < n) : (List.range n).getD j 0 = j := by simp [hj]

/-- R161: without holes the first candidate is the decode index `0..k-1`. -/
theorem decodeIndex_range {m : Nat} (hk : 1 ≤ k) (hkm : k < m) : decodeIndex k (List.range m) 0 = List.range k := by
  obtain ⟨k, rfl⟩ := Nat.exists_eq_add_of_le' hk
  rw [decodeIndex, Nat.add_sub_cancel, Nat.add_zero, getD_range (by omega), List.take_range, min_eq_left (by omega),
    List.range_succ]

/-- R141: the data rows of a generator are the identity. -/
theorem selected_generator_range (strat : Strategy) {i j : Nat} (hi : i < k) :
    selected (generatorAt poly k strat) (List.range k) i j = identityAt i j := by
  rw [selected, getD_range hi, generatorAt_of_lt _ _ _ hi, identityAt]

/-- The identity is its own inverse. -/
theorem productIsIdentity_identity (h : poly.getLsbD 8 = true) {A : Nat → Nat → Byte}
    (hA : ∀ i j, i < k → j < k → A i j = identityAt i j) : ProductIsIdentity poly k identityAt A := fun i j hi hj => by
  rw [xorSum_identityAt h (fun t => A t j), if_pos hi, hA i j hi hj, identityAt]

end

section
variable {s : State}

/-! ## GENDEC -/

theorem errorCount_of_all_present (h : ∀ i, i < s.m → s.isPresent i = true) : s.errorCount = 0 := by
  refine List.length_eq_zero_iff.2 (List.filter_eq_nil_iff.2 fun i hi => ?_)
  simp [h i (List.mem_range.1 hi)]

theorem sourceErrorCount_of_all_present (h : ∀ i, i < s.m → s.isPresent i = true) : s.sourceErrorCount = 0 :=
  Nat.le_zero.1 (errorCount_of_all_present h ▸ List.length_filter_le _ _)

theorem survivors_of_all_present (h : ∀ i, i < s.m → s.isPresent i = true) : s.survivors = List.range s.m :=
  List.filter_eq_self.2 fun i hi => h i (List.mem_range.1 hi)

theorem State.Inv.generator_corner (h : s.Inv) (hc : s.cfgv = true) :
    Corner s 0 s.m s.k (generatorAt s.params.poly s.k s.cfgStrat) := fun i j hi hj => by
  obtain ⟨-, -, -, -, -, hG, -⟩ := h
  have hm := m_lt s
  have hk := k_lt s
  exact (hG i j (by omega) (by omega)).trans (if_pos ⟨hc, hi, hj⟩)

/-- R161, R202: without holes the synthesis selects the data rows, whose inverse is the identity. -/
theorem synthesis_of_all_present (h : s.Inv) (hc : s.cfgv = true) (hpresent : ∀ i, i < s.m → s.isPresent i = true) :
    ∃ B V, s.synthesis = some (List.range s.k, B, V) ∧
      Corner (s.withSynthesis (List.range s.k) B V) 1 s.k s.k identityAt ∧
      Corner (s.withSynthesis (List.range s.k) B V) 2 s.k s.k identityAt := by
  have hready := h.synthesisReady hc (by simp [errorCount_of_all_present hpresent]) (h.generator_corner hc)
  have h8 := getLsbD_eight_of_irreducible hready.irreducible
  have hindex : decodeIndex s.k s.survivors 0 = List.range s.k := by
    rw [survivors_of_all_present hpresent, decodeIndex_range hready.one_le_k hready.k_lt_m]
  have hrep := hready.represents (Nat.zero_le _)
  rw [hindex] at hrep
  have hone : ProductIsIdentity s.params.poly s.k identityAt
      (selected (generatorAt s.params.poly s.k s.cfgStrat) (List.range s.k)) :=
    productIsIdentity_identity h8 fun i j hi _ => selected_generator_range s.cfgStrat hi
  obtain ⟨V, hs, hprod⟩ := hready.synthesis_of_least (Nat.zero_le _) (hindex ▸ ⟨_, hone⟩) fun t ht => absurd ht (Nat.not_lt_zero t)
  rw [hindex] at hs hprod
  refine ⟨_, V, hs, fun i j hi hj => ?_, fun i j hi hj => ?_⟩
  · rw [withSynthesis_B _ _ _ i j hi hj, hrep.element i j hi hj, selected_generator_range _ hi]
  · rw [withSynthesis_Binv _ _ _ i j hi hj, productIsIdentity_unique h8 hprod hone hi hj]

/-- A synthesis writes no fragment. -/
theorem withSynthesis_valueAt_frameAddr {didx : List Nat} {B V : Matrix} (l x : Nat) :
    (s.withSynthesis didx B V).valueAt (frameAddr l x) = s.valueAt (frameAddr l x) := by
  have hk := k_lt s
  have he := errorCount_lt s
  unfold frameAddr fragAddr
  refine withSynthesis_valueAt_off _ _ _ (fun p hp => ?_) (fun j hj => ?_) (fun i j hi hj => ?_) fun p i hp hi => ?_
  · unfold listAddr; omega
  · unfold listAddr; omega
  · unfold matAddr; omega
  · unfold matAddr; omega

/-! ## DECODE -/

/-- R202: without holes RECON has nothing to rebuild. -/
theorem decodeEnd_of_no_errors {didx : List Nat} {B V : Matrix} (hc : ¬s.cfgv = false) (hl : s.lengthLegal = true)
    (he : s.errorCount = 0) (hs : s.synthesis = some (didx, B, V)) :
    decodeEnd s = (unframeEnd (s.withSynthesis didx B V)).clearDvOnError := by
  have hnerrs : (s.withSynthesis didx B V).nerrs.toNat = 0 := congrArg (fun n => (BitVec.ofNat 8 n).toNat) he
  have hrecon : reconEnd (s.withSynthesis didx B V) = .ok (s.withSynthesis didx B V) := by
    rw [reconEnd_of_ready (s := s.withSynthesis didx B V) hc rfl hl, hnerrs, State.rebuild]
  rw [decodeEnd, if_neg hc, if_neg (by simp [hl]), gendecEnd_of_synthesis hc (by omega) hs, CommandEnd.andThen_ok, hrecon,
    CommandEnd.andThen_ok]

/-- R202: DECODE without holes of a well-formed frame: a synthesis that selects the data rows, then the payload. -/
theorem decodeEnd_of_all_present {X : Nat → Byte} {d n : Nat} (h : s.Inv) (hc : s.cfgv = true) (hl : s.lengthLegal = true)
    (hpresent : ∀ i, i < s.m → s.isPresent i = true) (hX : ∀ x, x < s.k * s.l → s.valueAt (frameAddr s.l x) = some (X x))
    (hframe : WellFramed s.params.pad X (s.k * s.l) d n) :
    ∃ B V, decodeEnd s = .ok ((s.withSynthesis (List.range s.k) B V).withPayload n) ∧
      Corner (s.withSynthesis (List.range s.k) B V) 1 s.k s.k identityAt ∧
      Corner (s.withSynthesis (List.range s.k) B V) 2 s.k s.k identityAt := by
  have hc' : ¬s.cfgv = false := by simp [hc]
  obtain ⟨-, hkm, -⟩ := h.configured hc'
  obtain ⟨B, V, hs, hB, hV⟩ := synthesis_of_all_present h hc hpresent
  have hdata : s.firstMissing = none := firstMissing_eq_none_iff.2 fun i hi => hpresent i (hi.trans hkm)
  have hunframe : unframeEnd (s.withSynthesis (List.range s.k) B V) = _ :=
    unframeEnd_of_wellFramed h.valid hc' hl hdata (fun x hx => (withSynthesis_valueAt_frameAddr _ _).trans (hX x hx)) hframe
  refine ⟨B, V, ?_, hB, hV⟩
  rw [decodeEnd_of_no_errors hc' hl (errorCount_of_all_present hpresent) hs, hunframe, CommandEnd.clearDvOnError]

end

/-- Settles O56: the end of `decodeEnd_of_all_present`, read back at every address. -/
theorem decodeWithoutHolesUnframes : Obligations.DecodeWithoutHolesUnframes := by
  intro s X d n hinv hc hlo hhi hpresent hX hd1 hd hrun hpad hn hle
  have he := errorCount_of_all_present hpresent
  have hk := k_lt s
  obtain ⟨B, V, hend, hB, hV⟩ := decodeEnd_of_all_present hinv hc (lengthLegal_eq_true_iff.2 ⟨hlo, hhi⟩) hpresent hX
    ⟨hd1, hd, hrun, hpad, hn, hle⟩
  refine ⟨_, exec_of_ok (i := .decode) hend, ?_, fun j hj => ?_, withPayload_corner hB (by decide) hk.le hk.le,
    withPayload_corner hV (by decide) hk.le hk.le, fun x hx => ?_, fun a hpay hdidx hmat => ?_⟩
  · simp only [State.withPayload, State.withSynthesis, State.writeDescriptor, sourceErrorCount_of_all_present hpresent, he]
    rfl
  · have hdidx := withSynthesis_didx (List.range s.k) B V hj
    rw [getD_range hj] at hdidx
    exact (withPayload_valueAt_of_lt (by unfold listAddr payAddr; omega)).trans hdidx
  · exact (withPayload_valueAt_pay hx).trans ((withSynthesis_valueAt_frameAddr _ _).trans (hX x (hx.trans_le hle)))
  · exact (withPayload_valueAt_off hpay).trans
      (withSynthesis_valueAt_off _ _ _ (fun p hp => by omega) hdidx hmat fun p i hp => by omega)

end Sys2Proof.Machine
end

section
/-! # FRAME (O47, O48): the bytes of the frame, and the state FRAME leaves (R180 to R183, R190) -/

namespace Sys2Proof.Machine

open Sys2Proof.Claims

/-! ## Digit count and frame length -/

/-- R181: the digit count is unique, so it is the one FRAME computes. -/
theorem eq_digits_of_isDigitCount {n d : Nat} (h : IsDigitCount n d) : d = digits n := by
  obtain ⟨hd, hlt, hleast⟩ := h
  obtain ⟨hd', hlt', hleast'⟩ := digits_spec n
  exact Nat.le_antisymm (hleast _ hd' hlt') (hleast' _ hd hlt)

/-- R182: the frame length is unique, so it is the one FRAME computes. -/
theorem eq_frameLength_of_isFrameLength {n k l : Nat} (hk : 1 ≤ k) (h : IsFrameLength n (digits n) k l) :
    l = frameLength n k := by
  obtain ⟨hfits, hleast⟩ := h
  obtain ⟨hfits', hleast'⟩ := frameLength_spec n hk
  exact Nat.le_antisymm (hleast _ hfits') (hleast' _ hfits)

/-! ## The bytes of a frame -/

/-- R180: the ASCII digit of weight `10^u` in the numeral of `n`. -/
def decimalByte (n u : Nat) : Byte := BitVec.ofNat 8 (0x30 + n / 10 ^ u % 10)

theorem toNat_decimalByte (n u : Nat) : (decimalByte n u).toNat = 0x30 + n / 10 ^ u % 10 := by
  rw [decimalByte, BitVec.toNat_ofNat, Nat.mod_eq_of_lt (by omega)]

theorem isDigit_decimalByte (n u : Nat) : isDigit (decimalByte n u) = true := by
  rw [isDigit, toNat_decimalByte, Bool.and_eq_true, decide_eq_true_eq, decide_eq_true_eq]
  omega

section
variable {pad : Byte} {P : Nat → Option Byte} {n total i : Nat}

theorem frameByte_payload (hi : i < n) : frameByte pad P n total i = P i := if_pos hi

theorem frameByte_pad (hn : n ≤ i) (hi : i < total - digits n) : frameByte pad P n total i = some pad := by
  rw [frameByte, if_neg (Nat.not_lt.2 hn), if_pos hi]

theorem frameByte_trailer (hfits : n + digits n + 1 ≤ total) {u : Nat} (hu : u < digits n) :
    frameByte pad P n total (total - 1 - u) = some (decimalByte n u) := by
  have hplace : total - 1 - (total - 1 - u) = u := by omega
  rw [frameByte, if_neg (by omega), if_neg (by omega), hplace, decimalByte]

/-- R180: the trailer stands for the number whose last `d` decimal digits it holds. -/
theorem trailerNumber_of_decimalBytes {X : Nat → Byte} {d : Nat} (h : ∀ u, u < d → X (total - 1 - u) = decimalByte n u) :
    trailerNumber X total d = n % 10 ^ d := by
  induction d with
  | zero => rw [trailerNumber, pow_zero, Nat.mod_one]
  | succ d ih =>
    rw [trailerNumber, ih fun u hu => h u (by omega), h d d.lt_succ_self, toNat_decimalByte, Nat.add_sub_cancel_left,
      Nat.mod_pow_succ, Nat.mul_comm]

/-- R185: a buffer with the pad bytes and the trailer of a frame is well formed, whatever its payload bytes are. -/
theorem wellFramed_of_frameByte {X : Nat → Byte} (hfits : n + digits n + 1 ≤ total)
    (hX : ∀ x b, x < total → frameByte pad P n total x = some b → n ≤ x → X x = b) :
    WellFramed pad X total (digits n) n := by
  obtain ⟨hd, hlt, -⟩ := digits_spec n
  have htrailer (u : Nat) (hu : u < digits n) : X (total - 1 - u) = decimalByte n u :=
    hX _ _ (by omega) (frameByte_trailer hfits hu) (by omega)
  refine ⟨hd, by omega, fun u hu => ?_, ?_, ?_, by omega⟩
  · rw [htrailer u hu, isDigit_decimalByte]
  · exact hX _ _ (by omega) (frameByte_pad (by omega) (by omega)) (by omega)
  · rw [trailerNumber_of_decimalBytes htrailer, Nat.mod_eq_of_lt hlt]

end

/-! ## The state FRAME leaves -/

/-- R183: byte `x` of the frame lies in a data fragment. -/
theorem div_lt_and_mod_lt {x k l : Nat} (hx : x < k * l) : x / l < k ∧ x % l < l :=
  ⟨Nat.div_lt_of_lt_mul (Nat.mul_comm k l ▸ hx), Nat.mod_lt _ (Nat.pos_of_mul_pos_left (Nat.zero_lt_of_lt hx))⟩

section
variable {s : State}

theorem withFrame_len (hl : frameLength s.plen.toNat s.k ≤ 2 ^ 20) :
    s.withFrame.len.toNat = frameLength s.plen.toNat s.k := by
  refine (BitVec.toNat_ofNat _ 21).trans (Nat.mod_eq_of_lt ?_)
  omega

/-- R190: FRAME leaves exactly the data fragments of the configuration present. -/
theorem withFrame_isPresent_eq (s : State) (i : Nat) :
    s.withFrame.isPresent i = if i < s.k then true else if i < s.m then false else s.isPresent i := by
  by_cases hk : i < s.k
  · rw [if_pos hk, withFrame_isPresent s hk]
  · have hset : (setPresentRange s.present 0 s.k).getLsbD i = s.isPresent i := by
      rw [setPresentRange_getLsbD, decide_eq_false (by omega), Bool.or_false, State.isPresent]
    refine (clearPresentRange_getLsbD _ _ _ _).trans ?_
    rw [hset, if_neg hk]
    by_cases hm : i < s.m
    · rw [if_pos hm, decide_eq_true ⟨Nat.not_lt.1 hk, hm⟩, Bool.not_true, Bool.and_false]
    · rw [if_neg hm, decide_eq_false fun h => hm h.2, Bool.not_false, Bool.and_true]

/-- R183, R190: byte `x` of the frame, at its place in the data fragments. -/
theorem withFrame_valueAt_frameAddr (hl : frameLength s.plen.toNat s.k ≤ 2 ^ 20) {x : Nat}
    (hx : x < s.k * frameLength s.plen.toNat s.k) :
    s.withFrame.valueAt (frameAddr (frameLength s.plen.toNat s.k) x) =
      frameByte s.params.pad (fun j => s.valueAt (payAddr j)) s.plen.toNat (s.k * frameLength s.plen.toNat s.k) x := by
  obtain ⟨hi, ho⟩ := div_lt_and_mod_lt hx
  have hat := Memory.byteAt_fillFragments_at s.mem 0 s.k _ _ _
    (fun i o => frameByte s.params.pad (fun j => s.valueAt (payAddr j)) s.plen.toNat (s.k * frameLength s.plen.toNat s.k)
      (i * frameLength s.plen.toNat s.k + o)) hl hi ho
  rw [Nat.zero_add, Nat.div_add_mod'] at hat
  exact hat

theorem withFrame_valueAt_off (hl : frameLength s.plen.toNat s.k ≤ 2 ^ 20) {a : Nat}
    (ha : ∀ i o, i < s.k → o < frameLength s.plen.toNat s.k → a ≠ fragAddr i o) : s.withFrame.valueAt a = s.valueAt a :=
  Memory.byteAt_fillFragments_off _ _ _ _ _ _ hl fun i o hi ho => (Nat.zero_add i).symm ▸ ha i o hi ho

/-- R190: FRAME of a payload that fits. -/
theorem frameEnd_of_fits (hc : ¬s.cfgv = false) (hfits : frameLength s.plen.toNat s.k ≤ s.params.lmax) :
    frameEnd s = .ok s.withFrame := by
  rw [frameEnd, if_neg hc, if_neg (Nat.not_lt.2 hfits), State.withFrame]

/-- R190: FRAME of a payload that does not fit. -/
theorem frameEnd_of_too_long (hc : ¬s.cfgv = false) (hlong : s.params.lmax < frameLength s.plen.toNat s.k) :
    frameEnd s = .error .allocationFailure 0 s := by
  rw [frameEnd, if_neg hc, if_pos hlong]

end

/-- Settles O47: the block FRAME writes is `frameByte`, byte by byte; the rest of the state is `State.withFrame`. -/
theorem frameBuildsTheFrame : Obligations.FrameBuildsTheFrame := by
  rintro s _ d l hinv hc rfl hd hl hfits
  have hc' : ¬s.cfgv = false := by simp [hc]
  obtain ⟨hk, -, -⟩ := hinv.configured hc'
  obtain rfl := eq_digits_of_isDigitCount hd
  obtain rfl := eq_frameLength_of_isFrameLength hk hl
  obtain ⟨hroom, -⟩ := hl
  have hl := hfits.trans (lmax_le hinv.valid)
  have hbyte (x : Nat) (hx : x < s.k * frameLength s.plen.toNat s.k) := withFrame_valueAt_frameAddr hl hx
  refine ⟨_, exec_of_ok (i := .frame) (frameEnd_of_fits hc' hfits), rfl, withFrame_len hl, withFrame_isPresent_eq s,
    fun x hx => ?_, fun x hn hx => ?_, fun u hu => ?_, fun a ha => withFrame_valueAt_off hl ha⟩
  · exact (hbyte x (by omega)).trans (frameByte_payload hx)
  · exact (hbyte x (by omega)).trans (frameByte_pad hn hx)
  · exact (hbyte _ (by omega)).trans (frameByte_trailer hroom hu)

/-- Settles O48: ENCODE ends as its FRAME stage does. -/
theorem frameThatDoesNotFitIsRefused : Obligations.FrameThatDoesNotFitIsRefused := by
  intro s d l hinv hc hd hl hlong
  have hc' : ¬s.cfgv = false := by simp [hc]
  obtain ⟨hk, -, -⟩ := hinv.configured hc'
  obtain rfl := eq_digits_of_isDigitCount hd
  obtain rfl := eq_frameLength_of_isFrameLength hk hl
  have hframe := frameEnd_of_too_long hc' hlong
  have hencode : encodeEnd s = .error .allocationFailure 0 s := by rw [encodeEnd, hframe, CommandEnd.andThen_error]
  exact ⟨exec_of_error (i := .frame) hframe, exec_of_error (i := .encode) hencode⟩

end Sys2Proof.Machine
end

section
/-! # UNFRAME (O50, O51, O52): the payload, corrupt trailers, and the round trip (R184, R185, R192) -/

namespace Sys2Proof.Machine

open Sys2Proof.Claims

/-! ## The scan of an arbitrary buffer -/

section
variable {X Y : Nat → Byte} {pad : Byte} {total d : Nat}

theorem scanDigits_congr {i pos n : Nat} (h : ∀ x, x < i → Y x = X x) : scanDigits Y i pos n = scanDigits X i pos n := by
  induction i generalizing pos n with
  | zero => rfl
  | succ i ih => rw [scanDigits, scanDigits, h i i.lt_succ_self, ih fun x hx => h x (by omega)]

theorem scanDigits_fst_le (X : Nat → Byte) (i pos n : Nat) : (scanDigits X i pos n).1 ≤ i := by
  induction i generalizing pos n with
  | zero => exact Nat.le_refl 0
  | succ i ih =>
    rw [scanDigits]
    split_ifs
    · exact (ih _ _).trans i.le_succ
    · exact Nat.le_refl _

/-- R184: `unframe` depends on the bytes of the buffer only. -/
theorem unframeLength_congr (h : ∀ x, x < total → Y x = X x) : unframeLength pad Y total = unframeLength pad X total := by
  have hle := scanDigits_fst_le X total 0 0
  rw [unframeLength, unframeLength, scanDigits_congr h]
  rcases hscan : scanDigits X total 0 0 with ⟨_ | i, pos, n⟩
  · simp
  · rw [hscan] at hle
    dsimp only at hle ⊢
    rw [h (i + 1 - 1) (by omega)]

/-- R184: `unframe` of a buffer whose last digit run has `d` digits. -/
theorem unframeLength_of_digitRun (hd : d ≤ total) (hrun : DigitRun X total d)
    (hstop : d < total → isDigit (X (total - 1 - d)) = false) :
    unframeLength pad X total =
      if d = 0 then .error 1
      else if total - d = 0 ∨ X (total - d - 1) ≠ pad then .error 2
      else if total < trailerNumber X total d then .error 3
      else .ok (trailerNumber X total d) := by
  rw [unframeLength, scanDigits_run X d total 0 0 hd hrun hstop, trailerNumber_eq_sum]
  simp only [Nat.zero_add]

/-- R184, case 1. -/
theorem unframeLength_of_no_digit (h : isDigit (X (total - 1)) = false) : unframeLength pad X total = .error 1 := by
  rw [unframeLength_of_digitRun (d := 0) (Nat.zero_le _) (fun u hu => absurd hu (Nat.not_lt_zero u)) fun _ => h, if_pos rfl]

/-- R184, case 2: the scan reaches the start of the buffer. -/
theorem unframeLength_of_all_digits (htotal : 1 ≤ total) (hrun : DigitRun X total total) :
    unframeLength pad X total = .error 2 := by
  rw [unframeLength_of_digitRun (Nat.le_refl _) hrun fun h => absurd h (Nat.lt_irrefl _), if_neg (by omega),
    if_pos (.inl (Nat.sub_self _))]

/-- R184, case 2: the byte before the digits is neither digit nor `PAD`. -/
theorem unframeLength_of_no_pad (hd1 : 1 ≤ d) (hd : d < total) (hrun : DigitRun X total d)
    (hstop : isDigit (X (total - 1 - d)) = false) (hpad : X (total - 1 - d) ≠ pad) : unframeLength pad X total = .error 2 := by
  rw [unframeLength_of_digitRun hd.le hrun fun _ => hstop, if_neg (by omega), if_pos (.inr (Nat.sub_right_comm .. ▸ hpad))]

/-- R184, case 3. -/
theorem unframeLength_of_excess (hpad : isDigit pad = false) (hd1 : 1 ≤ d) (hd : d < total) (hrun : DigitRun X total d)
    (hX : X (total - 1 - d) = pad) (hn : total < trailerNumber X total d) : unframeLength pad X total = .error 3 := by
  rw [unframeLength_of_digitRun hd.le hrun fun _ => hX ▸ hpad, if_neg (by omega),
    if_neg (not_or.2 ⟨by omega, not_not.2 (Nat.sub_right_comm .. ▸ hX)⟩), if_pos hn]

end

/-! ## How UNFRAME ends -/

section
variable {s : State}

/-- R192: UNFRAME of a buffer with a corrupt trailer. -/
theorem unframeEnd_of_corrupt {X : Nat → Byte} {c : Nat} (hc : ¬s.cfgv = false) (hl : s.lengthLegal = true)
    (hpresent : s.firstMissing = none) (hX : ∀ x, x < s.k * s.l → s.valueAt (frameAddr s.l x) = some (X x))
    (h : unframeLength s.params.pad X (s.k * s.l) = .error c) : unframeEnd s = .error .framingCorruption c s := by
  rw [← unframeLength_congr fun x hx => State.sample_of_valueAt (hX x hx)] at h
  rw [unframeEnd, if_neg hc, if_neg (by simp [hl]), hpresent]
  dsimp only
  rw [h]

/-- R192: UNFRAME where the bytes it draws are well formed; the payload bytes may be unspecified. -/
theorem unframeEnd_of_sample_wellFramed {d n : Nat} (hp : s.params.Valid) (hc : ¬s.cfgv = false) (hl : s.lengthLegal = true)
    (hpresent : s.firstMissing = none)
    (hframe : WellFramed s.params.pad (fun x => s.sample (frameAddr s.l x)) (s.k * s.l) d n) :
    unframeEnd s = .ok (s.withPayload n) := by
  obtain ⟨hd1, hd, hrun, hpad, rfl, hn⟩ := hframe
  obtain ⟨-, hpadByte, -⟩ := hp
  rw [unframeEnd, if_neg hc, if_neg (by simp [hl]), hpresent]
  dsimp only
  rw [unframeLength_of_trailer hpadByte hd1 hd hrun hpad hn]
  rfl

end

/-- Settles O50: the end of `unframeEnd_of_wellFramed`, read back at every address. -/
theorem unframeRecoversThePayload : Obligations.UnframeRecoversThePayload := by
  intro s X d n hinv hc hlo hhi hpresent hX hd1 hd hrun hpad hn hle
  have hend : unframeEnd s = .ok (s.withPayload n) :=
    unframeEnd_of_wellFramed hinv.valid (by simp [hc]) (lengthLegal_eq_true_iff.2 ⟨hlo, hhi⟩)
      (firstMissing_eq_none_iff.2 hpresent) hX ⟨hd1, hd, hrun, hpad, hn, hle⟩
  have hsize : s.k * s.len.toNat ≤ 255 * 2 ^ 20 :=
    Nat.mul_le_mul (Nat.le_of_lt_succ (k_lt s)) (hhi.trans (lmax_le hinv.valid))
  refine ⟨_, exec_of_ok (i := .unframe) hend, rfl, ?_, fun x hx => ?_, fun a ha => withPayload_valueAt_off ha⟩
  · exact (BitVec.toNat_ofNat n 32).trans (Nat.mod_eq_of_lt (by omega))
  · exact (withPayload_valueAt_pay hx).trans (hX x (hx.trans_le hle))

/-- Settles O51: each case of R184 as the scan's answer, which UNFRAME reports. -/
theorem unframeReportsCorruption : Obligations.UnframeReportsCorruption := by
  intro s X hinv hc hlo hhi hpresent hX
  have hc' : ¬s.cfgv = false := by simp [hc]
  obtain ⟨hk, -, -⟩ := hinv.configured hc'
  obtain ⟨-, hpadByte, -⟩ := hinv.valid
  have hreport {c : Nat} (h : unframeLength s.params.pad X (s.k * s.len.toNat) = .error c) :
      exec .unframe s = .next (errorEnd s .framingCorruption c) :=
    exec_of_error (i := .unframe) (unframeEnd_of_corrupt hc' (lengthLegal_eq_true_iff.2 ⟨hlo, hhi⟩)
      (firstMissing_eq_none_iff.2 hpresent) hX h)
  refine ⟨fun h => ?_, fun hrun => ?_, fun d hd1 hd hrun => ⟨fun hstop hpad => ?_, fun hpad hn => ?_⟩⟩
  · exact hreport (unframeLength_of_no_digit h)
  · exact hreport (unframeLength_of_all_digits (Nat.mul_pos hk hlo) hrun)
  · exact hreport (unframeLength_of_no_pad hd1 hd hrun hstop hpad)
  · exact hreport (unframeLength_of_excess hpadByte hd1 hd hrun hpad hn)

/-! ## The round trip -/

/-- A FRAME that ended `OK` had a configuration and room for its frame. -/
theorem frame_ended_ok {s t : State} (h : exec .frame s = .next t) (hok : t.err = .ok) :
    ¬s.cfgv = false ∧ frameLength s.plen.toNat s.k ≤ s.params.lmax ∧ t = s.withFrame.finish := by
  obtain rfl := exec_next_iff.1 h
  obtain ⟨w, hw⟩ := CommandEnd.next_err_ok.1 hok
  rcases frameEnd_cases s with ⟨e, he⟩ | ⟨hc, hfits, hframe⟩
  · cases he.symm.trans hw
  · exact ⟨hc, hfits, congrArg CommandEnd.next hframe⟩

/-- R185: UNFRAME in a state `u` that holds the frame of `s`. -/
theorem unframeEnd_of_frame {s u : State} (hu : u.Inv) (hc : ¬u.cfgv = false) (hl : u.lengthLegal = true)
    (hpresent : u.firstMissing = none) (hroom : s.plen.toNat + digits s.plen.toNat + 1 ≤ u.k * u.l)
    (hframe : ∀ x, x < u.k * u.l → u.valueAt (frameAddr u.l x) =
      frameByte u.params.pad (fun j => s.valueAt (payAddr j)) s.plen.toNat (u.k * u.l) x) :
    unframeEnd u = .ok (u.withPayload s.plen.toNat) :=
  unframeEnd_of_sample_wellFramed hu.valid hc hl hpresent
    (wellFramed_of_frameByte hroom fun x _ hx hb _ => State.sample_of_valueAt ((hframe x hx).trans hb))

/-- Settles O52: the later state holds the frame, which `unframeEnd_of_frame` reads; the pad byte before the trailer keeps the scan
off the payload. -/
theorem unframeOfFrameIsThePayload : Obligations.UnframeOfFrameIsThePayload := by
  intro s t u hs hexec hok hu hparams hcfgv _ hcfgK _ hlen hpresent hframe
  obtain ⟨hc, hfits, rfl⟩ := frame_ended_ok hexec hok
  obtain ⟨hk, -, -⟩ := hs.configured hc
  have hl := hfits.trans (lmax_le hs.valid)
  have huk : u.k = s.k := congrArg BitVec.toNat hcfgK
  have hul : u.l = frameLength s.plen.toNat s.k := (congrArg BitVec.toNat hlen).trans (withFrame_len hl)
  have huc : ¬u.cfgv = false := fun h => hc (hcfgv.symm.trans h)
  have hlegal : u.lengthLegal = true := by
    rw [lengthLegal_eq_true_iff, hlen, hparams]
    exact lengthLegal_eq_true_iff.1 (withFrame_lengthLegal hs hk hfits)
  have hmissing : u.firstMissing = none := firstMissing_eq_none_iff.2 fun i hi =>
    (hpresent i (huk ▸ hi)).trans (withFrame_isPresent s (huk ▸ hi))
  have hroom : s.plen.toNat + digits s.plen.toNat + 1 ≤ u.k * u.l := by
    rw [huk, hul]
    exact (frameLength_spec _ hk).1
  have hbytes (x : Nat) (hx : x < u.k * u.l) : u.valueAt (frameAddr u.l x) =
      frameByte u.params.pad (fun j => s.valueAt (payAddr j)) s.plen.toNat (u.k * u.l) x := by
    rw [huk, hul] at hx ⊢
    obtain ⟨hi, ho⟩ := div_lt_and_mod_lt hx
    rw [hparams]
    exact (hframe _ _ hi ((withFrame_len hl).symm ▸ ho)).trans (withFrame_valueAt_frameAddr hl hx)
  refine ⟨_, exec_of_ok (i := .unframe) (unframeEnd_of_frame hu huc hlegal hmissing hroom hbytes), ?_, fun x hx => ?_,
    fun a ha => withPayload_valueAt_off ha⟩
  · rw [State.withPayload, BitVec.ofNat_toNat, BitVec.setWidth_eq]
    rfl
  · exact (withPayload_valueAt_pay hx).trans ((hbytes x (by omega)).trans (frameByte_payload hx))

end Sys2Proof.Machine
end

section
/-! # NOP and ENCODE (O26, O53, O54; R200, R201) -/

namespace Sys2Proof.Machine

open Sys2Proof.Claims

/-- Settles O26: the decoder evaluated on the word 0; NOP's own operation is the identity. -/
theorem nopOnlyClearsErr : Obligations.NopOnlyClearsErr := by
  refine ⟨by decide, fun s => ?_⟩
  exact exec_of_ok (i := .nop) rfl

section
variable {s : State}

/-! ## PARITY on a reported state -/

/-- R224: the report of the stage before does not change how PARITY ends. -/
theorem parityEnd_finish (s : State) :
    (∃ e info, parityEnd s = .error e info s ∧ parityEnd s.finish = .error e info s.finish) ∨
      (parityEnd s = .ok s.withParity ∧ parityEnd s.finish = .ok s.finish.withParity) := by
  by_cases hc : s.cfgv = false
  · exact .inl ⟨.notConfigured, 0, if_pos hc, if_pos hc⟩
  have hc' : s.cfgv = true := by simpa using hc
  by_cases hl : s.lengthLegal = false
  · exact .inl ⟨_, _, parityEnd_of_illegal_length hc' hl, parityEnd_of_illegal_length (s := s.finish) hc' hl⟩
  have hl' : s.lengthLegal = true := by simpa using hl
  rcases hmissing : s.firstMissing with _ | i
  · exact .inr ⟨parityEnd_of_ready hc hl' hmissing, parityEnd_of_ready (s := s.finish) hc hl' hmissing⟩
  · exact .inl ⟨_, _, parityEnd_of_missing hc' hl' hmissing, parityEnd_of_missing (s := s.finish) hc' hl' hmissing⟩

/-- R224: PARITY's own report covers that of the stage before, up to the draw counter. -/
theorem parityEnd_next_finish (s : State) :
    { (parityEnd s.finish).next with epoch := s.epoch + 1 } = (parityEnd s).next := by
  rcases parityEnd_finish s with ⟨e, info, hparity, hfinish⟩ | ⟨hparity, hfinish⟩
  · rw [hparity, hfinish]; rfl
  · rw [hparity, hfinish]; rfl

/-! ## FRAME, then PARITY -/

theorem withParity_valueAt_off (hl : s.l ≤ 2 ^ 20) {a : Nat} (ha : ∀ i o, s.k ≤ i → i < s.m → o < s.l → a ≠ fragAddr i o) :
    s.withParity.valueAt a = s.valueAt a :=
  Memory.byteAt_fillFragments_off _ _ _ _ _ _ hl fun i o hi ho => by
    unfold State.r at hi
    exact ha _ o (by omega) (by omega) ho

/-- R191: PARITY leaves the data fragments alone. -/
theorem withParity_valueAt_data (hl : s.l ≤ 2 ^ 20) {i o : Nat} (hik : i < s.k) (ho : o < s.l) :
    s.withParity.valueAt (fragAddr i o) = s.valueAt (fragAddr i o) :=
  withParity_valueAt_off hl fun i' o' hki _ ho' => by unfold fragAddr; omega

/-- R191: byte `o` of parity fragment `i`. -/
theorem withParity_valueAt_parity (hl : s.l ≤ 2 ^ 20) {i o : Nat} (hki : s.k ≤ i) (him : i < s.m) (ho : o < s.l) :
    s.withParity.valueAt (fragAddr i o) = s.parityAt i o := by
  obtain ⟨i, rfl⟩ := Nat.exists_eq_add_of_le hki
  exact Memory.byteAt_fillFragments_at _ _ _ _ _ _ _ hl (by unfold State.r; omega) ho

theorem encodeEnd_of_fits (h : s.Inv) (hc : ¬s.cfgv = false) (hfits : frameLength s.plen.toNat s.k ≤ s.params.lmax) :
    encodeEnd s = .ok s.withFrame.withParity := by
  rw [encodeEnd, frameEnd_of_fits hc hfits, CommandEnd.andThen_ok, parityEnd_withFrame h hc hfits]

/-- R201: ENCODE leaves all fragments of the configuration present. -/
theorem withFrame_withParity_isPresent (hkm : s.k < s.m) (i : Nat) :
    s.withFrame.withParity.isPresent i = (s.isPresent i || decide (i < s.m)) := by
  have hk : s.withFrame.k = s.k := rfl
  have hm : s.withFrame.m = s.m := rfl
  rw [withParity_isPresent, withFrame_isPresent_eq, hk, hm]
  by_cases hik : i < s.k
  · simp [hik, hik.trans hkm]
  · by_cases him : i < s.m
    · simp [hik, him, Nat.not_lt.1 hik]
    · simp [hik, him]

/-- R190, R191: FRAME and PARITY write the first `L` bytes of fragments of the configuration only. -/
theorem withFrame_withParity_valueAt_off (hkm : s.k < s.m) (hl : frameLength s.plen.toNat s.k ≤ 2 ^ 20) {a : Nat}
    (ha : ∀ i o, i < s.m → o < frameLength s.plen.toNat s.k → a ≠ fragAddr i o) :
    s.withFrame.withParity.valueAt a = s.valueAt a := by
  have hlen : s.withFrame.l = frameLength s.plen.toNat s.k := withFrame_len hl
  refine (withParity_valueAt_off (hlen.trans_le hl) fun i o _ him ho => ha i o him (hlen ▸ ho)).trans ?_
  exact withFrame_valueAt_off hl fun i o hik ho => ha i o (hik.trans hkm) ho

end

/-- Settles O53: both commands perform `parityEnd` on the state FRAME leaves, and PARITY reports over FRAME's report. -/
theorem encodeIsFrameThenParity : Obligations.EncodeIsFrameThenParity := by
  refine fun s t hexec => ⟨fun hne => ?_, fun hok => ?_⟩
  · obtain rfl := exec_next_iff.1 hexec
    rcases frameEnd_cases s with ⟨e, hframe⟩ | ⟨-, -, hframe⟩
    · have hsame : encodeEnd s = frameEnd s := by rw [encodeEnd, hframe, CommandEnd.andThen_error]
      exact exec_next_iff.2 (congrArg CommandEnd.next hsame.symm)
    · exact absurd (CommandEnd.next_err_ok.2 ⟨_, hframe⟩) hne
  · obtain ⟨hc, hfits, rfl⟩ := frame_ended_ok hexec hok
    have hencode : encodeEnd s = parityEnd s.withFrame := by
      rw [encodeEnd, frameEnd_of_fits hc hfits, CommandEnd.andThen_ok]
    refine ⟨_, exec_eq_next .parity s.withFrame.finish, exec_next_iff.2 ?_, fun hinv => ?_⟩
    · exact (parityEnd_next_finish s.withFrame).trans (congrArg CommandEnd.next hencode.symm)
    · obtain ⟨-, hkm, -⟩ := hinv.configured hc
      have hparity : parityEnd s.withFrame.finish = .ok s.withFrame.finish.withParity := by
        rcases parityEnd_finish s.withFrame with ⟨e, info, herror, -⟩ | ⟨-, hfinish⟩
        · exact nomatch herror.symm.trans (parityEnd_withFrame hinv hc hfits)
        · exact hfinish
      have hnext : (commandEnd .parity s.withFrame.finish).next = s.withFrame.finish.withParity.finish :=
        congrArg CommandEnd.next hparity
      rw [hnext]
      exact ⟨rfl, rfl, fun i hi => (withFrame_withParity_isPresent hkm i).trans (by simp [hi])⟩

/-- Settles O54: FRAME and PARITY write fragments of the configuration only. -/
theorem encodeCompletesForEveryPayloadThatFits : Obligations.EncodeCompletesForEveryPayloadThatFits := by
  intro s d l hinv hc hd hl hfits
  have hc' : ¬s.cfgv = false := by simp [hc]
  obtain ⟨hk, hkm, -⟩ := hinv.configured hc'
  obtain rfl := eq_digits_of_isDigitCount hd
  obtain rfl := eq_frameLength_of_isFrameLength hk hl
  have hle := hfits.trans (lmax_le hinv.valid)
  exact ⟨_, exec_of_ok (i := .encode) (encodeEnd_of_fits hinv hc' hfits), rfl, withFrame_withParity_isPresent hkm,
    fun a ha => withFrame_withParity_valueAt_off hkm hle ha⟩

end Sys2Proof.Machine
end

section
/-! # RECON after GENDEC restores the codeword (R165, R171)

The rows of `D` are the rows of `G` of the absent fragments times the inverse of the selected rows. So a rebuilt byte is the row
of `G` times the data bytes that the selected fragments stand for. -/

open scoped Matrix

namespace Sys2Proof.Machine

open Sys2Proof.Claims

/-! ## Rows of the decode matrix -/

section
variable {poly : BitVec 9} {k : Nat} {G : Nat → Nat → Byte} {didx : List Nat} {V : Matrix} {x y : Nat → Byte}

/-- R165: the inverse of the selected rows takes the selected bytes of a codeword back to its data bytes. -/
theorem fieldMatrix_mulVec_codeword (h : poly.getLsbD 8 = true) (hV : ProductIsIdentity poly k V.at (selected G didx))
    (hy : ∀ j, j < k → y j = xorSum (fun c => mul poly (selected G didx j c) (x c)) k) :
    fieldMatrix poly k V.at *ᵥ fieldVector poly k y = fieldVector poly k x := by
  have hselected : fieldVector poly k y = fieldMatrix poly k (selected G didx) *ᵥ fieldVector poly k x :=
    funext fun j => (congrArg (fieldValue poly) (hy j j.isLt)).trans (fieldMatrix_mulVec_apply h _ _ j).symm
  rw [productIsIdentity_iff h] at hV
  rw [hselected, Matrix.mulVec_mulVec, hV, Matrix.one_mulVec]

/-- R165: a row of the decode matrix takes the selected bytes of a codeword to the byte of the absent fragment. -/
theorem xorSum_decodeRowAt (h : poly.getLsbD 8 = true) (hV : ProductIsIdentity poly k V.at (selected G didx))
    (hy : ∀ j, j < k → y j = xorSum (fun c => mul poly (selected G didx j c) (x c)) k) (e : Nat) :
    xorSum (fun j => mul poly (decodeRowAt poly G k V e j) (y j)) k =
      if e < k then x e else xorSum (fun c => mul poly (G e c) (x c)) k := by
  have hdata := fieldMatrix_mulVec_codeword h hV hy
  apply fieldValue_injective h
  rw [← dotProduct_fieldVector h]
  by_cases hek : e < k
  · have hrow : decodeRowAt poly G k V e = V.at e := funext fun j => if_pos hek
    rw [if_pos hek, hrow]
    exact congrFun hdata ⟨e, hek⟩
  · have hrow : fieldVector poly k (decodeRowAt poly G k V e) = fieldVector poly k (G e) ᵥ* fieldMatrix poly k V.at := by
      funext j
      have hsum : decodeRowAt poly G k V e j = xorSum (fun l => mul poly (G e l) (V.at l j)) k :=
        (if_neg hek).trans (xorSum_congr fun l _ => mul_comm_byte h _ _)
      exact (congrArg (fieldValue poly) hsum).trans (dotProduct_fieldVector h (G e) fun l => V.at l j).symm
    rw [if_neg hek, hrow, ← Matrix.dotProduct_mulVec, hdata, dotProduct_fieldVector h]

end

/-! ## The state RECON leaves -/

section
variable {s : State} {didx : List Nat} {B V : Matrix}

/-- R170, R171: the state RECON leaves after a successful GENDEC from `s`. -/
def State.withReconstruction (s : State) (didx : List Nat) (B Binv : Matrix) : State :=
  (s.withSynthesis didx B Binv).rebuild s.errorCount

theorem withSynthesis_nerrs (s : State) (didx : List Nat) (B Binv : Matrix) :
    (s.withSynthesis didx B Binv).nerrs.toNat = s.errorCount :=
  (BitVec.toNat_ofNat _ _).trans (Nat.mod_eq_of_lt (errorCount_lt s))

theorem withSynthesis_lostFragment {p : Nat} (hp : p < s.errorCount) :
    (s.withSynthesis didx B V).lostFragment p = s.errorList.getD p 0 :=
  lostFragment_of_listed (s := s.withSynthesis didx B V) (errorList_getD_lt hp) (withSynthesis_errl didx B V hp)

/-- R257: a specified byte holds what a draw of it gives. -/
theorem valueAt_eq_some_sample {a : Nat} (h : ∃ b, s.valueAt a = some b) : s.valueAt a = some (s.sample a) := by
  obtain ⟨b, hb⟩ := h
  rw [hb, State.sample_of_valueAt hb]

/-- R183: byte `o` of fragment `i` is a byte of the concatenation. -/
theorem frameAddr_mul_add {l o : Nat} (ho : o < l) (i : Nat) : frameAddr l (i * l + o) = fragAddr i o := by
  have hl : 0 < l := Nat.zero_lt_of_lt ho
  have hdiv : (i * l + o) / l = i := by
    rw [Nat.mul_comm, Nat.mul_add_div hl, Nat.div_eq_of_lt ho, Nat.add_zero]
  have hmod : (i * l + o) % l = o := by rw [Nat.mul_comm, Nat.mul_add_mod, Nat.mod_eq_of_lt ho]
  rw [frameAddr, hdiv, hmod]

theorem withSynthesis_valueAt_fragAddr (s : State) (didx : List Nat) (B V : Matrix) (i o : Nat) :
    (s.withSynthesis didx B V).valueAt (fragAddr i o) = s.valueAt (fragAddr i o) := by
  rw [← frameAddr_mul_add o.lt_succ_self, withSynthesis_valueAt_frameAddr]

theorem withReconstruction_eq (s : State) (didx : List Nat) (B V : Matrix) : s.withReconstruction didx B V =
    { s.withSynthesis didx B V with
      present := (s.withReconstruction didx B V).present, mem := (s.withReconstruction didx B V).mem } :=
  rebuild_eq _ _

section
variable (s : State) (didx : List Nat) (B V : Matrix)

@[simp] theorem withReconstruction_params : (s.withReconstruction didx B V).params = s.params :=
  (congrArg State.params (withReconstruction_eq s didx B V) :)

@[simp] theorem withReconstruction_cfgv : (s.withReconstruction didx B V).cfgv = s.cfgv :=
  (congrArg State.cfgv (withReconstruction_eq s didx B V) :)

@[simp] theorem withReconstruction_k : (s.withReconstruction didx B V).k = s.k :=
  (congrArg State.k (withReconstruction_eq s didx B V) :)

@[simp] theorem withReconstruction_l : (s.withReconstruction didx B V).l = s.l :=
  (congrArg State.l (withReconstruction_eq s didx B V) :)

@[simp] theorem withReconstruction_lengthLegal : (s.withReconstruction didx B V).lengthLegal = s.lengthLegal :=
  (congrArg State.lengthLegal (withReconstruction_eq s didx B V) :)

@[simp] theorem withReconstruction_dv : (s.withReconstruction didx B V).dv = true :=
  (congrArg State.dv (withReconstruction_eq s didx B V) :)

@[simp] theorem withReconstruction_epoch : (s.withReconstruction didx B V).epoch = s.epoch :=
  (congrArg State.epoch (withReconstruction_eq s didx B V) :)

end

/-- R160: an absent fragment has a place in the error list. -/
theorem exists_errorList_getD {e : Nat} (hem : e < s.m) (habsent : s.isPresent e = false) :
    ∃ p, p < s.errorCount ∧ s.errorList.getD p 0 = e := by
  obtain ⟨p, hp, hpe⟩ := List.mem_iff_getElem.1 (mem_errorList.2 ⟨hem, habsent⟩)
  exact ⟨p, hp, (List.getD_eq_getElem _ _ hp).trans hpe⟩

theorem errorList_getD_absent {p : Nat} (hp : p < s.errorCount) : s.isPresent (s.errorList.getD p 0) = false := by
  rw [List.getD_eq_getElem _ _ hp]
  exact (mem_errorList.1 (List.getElem_mem hp)).2

theorem errorList_getD_strictMono {p q : Nat} (hpq : p < q) (hq : q < s.errorCount) :
    s.errorList.getD p 0 < s.errorList.getD q 0 := by
  rw [List.getD_eq_getElem _ _ (hpq.trans hq), List.getD_eq_getElem _ _ hq]
  exact List.pairwise_iff_getElem.1 (errorList_pairwise s) p q _ _ hpq

/-- R171: every fragment of the configuration is present after RECON. -/
theorem withReconstruction_isPresent (didx : List Nat) (B V : Matrix) {i : Nat} (him : i < s.m) :
    (s.withReconstruction didx B V).isPresent i = true := by
  refine (rebuild_isPresent _ _ i).trans (Bool.or_eq_true_iff.2 ?_)
  rcases hi : s.isPresent i with _ | _
  · obtain ⟨p, hp, rfl⟩ := exists_errorList_getD him hi
    exact .inr (decide_eq_true ⟨p, hp, withSynthesis_lostFragment hp⟩)
  · exact .inl hi

theorem withReconstruction_firstMissing (hkm : s.k < s.m) (didx : List Nat) (B V : Matrix) :
    (s.withReconstruction didx B V).firstMissing = none := by
  rw [firstMissing_eq_none_iff, withReconstruction_k]
  exact fun i hik => withReconstruction_isPresent didx B V (hik.trans hkm)

section
variable {o : Nat} (ho : o < s.l) (hl : s.l ≤ 2 ^ 20)
include ho hl

/-- R171: RECON leaves the present fragments alone. -/
theorem withReconstruction_valueAt_present {i : Nat} (hi : s.isPresent i = true) :
    (s.withReconstruction didx B V).valueAt (fragAddr i o) = s.valueAt (fragAddr i o) := by
  refine (rebuild_valueAt_off _ _ _ fun p o' hp ho' => ?_).trans (withSynthesis_valueAt_fragAddr s didx B V i o)
  have ho'' : o' < s.l := ho'
  have hne : s.errorList.getD p 0 ≠ i := fun hpi => by
    have habsent := errorList_getD_absent hp
    rw [hpi, hi] at habsent
    cases habsent
  rw [withSynthesis_lostFragment hp]
  unfold fragAddr
  omega

/-- R171: the bytes of an absent fragment. -/
theorem withReconstruction_valueAt_absent {e : Nat} {y : Nat → Byte} (hem : e < s.m) (habsent : s.isPresent e = false)
    (hdidx : ∀ j, j < s.k → didx.getD j 0 < s.m) (hy : ∀ j, j < s.k → s.valueAt (fragAddr (didx.getD j 0) o) = some (y j)) :
    (s.withReconstruction didx B V).valueAt (fragAddr e o) =
      some (xorSum (fun j => mul s.params.poly (decodeRowAt s.params.poly s.gAt s.k V e j) (y j)) s.k) := by
  obtain ⟨p, hp, rfl⟩ := exists_errorList_getD hem habsent
  have hlost := withSynthesis_lostFragment (didx := didx) (B := B) (V := V) hp
  have hat := rebuild_valueAt_at (s.withSynthesis didx B V) s.errorCount p o hp ho hl fun q hpq hq => by
    rw [hlost, withSynthesis_lostFragment hq]
    exact (errorList_getD_strictMono hpq hq).ne'
  rw [hlost] at hat
  refine hat.trans (rebuiltAt_of_specified (s := s.withSynthesis didx B V) (didx := didx) (fun j hj => ?_) fun j hj => ?_)
  · exact ⟨hdidx j hj, withSynthesis_didx didx B V hj⟩
  · exact ⟨withSynthesis_D didx B V p j hp hj, (withSynthesis_valueAt_fragAddr s didx B V _ o).trans (hy j hj)⟩

end

end

end Sys2Proof.Machine
end

section
/-! # DECODE (O55; R202) -/

namespace Sys2Proof.Machine

open Sys2Proof.Claims

section
variable {s : State} {didx : List Nat} {B V : Matrix}

/-! ## The descriptor of a successful synthesis -/

/-- R161 to R165: a synthesis that succeeds selects `k` survivors and finds the inverse of their rows. -/
theorem synthesis_spec {G : Nat → Nat → Byte} (h : SynthesisReady s G) (hs : s.synthesis = some (didx, B, V)) :
    ProductIsIdentity s.params.poly s.k V.at (selected G didx) ∧ ∀ j, j < s.k → didx.getD j 0 ∈ s.survivors := by
  obtain ⟨t, ht, rfl, rfl, hV, -⟩ := synthesize_some hs
  rw [h.candidates_length, Nat.lt_succ_iff] at ht
  rw [take_append_candidate] at hV ⊢
  refine ⟨productIsIdentity_of_invert h.irreducible (h.represents ht) hV, fun j hj => ?_⟩
  obtain ⟨hlen, -, hmem⟩ := decodeIndex_spec h.one_le_k (h.candidate_lt ht)
  rw [List.getD_eq_getElem _ _ (hj.trans_eq hlen.symm)]
  exact hmem _ (List.getElem_mem _)

/-- R170: GENDEC fails, or a synthesis gives the decode matrix. -/
theorem gendecEnd_synthesis_cases (hc : ¬s.cfgv = false) :
    (∃ e info t, (s.errorCount ≤ s.r → e = .noInvertibleSubmatrix) ∧ gendecEnd s = .error e info t) ∨
      ∃ didx B V, s.errorCount ≤ s.r ∧ s.synthesis = some (didx, B, V) ∧ gendecEnd s = .ok (s.withSynthesis didx B V) := by
  rcases Nat.lt_or_ge s.r s.errorCount with he | he
  · exact .inl ⟨_, _, _, fun hle => absurd hle (Nat.not_le.2 he), gendecEnd_of_tooManyErrors hc he⟩
  rcases hs : s.synthesis with _ | ⟨didx, B, V⟩
  · exact .inl ⟨_, _, _, fun _ => rfl, gendecEnd_of_no_synthesis hc he hs⟩
  · exact .inr ⟨didx, B, V, he, rfl, gendecEnd_of_synthesis hc he hs⟩

/-! ## The stages of DECODE -/

theorem decodeEnd_of_gendec_error {e : CommandError} {info : Nat} {t : State} (hc : ¬s.cfgv = false)
    (hl : s.lengthLegal = true) (h : gendecEnd s = .error e info t) : decodeEnd s = .error e info t := by
  rw [decodeEnd, if_neg hc, if_neg (by simp [hl]), h, CommandEnd.andThen_error, CommandEnd.andThen_error]

/-- R171, R202: after GENDEC the checks of RECON succeed. -/
theorem reconEnd_withSynthesis (hc : ¬s.cfgv = false) (hl : s.lengthLegal = true) (didx : List Nat) (B V : Matrix) :
    reconEnd (s.withSynthesis didx B V) = .ok (s.withReconstruction didx B V) := by
  rw [reconEnd_of_ready (s := s.withSynthesis didx B V) hc rfl hl, withSynthesis_nerrs, State.withReconstruction]

theorem withReconstruction_inv (h : s.Inv) (hc : ¬s.cfgv = false) (hl : s.lengthLegal = true) (he : s.errorCount ≤ s.r)
    (hs : s.synthesis = some (didx, B, V)) : (s.withReconstruction didx B V).Inv := by
  have hgendec := gendecEnd_inv h
  rw [gendecEnd_of_synthesis hc he hs] at hgendec
  have hrecon := reconEnd_inv hgendec
  rwa [CommandEnd.state_ok, reconEnd_withSynthesis hc hl] at hrecon

theorem decodeEnd_of_synthesis (hc : ¬s.cfgv = false) (hl : s.lengthLegal = true) (he : s.errorCount ≤ s.r)
    (hs : s.synthesis = some (didx, B, V)) :
    decodeEnd s = (unframeEnd (s.withReconstruction didx B V)).clearDvOnError := by
  rw [decodeEnd, if_neg hc, if_neg (by simp [hl]), gendecEnd_of_synthesis hc he hs, CommandEnd.andThen_ok,
    reconEnd_withSynthesis hc hl, CommandEnd.andThen_ok]

/-! ## The stages on reported states (R224) -/

/-- A draw of a specified byte does not depend on the time. -/
theorem sample_finish {a : Nat} {b : Byte} (h : s.valueAt a = some b) : s.finish.sample a = s.sample a :=
  (State.sample_of_valueAt (s := s.finish) h).trans (State.sample_of_valueAt h).symm

theorem rebuild_finish {n : Nat} (h : ∀ p, p < n → s.finish.lostFragment p = s.lostFragment p) :
    s.finish.rebuild n = (s.rebuild n).finish := by
  induction n with
  | zero => rfl
  | succ n ih =>
    rw [State.rebuild, ih fun p hp => h p (by omega), h n n.lt_succ_self]
    rfl

/-- R171: RECON as a command of its own, after GENDEC. -/
theorem reconEnd_withSynthesis_finish (hc : ¬s.cfgv = false) (hl : s.lengthLegal = true) (didx : List Nat) (B V : Matrix) :
    reconEnd (s.withSynthesis didx B V).finish = .ok (s.withReconstruction didx B V).finish := by
  rw [reconEnd_of_ready (s := (s.withSynthesis didx B V).finish) hc rfl hl, State.finish_nerrs, withSynthesis_nerrs,
    rebuild_finish fun p hp => congrArg BitVec.toNat (sample_finish (withSynthesis_errl didx B V hp)), State.withReconstruction]

/-- R192: UNFRAME of a specified buffer ends as `unframe` does. -/
theorem unframeEnd_of_length {X : Nat → Byte} {n : Nat} (hc : ¬s.cfgv = false) (hl : s.lengthLegal = true)
    (hpresent : s.firstMissing = none) (hX : ∀ x, x < s.k * s.l → s.valueAt (frameAddr s.l x) = some (X x))
    (h : unframeLength s.params.pad X (s.k * s.l) = .ok n) : unframeEnd s = .ok (s.withPayload n) := by
  rw [← unframeLength_congr fun x hx => State.sample_of_valueAt (hX x hx)] at h
  rw [unframeEnd, if_neg hc, if_neg (by simp [hl]), hpresent]
  dsimp only
  rw [h]
  rfl

/-- R202: UNFRAME on a state two commands have reported over, and as the last stage of DECODE. -/
theorem unframeEnd_next_finish {X : Nat → Byte} (hc : ¬s.cfgv = false) (hdv : s.dv = true) (hl : s.lengthLegal = true)
    (hpresent : s.firstMissing = none) (hX : ∀ x, x < s.k * s.l → s.valueAt (frameAddr s.l x) = some (X x)) :
    { (unframeEnd s.finish.finish).next with
      epoch := s.epoch + 1, dv := decide ((unframeEnd s.finish.finish).next.err = .ok) } =
      (unframeEnd s).clearDvOnError.next := by
  rcases h : unframeLength s.params.pad X (s.k * s.l) with c | n
  · rw [unframeEnd_of_corrupt hc hl hpresent hX h, unframeEnd_of_corrupt (s := s.finish.finish) hc hl hpresent hX h]
    rfl
  · rw [unframeEnd_of_length hc hl hpresent hX h, unframeEnd_of_length (s := s.finish.finish) hc hl hpresent hX h]
    exact congrArg (fun b => { (s.withPayload n).finish with dv := b }) hdv.symm

/-! ## The fragments RECON leaves -/

/-- R171: where the present fragments are specified all fragments of the configuration are, after RECON. -/
theorem withReconstruction_specified {G : Nat → Nat → Byte} (h : SynthesisReady s G) (hs : s.synthesis = some (didx, B, V))
    (hl : s.l ≤ 2 ^ 20)
    (hspec : ∀ i o, i < s.m → s.isPresent i = true → o < s.l → ∃ b, s.valueAt (fragAddr i o) = some b) {i o : Nat}
    (him : i < s.m) (ho : o < s.l) : ∃ b, (s.withReconstruction didx B V).valueAt (fragAddr i o) = some b := by
  obtain ⟨-, hdidx⟩ := synthesis_spec h hs
  rcases hi : s.isPresent i with _ | _
  · refine ⟨_, withReconstruction_valueAt_absent ho hl (y := fun j => s.sample (fragAddr (didx.getD j 0) o)) him hi
      (fun j hj => (mem_survivors.1 (hdidx j hj)).1) fun j hj => ?_⟩
    obtain ⟨hlt, hpresent⟩ := mem_survivors.1 (hdidx j hj)
    exact valueAt_eq_some_sample (hspec _ o hlt hpresent ho)
  · rw [withReconstruction_valueAt_present ho hl hi]
    exact hspec i o him hi ho

/-- R141, R191: the byte of fragment `i` in a codeword with data bytes `x`, all at one byte offset. -/
def State.codewordByte (s : State) (x : Nat → Byte) (i : Nat) : Byte :=
  xorSum (fun c => mul s.params.poly (generatorAt s.params.poly s.k s.cfgStrat i c) (x c)) s.k

/-- R141: the data bytes of a codeword stand in its data fragments. -/
theorem codewordByte_of_lt (h : s.Inv) (x : Nat → Byte) {i : Nat} (hi : i < s.k) : s.codewordByte x i = x i :=
  xorSum_generatorAt_of_lt x (getLsbD_eight_of_irreducible h.valid.1) s.cfgStrat hi

/-- R165, R171: where the present fragments are those of a codeword all fragments of the configuration are, after RECON. -/
theorem withReconstruction_codeword (h : s.Inv) (hc : s.cfgv = true) (he : s.errorCount ≤ s.r)
    (hs : s.synthesis = some (didx, B, V)) (hl : s.l ≤ 2 ^ 20) {x : Nat → Byte} {i o : Nat} (ho : o < s.l)
    (hx : ∀ i, i < s.m → s.isPresent i = true → s.valueAt (fragAddr i o) = some (s.codewordByte x i)) (him : i < s.m) :
    (s.withReconstruction didx B V).valueAt (fragAddr i o) = some (s.codewordByte x i) := by
  have hG := h.generator_corner hc
  obtain ⟨hV, hdidx⟩ := synthesis_spec (h.synthesisReady hc he hG) hs
  rcases hi : s.isPresent i with _ | _
  · have hsurvivor (j : Nat) (hj : j < s.k) := mem_survivors.1 (hdidx j hj)
    refine (withReconstruction_valueAt_absent ho hl him hi (fun j hj => (hsurvivor j hj).1) fun j hj =>
      hx _ (hsurvivor j hj).1 (hsurvivor j hj).2).trans (congrArg some ?_)
    have hrow : decodeRowAt s.params.poly s.gAt s.k V i =
        decodeRowAt s.params.poly (generatorAt s.params.poly s.k s.cfgStrat) s.k V i :=
      funext fun j => decodeRowAt_of_corner hG V him j
    rw [hrow]
    refine (xorSum_decodeRowAt (getLsbD_eight_of_irreducible h.valid.1) hV (x := x)
      (y := fun j => s.codewordByte x (didx.getD j 0)) (fun j _ => rfl) i).trans ?_
    split_ifs with hik
    · exact (codewordByte_of_lt h x hik).symm
    · rfl
  · rw [withReconstruction_valueAt_present ho hl hi, hx i him hi]

end

/-- Settles O55: DECODE ends as its stages do, since all bytes they draw are specified. -/
theorem decodeIsGendecReconUnframe : Obligations.DecodeIsGendecReconUnframe := by
  intro s t hinv hc hlo hhi hspec hexec
  have hc' : ¬s.cfgv = false := by simp [hc]
  have hl : s.lengthLegal = true := lengthLegal_eq_true_iff.2 ⟨hlo, hhi⟩
  have hlmax := hhi.trans (lmax_le hinv.valid)
  obtain ⟨-, hkm, -⟩ := hinv.configured hc'
  obtain rfl := exec_next_iff.1 hexec
  rcases gendecEnd_synthesis_cases hc' with ⟨e, info, w, -, hgendec⟩ | ⟨didx, B, V, he, hs, hgendec⟩
  · have hsame : decodeEnd s = gendecEnd s := (decodeEnd_of_gendec_error hc' hl hgendec).trans hgendec.symm
    refine ⟨fun _ => exec_next_iff.2 (congrArg CommandEnd.next hsame.symm), fun hok => ?_⟩
    obtain ⟨w', hw'⟩ := CommandEnd.next_err_ok.1 hok
    exact nomatch hgendec.symm.trans hw'
  · have hready := hinv.synthesisReady hc he (hinv.generator_corner hc)
    have hnext : (commandEnd .gendec s).next = (s.withSynthesis didx B V).finish := congrArg CommandEnd.next hgendec
    have hdecode : commandEnd .decode s = _ := decodeEnd_of_synthesis hc' hl he hs
    have hrecon : commandEnd .recon (s.withSynthesis didx B V).finish = _ := reconEnd_withSynthesis_finish hc' hl didx B V
    rw [hnext]
    refine ⟨fun hne => absurd rfl hne, fun _ => ⟨_, _, exec_of_ok hrecon, rfl, exec_eq_next .unframe _, exec_next_iff.2 ?_⟩⟩
    have hX (x : Nat) (hx : x < s.k * s.l) : (s.withReconstruction didx B V).valueAt (frameAddr s.l x) =
        some ((s.withReconstruction didx B V).sample (frameAddr s.l x)) := by
      obtain ⟨hik, ho⟩ := div_lt_and_mod_lt hx
      exact valueAt_eq_some_sample (withReconstruction_specified hready hs hlmax hspec (hik.trans hkm) ho)
    have hunframe := unframeEnd_next_finish (s := s.withReconstruction didx B V) (by simp [hc]) (by simp) (by simp [hl])
      (withReconstruction_firstMissing hkm didx B V) (X := fun x => (s.withReconstruction didx B V).sample (frameAddr s.l x))
      (by simpa using hX)
    rw [withReconstruction_epoch] at hunframe
    exact hunframe.trans (congrArg CommandEnd.next hdecode.symm)

end Sys2Proof.Machine
end

section
/-! # The round trip under loss (O57; R203) -/

namespace Sys2Proof.Machine

open Sys2Proof.Claims

section
variable {s u : State}

/-! ## ENCODE writes a codeword -/

/-- R180: a frame of specified payload bytes is specified. -/
theorem frameByte_specified {P : Nat → Option Byte} {n : Nat} (hP : ∀ x, x < n → ∃ b, P x = some b) (pad : Byte)
    (total i : Nat) : ∃ b, frameByte pad P n total i = some b := by
  unfold frameByte
  split_ifs with hi
  · exact hP i hi
  · exact ⟨_, rfl⟩
  · exact ⟨_, rfl⟩

/-- An ENCODE that ended `OK` had a configuration and room for its frame. -/
theorem encode_ended_ok {t : State} (h : s.Inv) (hexec : exec .encode s = .next t) (hok : t.err = .ok) :
    ¬s.cfgv = false ∧ frameLength s.plen.toNat s.k ≤ s.params.lmax ∧ t = s.withFrame.withParity.finish := by
  obtain rfl := exec_next_iff.1 hexec
  rcases frameEnd_cases s with ⟨e, hframe⟩ | ⟨hc, hfits, -⟩
  · have hencode : commandEnd .encode s = .error e 0 s :=
      (congrArg (CommandEnd.andThen · parityEnd) hframe).trans (CommandEnd.andThen_error _ _ _ _)
    obtain ⟨w, hw⟩ := CommandEnd.next_err_ok.1 hok
    exact nomatch hencode.symm.trans hw
  · exact ⟨hc, hfits, congrArg CommandEnd.next (encodeEnd_of_fits h hc hfits)⟩

/-- What ENCODE starts from when it ends `OK` on a specified payload. -/
structure EncodeReady (s : State) : Prop where
  inv : s.Inv
  configured : s.cfgv = true
  fits : frameLength s.plen.toNat s.k ≤ s.params.lmax
  payload : ∀ x, x < s.plen.toNat → ∃ b, s.valueAt (payAddr x) = some b

namespace EncodeReady

theorem length_le (h : EncodeReady s) : frameLength s.plen.toNat s.k ≤ 2 ^ 20 := h.fits.trans (lmax_le h.inv.valid)

theorem one_le_k (h : EncodeReady s) : 1 ≤ s.k :=
  have ⟨hk, _, _⟩ := h.inv.configured (by simp [h.configured])
  hk

theorem k_lt_m (h : EncodeReady s) : s.k < s.m :=
  have ⟨_, hkm, _⟩ := h.inv.configured (by simp [h.configured])
  hkm

/-- R182: the frame has room for the payload, the pad byte and the trailer. -/
theorem room (h : EncodeReady s) : s.plen.toNat + digits s.plen.toNat + 1 ≤ s.k * frameLength s.plen.toNat s.k :=
  (frameLength_spec s.plen.toNat h.one_le_k).1

theorem withFrame_l (h : EncodeReady s) : s.withFrame.l = frameLength s.plen.toNat s.k := withFrame_len h.length_le

/-- R190: the data fragments after FRAME are specified. -/
theorem withFrame_sample (h : EncodeReady s) {i o : Nat} (hi : i < s.k) (ho : o < frameLength s.plen.toNat s.k) :
    s.withFrame.valueAt (fragAddr i o) = some (s.withFrame.sample (fragAddr i o)) := by
  have hx : i * frameLength s.plen.toNat s.k + o < s.k * frameLength s.plen.toNat s.k := by
    have hrows := Nat.mul_le_mul_right (frameLength s.plen.toNat s.k) (Nat.succ_le_of_lt hi)
    rw [Nat.succ_mul] at hrows
    omega
  obtain ⟨b, hb⟩ := frameByte_specified h.payload s.params.pad (s.k * frameLength s.plen.toNat s.k)
    (i * frameLength s.plen.toNat s.k + o)
  have hvalue := (withFrame_valueAt_frameAddr h.length_le hx).trans hb
  rw [frameAddr_mul_add ho] at hvalue
  exact valueAt_eq_some_sample ⟨b, hvalue⟩

/-- R190, R191: after ENCODE the fragments of the configuration hold a codeword at each byte offset. -/
theorem valueAt_codeword (h : EncodeReady s) {i o : Nat} (hi : i < s.m) (ho : o < frameLength s.plen.toNat s.k) :
    s.withFrame.withParity.valueAt (fragAddr i o) =
      some (s.codewordByte (fun c => s.withFrame.sample (fragAddr c o)) i) := by
  have hlen := h.withFrame_l
  have hl : s.withFrame.l ≤ 2 ^ 20 := hlen.trans_le h.length_le
  rw [← hlen] at ho
  by_cases hik : i < s.k
  · rw [withParity_valueAt_data hl hik ho, h.withFrame_sample hik (hlen ▸ ho), codewordByte_of_lt h.inv _ hik]
  · refine (withParity_valueAt_parity hl (Nat.not_lt.1 hik) hi ho).trans (parityAt_of_specified fun j hj => ⟨?_, ?_⟩)
    · refine (withFrame_valueAt_off h.length_le fun i' o' _ _ => ?_).trans (h.inv.generator_corner h.configured i j hi hj)
      have hm := m_lt s
      have hk := k_lt s
      have hj' : j < s.k := hj
      unfold matAddr fragAddr
      omega
    · exact h.withFrame_sample hj (hlen ▸ ho)

/-- R183, R190: the data fragments after ENCODE hold the frame. -/
theorem valueAt_frameAddr (h : EncodeReady s) {x : Nat} (hx : x < s.k * frameLength s.plen.toNat s.k) :
    s.withFrame.withParity.valueAt (frameAddr (frameLength s.plen.toNat s.k) x) =
      frameByte s.params.pad (fun j => s.valueAt (payAddr j)) s.plen.toNat (s.k * frameLength s.plen.toNat s.k) x := by
  have hlen := h.withFrame_l
  obtain ⟨hi, ho⟩ := div_lt_and_mod_lt hx
  rw [← withFrame_valueAt_frameAddr h.length_le hx]
  exact withParity_valueAt_data (hlen.trans_le h.length_le) hi (hlen ▸ ho)

end EncodeReady

/-! ## A later state -/

/-- R203: `u` has the parameters, configuration and `L` that ENCODE of `s` left, and, as far as they are present, its fragments. -/
structure HoldsEncoding (s u : State) : Prop where
  inv : u.Inv
  configured : u.cfgv = true
  params : u.params = s.params
  m : u.m = s.m
  k : u.k = s.k
  strategy : u.cfgStrat = s.cfgStrat
  length : u.l = frameLength s.plen.toNat s.k
  fragments : ∀ i o, i < s.m → o < frameLength s.plen.toNat s.k → u.isPresent i = true →
    u.valueAt (fragAddr i o) = s.withFrame.withParity.valueAt (fragAddr i o)

namespace HoldsEncoding

variable {didx : List Nat} {B V : Matrix}

theorem codewordByte (h : HoldsEncoding s u) (x : Nat → Byte) (i : Nat) : u.codewordByte x i = s.codewordByte x i := by
  rw [State.codewordByte, State.codewordByte, h.params, h.k, h.strategy]

/-- R203: RECON restores every fragment that ENCODE left. -/
theorem withReconstruction_valueAt (h : HoldsEncoding s u) (hs : EncodeReady s) (he : u.errorCount ≤ u.r)
    (hsynthesis : u.synthesis = some (didx, B, V)) {i o : Nat} (hi : i < s.m) (ho : o < frameLength s.plen.toNat s.k) :
    (u.withReconstruction didx B V).valueAt (fragAddr i o) = s.withFrame.withParity.valueAt (fragAddr i o) := by
  have hl : u.l ≤ 2 ^ 20 := h.length.trans_le hs.length_le
  rw [hs.valueAt_codeword hi ho, ← h.codewordByte]
  refine withReconstruction_codeword h.inv h.configured he hsynthesis hl (h.length ▸ ho) (fun i' hi' hpresent => ?_) (h.m ▸ hi)
  rw [h.m] at hi'
  rw [h.fragments i' o hi' ho hpresent, hs.valueAt_codeword hi' ho, h.codewordByte]

/-- R203: RECON restores the frame in the data fragments. -/
theorem withReconstruction_valueAt_frameAddr (h : HoldsEncoding s u) (hs : EncodeReady s) (he : u.errorCount ≤ u.r)
    (hsynthesis : u.synthesis = some (didx, B, V)) {x : Nat} (hx : x < s.k * frameLength s.plen.toNat s.k) :
    (u.withReconstruction didx B V).valueAt (frameAddr (frameLength s.plen.toNat s.k) x) =
      frameByte s.params.pad (fun j => s.valueAt (payAddr j)) s.plen.toNat (s.k * frameLength s.plen.toNat s.k) x := by
  obtain ⟨hi, ho⟩ := div_lt_and_mod_lt hx
  exact (h.withReconstruction_valueAt hs he hsynthesis (hi.trans hs.k_lt_m) ho).trans (hs.valueAt_frameAddr hx)

theorem lengthLegal (h : HoldsEncoding s u) (hs : EncodeReady s) : u.lengthLegal = true := by
  have hlegal := withFrame_lengthLegal hs.inv hs.one_le_k hs.fits
  rw [State.lengthLegal, hs.withFrame_l] at hlegal
  rwa [State.lengthLegal, h.length, h.params]

/-- R203: DECODE ends `NoInvertibleSubmatrix`, or returns the payload from the restored frame. -/
theorem decodeEnd_cases (h : HoldsEncoding s u) (hs : EncodeReady s) (he : u.errorCount ≤ u.r) :
    (∃ info t, decodeEnd u = .error .noInvertibleSubmatrix info t) ∨
      ∃ didx B V, u.synthesis = some (didx, B, V) ∧
        decodeEnd u = .ok ((u.withReconstruction didx B V).withPayload s.plen.toNat) := by
  have hc : ¬u.cfgv = false := by simp [h.configured]
  have hl := h.lengthLegal hs
  rcases gendecEnd_synthesis_cases hc with ⟨e, info, t, hno, hgendec⟩ | ⟨didx, B, V, -, hsynthesis, -⟩
  · obtain rfl := hno he
    exact .inl ⟨info, t, decodeEnd_of_gendec_error hc hl hgendec⟩
  · obtain ⟨-, hkm, -⟩ := h.inv.configured hc
    have hunframe : unframeEnd (u.withReconstruction didx B V) = _ :=
      unframeEnd_of_frame (s := s) (withReconstruction_inv h.inv hc hl he hsynthesis) (by simp [h.configured]) (by simp [hl])
        (withReconstruction_firstMissing hkm didx B V) (by simpa [h.k, h.length] using hs.room)
        (by simpa [h.k, h.length, h.params] using fun x => h.withReconstruction_valueAt_frameAddr hs he hsynthesis)
    refine .inr ⟨didx, B, V, hsynthesis, ?_⟩
    rw [decodeEnd_of_synthesis hc hl he hsynthesis, hunframe, CommandEnd.clearDvOnError]

end HoldsEncoding

end

/-- Settles O57: any selection of survivors that GENDEC inverts gives back the whole codeword, whose data part is the frame. -/
theorem decodeOfEncodeIsThePayload : Obligations.DecodeOfEncodeIsThePayload := by
  intro s t u hs hc hpay hexec hok hu hparams hucfgv hM hK hstrat hlen he hfrag
  obtain ⟨-, hfits, rfl⟩ := encode_ended_ok hs hexec hok
  have hready : EncodeReady s := ⟨hs, hc, hfits, hpay⟩
  have hlength : s.withFrame.withParity.finish.len.toNat = frameLength s.plen.toNat s.k := hready.withFrame_l
  have hholds : HoldsEncoding s u :=
    ⟨hu, hucfgv, hparams, congrArg BitVec.toNat hM, congrArg BitVec.toNat hK, hstrat, (congrArg BitVec.toNat hlen).trans hlength,
      fun i o hi ho => hfrag i o hi (hlength ▸ ho)⟩
  refine ⟨_, exec_eq_next .decode u, ?_⟩
  rcases hholds.decodeEnd_cases hready he with ⟨info, w, hdecode⟩ | ⟨didx, B, V, hsynthesis, hdecode⟩
  · exact .inl (CommandEnd.next_err_failed.2 ⟨info, w, hdecode⟩)
  · have hnext : (commandEnd .decode u).next = ((u.withReconstruction didx B V).withPayload s.plen.toNat).finish :=
      congrArg CommandEnd.next hdecode
    rw [hnext]
    have hroom := hready.room
    have hm := m_lt s
    have hl := hready.length_le
    refine .inr ⟨rfl, ?_, fun x hx => ?_, fun i o hi ho => ⟨?_, ?_⟩⟩
    · show BitVec.ofNat 32 s.plen.toNat = s.plen
      rw [BitVec.ofNat_toNat, BitVec.setWidth_eq]
    · refine (withPayload_valueAt_pay hx).trans ?_
      rw [withReconstruction_l, hholds.length, hholds.withReconstruction_valueAt_frameAddr hready he hsynthesis (by omega),
        frameByte_payload hx]
    · exact withReconstruction_isPresent didx B V (hholds.m ▸ hi)
    · have him : i < s.m := hi
      rw [hlength] at ho
      exact (withPayload_valueAt_of_lt (by unfold fragAddr payAddr; omega)).trans
        (hholds.withReconstruction_valueAt hready he hsynthesis hi ho)

end Sys2Proof.Machine
end

section
/-! # How commands end (O10, O19, O40; R221, R224, R226) -/

namespace Sys2Proof.Machine

open Sys2Proof.Claims

/-! ## Every command answers a next state -/

/-- R224: both ways to end a command clear `BUSY`. -/
theorem CommandEnd.next_busy (c : CommandEnd) : c.next.busy = false := by cases c <;> rfl

/-- R226: a running command ends in a next state, whether its word is legal or not. -/
theorem runCommand_answers (s : State) : ∃ t, runCommand s = .next t := by
  rcases runCommand_cases s with ⟨i, -, h⟩ | ⟨d, -, h⟩
  · exact ⟨_, h⟩
  · exact ⟨_, h⟩

/-- Settles O10: each kind of step answers a next state, and so does the report of every command's end. -/
theorem nothingStopsTheBlock : Obligations.NothingStopsTheBlock := by
  refine ⟨fun s => ?_, fun i s => ⟨_, exec_eq_next i s, CommandEnd.next_busy _⟩⟩
  rcases step_cases s with ⟨-, -, h⟩ | ⟨left, e, rest, -, -, -, h⟩ | ⟨e, rest, -, -, h⟩ | ⟨-, -, h⟩
  · rw [h]
    exact runCommand_answers s
  · exact ⟨_, h⟩
  · exact ⟨_, h⟩
  · exact ⟨_, h⟩

/-! ## The report of a command's end -/

/-- R224: before the report a command's operation has left `EINFO` and `ESTICKY` alone. -/
theorem einfo_esticky_of_commandEnd {i : Instr} {s : State} {c : CommandEnd} (h : commandEnd i s = c) :
    c.state.einfo = s.einfo ∧ c.state.esticky = s.esticky := by
  subst h
  have hcontrol := commandEnd_control i s
  exact ⟨(congrArg State.einfo hcontrol :), (congrArg State.esticky hcontrol :)⟩

/-- Settles O19: the operation leaves `EINFO` and `ESTICKY` alone, so they change by the report of an error only. -/
theorem commandEndsReportAsTheRuleSays : Obligations.CommandEndsReportAsTheRuleSays := by
  refine ⟨fun i s t hexec => ?_, rfl, rfl⟩
  obtain rfl := exec_next_iff.1 hexec
  refine ⟨CommandEnd.next_busy _, fun hok => ?_, fun e he => ?_⟩
  · obtain ⟨u, hend⟩ := CommandEnd.next_err_ok.1 hok
    rw [hend]
    exact einfo_esticky_of_commandEnd hend
  · obtain ⟨info, u, hend⟩ := CommandEnd.next_err_failed.1 he
    obtain ⟨-, hesticky⟩ := einfo_esticky_of_commandEnd hend
    rw [hend]
    exact congrArg (· ||| e.stickyBit) hesticky

/-! ## Commands that need a configuration -/

section
variable {s : State} (hc : s.cfgv = false)
include hc

theorem frameEnd_of_unconfigured : frameEnd s = .error .notConfigured 0 s := if_pos hc

theorem parityEnd_of_unconfigured : parityEnd s = .error .notConfigured 0 s := if_pos hc

theorem unframeEnd_of_unconfigured : unframeEnd s = .error .notConfigured 0 s := if_pos hc

theorem reconEnd_of_unconfigured : reconEnd s = .error .notConfigured 0 s := if_pos hc

theorem gendecEnd_of_unconfigured : gendecEnd s = .error .notConfigured 0 s := if_pos hc

theorem decodeEnd_of_unconfigured : decodeEnd s = .error .notConfigured 0 s := if_pos hc

/-- R201: FRAME, the first stage, finds it. -/
theorem encodeEnd_of_unconfigured : encodeEnd s = .error .notConfigured 0 s := by
  rw [encodeEnd, frameEnd_of_unconfigured hc, CommandEnd.andThen_error]

end

/-- Settles O40: the check of the configuration comes first in each of these commands. -/
theorem unconfiguredCommandsEndNotConfigured : Obligations.UnconfiguredCommandsEndNotConfigured := by
  intro i s hi hc
  simp only [List.mem_cons, List.not_mem_nil, or_false] at hi
  rcases hi with rfl | rfl | rfl | rfl | rfl | rfl | rfl
  · exact exec_of_error (i := .gendec) (gendecEnd_of_unconfigured hc)
  · exact exec_of_error (i := .recon) (reconEnd_of_unconfigured hc)
  · exact exec_of_error (i := .frame) (frameEnd_of_unconfigured hc)
  · exact exec_of_error (i := .parity) (parityEnd_of_unconfigured hc)
  · exact exec_of_error (i := .unframe) (unframeEnd_of_unconfigured hc)
  · exact exec_of_error (i := .encode) (encodeEnd_of_unconfigured hc)
  · exact exec_of_error (i := .decode) (decodeEnd_of_unconfigured hc)

end Sys2Proof.Machine
end

section
/-! # Which errors a command raises, and what it has changed by then (O21, O22; R221, R225)

`CommandEnd.FailsBy` says both of a command's end: its error is one of those R221 gives the command, and when it is one that a
check finds, the operation has changed nothing. -/

namespace Sys2Proof.Machine

open Sys2Proof.Claims

/-- R221, column "raised by", read by command. -/
@[simp] def errorsOf : Instr → List CommandError
  | .nop | .gfmul _ _ | .deinit => []
  | .gfdiv _ _ | .gfinv _ => [.fieldInverseOfZero]
  | .matmul _ _ _ => [.illegalCommand, .notConfigured]
  | .invert _ _ => [.illegalCommand, .notConfigured, .singularMatrix]
  | .init _ _ _ => [.invalidConfiguration]
  | .gendec => [.notConfigured, .tooManyErrors, .noInvertibleSubmatrix]
  | .recon => [.notConfigured, .illegalCommand]
  | .frame | .encode => [.notConfigured, .allocationFailure]
  | .parity => [.notConfigured, .illegalCommand, .missingOperand]
  | .unframe => [.notConfigured, .illegalCommand, .missingOperand, .framingCorruption]
  | .decode => [.notConfigured, .illegalCommand, .tooManyErrors, .noInvertibleSubmatrix, .framingCorruption]

/-- R225: the errors "detected by checks". -/
def checkErrors : List CommandError :=
  [.illegalCommand, .notConfigured, .missingOperand, .fieldInverseOfZero, .allocationFailure]

/-- R221, R225: an end of command `i` from state `s` is no error, or one of those of `i`, with `s` left as it was if a check found
it. -/
def CommandEnd.FailsBy (i : Instr) (s : State) : CommandEnd → Prop
  | .ok _ => True
  | .error e _ t => e ∈ errorsOf i ∧ (e ∈ checkErrors → t = s)

namespace CommandEnd.FailsBy

variable {i j : Instr} {s : State} {e : CommandError} {info : Nat}

theorem unchanged (h : e ∈ errorsOf i) : (CommandEnd.error e info s).FailsBy i s := ⟨h, fun _ => rfl⟩

/-- An error met mid-computation (R225). -/
theorem computed {t : State} (h : e ∈ errorsOf i) (he : e ∉ checkErrors) : (CommandEnd.error e info t).FailsBy i s :=
  ⟨h, fun hcheck => absurd hcheck he⟩

/-- A stage's errors are among those of the command it is a stage of. -/
theorem mono {c : CommandEnd} (h : c.FailsBy i s) (hij : ∀ e ∈ errorsOf i, e ∈ errorsOf j) : c.FailsBy j s := by
  cases c with
  | ok t => trivial
  | error e info t => exact ⟨hij e h.1, h.2⟩

end CommandEnd.FailsBy

/-! ## Command by command -/

section
variable {s : State}

theorem scalarResult_failsBy {i : Instr} (h : .fieldInverseOfZero ∈ errorsOf i) (v : Option Byte) :
    (scalarResult s v).FailsBy i s := by
  cases v with
  | some x => trivial
  | none => exact .unchanged h

theorem matmulEnd_failsBy (dst s1 s2 : Nat) (s : State) : (matmulEnd dst s1 s2 s).FailsBy (.matmul dst s1 s2) s := by
  unfold matmulEnd
  split_ifs
  · exact .unchanged (by simp)
  · exact .unchanged (by simp)
  · trivial
  · exact .unchanged (by simp)

theorem invertEnd_failsBy (dst s1 : Nat) (s : State) : (invertEnd dst s1 s).FailsBy (.invert dst s1) s := by
  unfold invertEnd
  dsimp only
  split_ifs
  · exact .unchanged (by simp)
  · exact .unchanged (by simp)
  · split
    · trivial
    · exact .computed (by simp) (by decide)
  · exact .unchanged (by simp)

theorem initEnd_failsBy (m k : Nat) (strat : Strategy) (s : State) : (initEnd m k strat s).FailsBy (.init m k strat) s := by
  by_cases h : ConfigurationAccepted s.params m k strat
  · rw [initEnd_of_accepted h]; trivial
  · rw [initEnd_of_refused h]; exact .computed (by simp) (by decide)

theorem gendecEnd_failsBy (s : State) : (gendecEnd s).FailsBy .gendec s := by
  rcases gendecEnd_cases s with ⟨-, h⟩ | ⟨e, info, m, rfl | rfl, -, h⟩ | ⟨m, -, h⟩
  · rw [h]; exact .unchanged (by simp)
  · rw [h]; exact .computed (by simp) (by decide)
  · rw [h]; exact .computed (by simp) (by decide)
  · rw [h]; trivial

theorem reconEnd_failsBy (s : State) : (reconEnd s).FailsBy .recon s := by
  unfold reconEnd
  split_ifs
  · exact .unchanged (by simp)
  · exact .unchanged (by simp)
  · exact .unchanged (by simp)
  · trivial

theorem frameEnd_failsBy (s : State) : (frameEnd s).FailsBy .frame s := by
  unfold frameEnd
  dsimp only
  split_ifs
  · exact .unchanged (by simp)
  · exact .unchanged (by simp)
  · trivial

theorem parityEnd_failsBy (s : State) : (parityEnd s).FailsBy .parity s := by
  unfold parityEnd
  split_ifs
  · exact .unchanged (by simp)
  · exact .unchanged (by simp)
  · split
    · exact .unchanged (by simp)
    · trivial

theorem unframeEnd_failsBy (s : State) : (unframeEnd s).FailsBy .unframe s := by
  unfold unframeEnd
  split_ifs
  · exact .unchanged (by simp)
  · exact .unchanged (by simp)
  · split
    · exact .unchanged (by simp)
    · split
      · exact .unchanged (by simp)
      · trivial

/-- R201: PARITY cannot fail after FRAME, so ENCODE fails as FRAME does. -/
theorem encodeEnd_failsBy (h : s.Inv) : (encodeEnd s).FailsBy .encode s := by
  have hframe := frameEnd_failsBy s
  unfold encodeEnd
  rcases frameEnd_cases s with ⟨e, hend⟩ | ⟨hc, hfits, hend⟩
  · rw [hend] at hframe ⊢
    exact hframe.mono (by simp)
  · rw [hend, CommandEnd.andThen_ok, parityEnd_withFrame h hc hfits]
    trivial

/-- R192: with a legal length and every data fragment present UNFRAME can fail in its scan only. -/
theorem unframeEnd_of_present (hc : ¬s.cfgv = false) (hl : s.lengthLegal = true) (hpresent : s.firstMissing = none) :
    (∃ c, unframeEnd s = .error .framingCorruption c s) ∨ ∃ t, unframeEnd s = .ok t := by
  rw [unframeEnd, if_neg hc, if_neg (by simp [hl]), hpresent]
  dsimp only
  split
  · exact .inl ⟨_, rfl⟩
  · exact .inr ⟨_, rfl⟩

/-- R202: DECODE fails in its checks, as GENDEC does, or in UNFRAME's scan: RECON has filled every hole by then. -/
theorem decodeEnd_failsBy (h : s.Inv) : (decodeEnd s).FailsBy .decode s := by
  by_cases hc : s.cfgv = false
  · rw [decodeEnd_of_unconfigured hc]; exact .unchanged (by simp)
  rcases hl : s.lengthLegal with _ | _
  · rw [decodeEnd_of_illegal_length (by simpa using hc) hl]; exact .unchanged (by simp)
  rcases gendecEnd_synthesis_cases hc with ⟨e, info, t, -, hend⟩ | ⟨didx, B, V, he, hs, -⟩
  · have hgendec := gendecEnd_failsBy s
    rw [decodeEnd_of_gendec_error hc hl hend, ← hend]
    exact hgendec.mono (by simp)
  · obtain ⟨-, hkm, -⟩ := h.configured hc
    rw [decodeEnd_of_synthesis hc hl he hs]
    rcases unframeEnd_of_present (s := s.withReconstruction didx B V) (by simpa using hc) (by simpa using hl)
      (withReconstruction_firstMissing hkm didx B V) with ⟨c, hend⟩ | ⟨t, hend⟩
    · rw [hend]; exact .computed (by simp) (by decide)
    · rw [hend]; trivial

theorem commandEnd_failsBy (h : s.Inv) (i : Instr) : (commandEnd i s).FailsBy i s := by
  cases i with
  | nop => trivial
  | gfmul a b => trivial
  | gfdiv a b => exact scalarResult_failsBy (by simp) _
  | gfinv a => exact scalarResult_failsBy (by simp) _
  | matmul dst s1 s2 => exact matmulEnd_failsBy dst s1 s2 s
  | invert dst s1 => exact invertEnd_failsBy dst s1 s
  | init m k strat => exact initEnd_failsBy m k strat s
  | deinit => trivial
  | gendec => exact gendecEnd_failsBy s
  | recon => exact reconEnd_failsBy s
  | frame => exact frameEnd_failsBy s
  | parity => exact parityEnd_failsBy s
  | unframe => exact unframeEnd_failsBy s
  | encode => exact encodeEnd_failsBy h
  | decode => exact decodeEnd_failsBy h

end

/-! ## The obligations -/

/-- R221, R225: an error a command ended with is one of its own, raised on its unchanged state if a check found it. -/
theorem exec_failed_cases {i : Instr} {s t : State} {e : CommandError} (h : s.Inv) (hexec : exec i s = .next t)
    (he : t.err = .failed e) :
    ∃ info u, t = u.raise e info ∧ e ∈ errorsOf i ∧ (e ∈ checkErrors → u = s) := by
  obtain rfl := exec_next_iff.1 hexec
  obtain ⟨info, u, hend⟩ := CommandEnd.next_err_failed.1 he
  have hfails := commandEnd_failsBy h i
  rw [hend] at hfails
  obtain ⟨hmem, hcheck⟩ := hfails
  exact ⟨info, u, congrArg CommandEnd.next hend, hmem, hcheck⟩

/-- Settles O21: `errorsOf`, read by error. -/
theorem errorsComeFromTheirCommandsOnly : Obligations.ErrorsComeFromTheirCommandsOnly := by
  intro i s t e hinv hexec he
  obtain ⟨-, -, -, hmem, -⟩ := exec_failed_cases hinv hexec he
  cases i <;> simp only [errorsOf, List.mem_cons, List.not_mem_nil, or_false] at hmem
  case gfdiv a b => obtain rfl := hmem; exact .inr ⟨a, b, rfl⟩
  case gfinv a => obtain rfl := hmem; exact .inl ⟨a, rfl⟩
  case matmul dst s1 s2 =>
    obtain rfl | rfl := hmem
    · exact .inr (.inl ⟨dst, s1, s2, rfl⟩)
    · exact .inr (.inl ⟨dst, s1, s2, rfl⟩)
  case invert dst s1 =>
    obtain rfl | rfl | rfl := hmem
    · exact .inr (.inr ⟨dst, s1, rfl⟩)
    · exact .inr (.inr ⟨dst, s1, rfl⟩)
    · exact ⟨dst, s1, rfl⟩
  case init m k strat => obtain rfl := hmem; exact ⟨m, k, strat, rfl⟩
  case gendec =>
    obtain rfl | rfl | rfl := hmem
    · exact .inl (by decide)
    · exact .inl rfl
    · exact .inl rfl
  case recon =>
    obtain rfl | rfl := hmem
    · exact .inl (by decide)
    · exact .inl (by decide)
  case frame =>
    obtain rfl | rfl := hmem
    · exact .inl (by decide)
    · exact .inl rfl
  case parity =>
    obtain rfl | rfl | rfl := hmem
    · exact .inl (by decide)
    · exact .inl (by decide)
    · exact .inl rfl
  case unframe =>
    obtain rfl | rfl | rfl | rfl := hmem
    · exact .inl (by decide)
    · exact .inl (by decide)
    · exact .inr rfl
    · exact .inl rfl
  case encode =>
    obtain rfl | rfl := hmem
    · exact .inl (by decide)
    · exact .inr rfl
  case decode =>
    obtain rfl | rfl | rfl | rfl | rfl := hmem
    · exact .inl (by decide)
    · exact .inl (by decide)
    · exact .inr rfl
    · exact .inr rfl
    · exact .inr rfl

/-- Settles O22: the report of an error on the unchanged state; `EINFO` holds the detail. -/
theorem checkErrorsChangeNothingElse : Obligations.CheckErrorsChangeNothingElse := by
  intro i s t e hinv hexec he hcheck
  obtain ⟨info, u, rfl, -, hsame⟩ := exec_failed_cases hinv hexec he
  obtain rfl := hsame hcheck
  have hinfo : BitVec.ofNat 32 (u.raise e info).einfo.toNat = BitVec.ofNat 32 info :=
    (BitVec.ofNat_toNat ..).trans (BitVec.setWidth_eq _)
  rw [errorEnd, hinfo]
  rfl

end Sys2Proof.Machine
end

section
/-! # Every command ends (O9; R72, R259)

While a command runs, each step ends it or uses up one of the transactions it keeps waiting. -/

namespace Sys2Proof.Machine

/-- R71, R75, R251: an event served while a command runs is a reset, or leaves the command running as it was. -/
theorem serve_of_busy {s : State} (hbusy : s.busy = true) (e : HostEvent) :
    (s.serve e).busy = false ∨ (s.serve e).busy = true ∧ (s.serve e).busyLeft = s.busyLeft := by
  rcases serve_cases s e with ⟨r, hr⟩ | ⟨addr, v, t, -, hwrite, -⟩ | ⟨-, hr⟩
  · rw [hr]
    exact .inr ⟨hbusy, rfl⟩
  · rw [hostWrite_of_busy hbusy] at hwrite
    cases hwrite
  · rw [hr]
    exact .inl rfl

theorem runCommand_clears_busy (s : State) : ∃ t, runCommand s = .next t ∧ t.busy = false := by
  rcases runCommand_cases s with ⟨i, -, h⟩ | ⟨d, -, h⟩
  · exact ⟨_, h, CommandEnd.next_busy _⟩
  · exact ⟨_, h, rfl⟩

/-- R72: the measure that bounds a command: a step ends it or lowers `busyLeft` by one. -/
theorem step_of_busy_progress {s : State} (hbusy : s.busy = true) :
    ∃ t, step s = .next t ∧ (t.busy = false ∨ t.busy = true ∧ s.busyLeft = t.busyLeft + 1) := by
  rcases step_cases s with ⟨-, -, h⟩ | ⟨left, e, rest, -, hleft, -, h⟩ | ⟨e, rest, hidle, -, -⟩ | ⟨hidle, -, -⟩
  · obtain ⟨t, hrun, hend⟩ := runCommand_clears_busy s
    exact ⟨t, h.trans hrun, .inl hend⟩
  · have hserve := serve_of_busy (s := { s with host := rest, busyLeft := left }) hbusy e
    exact ⟨_, h, hserve.imp_right fun ⟨hb, hl⟩ => ⟨hb, by rw [hleft, hl]⟩⟩
  · exact absurd (hbusy.symm.trans hidle) (by decide)
  · exact absurd (hbusy.symm.trans hidle) (by decide)

theorem run_succ_of_step {M : Host.Core} {s t : M.State} (h : M.step s = .next t) (n : Nat) :
    M.run (n + 1) s = M.run n t := by
  rw [Host.Core.run, h]

/-- Settles O9, by induction on the transactions the command still keeps waiting. -/
theorem everyCommandEnds : Obligations.EveryCommandEnds := by
  intro s hbusy
  induction hleft : s.busyLeft generalizing s with
  | zero =>
    obtain ⟨t, hstep, hend | ⟨-, hlow⟩⟩ := step_of_busy_progress hbusy
    · exact ⟨1, t, Nat.le_refl 1, run_succ_of_step (M := core) hstep 0, hend⟩
    · omega
  | succ left ih =>
    obtain ⟨t, hstep, hend | ⟨hb, hlow⟩⟩ := step_of_busy_progress hbusy
    · exact ⟨1, t, by omega, run_succ_of_step (M := core) hstep 0, hend⟩
    · obtain ⟨n, u, hn, hrun, hend⟩ := ih t hb (by omega)
      exact ⟨n + 1, u, by omega, (run_succ_of_step (M := core) hstep n).trans hrun, hend⟩

end Sys2Proof.Machine
end

section
/-! # Memory stays canonical (O58)

Every write of memory is `fill`, a block of fills, or `forgetG`, each of which keeps the canonical form whatever it writes and
wherever; so each command's operation does, from any state. -/

namespace Sys2Proof.Machine

/-! ## The commands -/

section
variable {s : State}

theorem scalarResult_mem (s : State) (v : Option Byte) : (scalarResult s v).state.mem = s.mem := by cases v <;> rfl

theorem matmulEnd_mem_wf (h : s.mem.wf) (dst s1 s2 : Nat) : (matmulEnd dst s1 s2 s).state.mem.wf := by
  unfold matmulEnd
  split_ifs
  · exact h
  · exact h
  · exact Memory.fillBlock_wf h _ _ _ _ _
  · exact h

theorem invertEnd_mem_wf (h : s.mem.wf) (dst s1 : Nat) : (invertEnd dst s1 s).state.mem.wf := by
  unfold invertEnd
  dsimp only
  split_ifs
  · exact h
  · exact h
  · split
    · exact Memory.fillBlock_wf h _ _ _ _ _
    · exact Memory.fillBlock_wf h _ _ _ _ _
  · exact h

theorem unconfigure_mem_wf (h : s.mem.wf) : s.unconfigure.mem.wf := h.filter _

theorem initEnd_mem_wf (h : s.mem.wf) (m k : Nat) (strat : Strategy) : (initEnd m k strat s).state.mem.wf := by
  unfold initEnd
  split_ifs
  · exact unconfigure_mem_wf h
  · exact Memory.fillBlock_wf (unconfigure_mem_wf h) _ _ _ _ _

theorem forgetSynthesis_wf {m : Memory} (h : m.wf) (k : Nat) : (m.forgetSynthesis k).wf :=
  Memory.fillBlock_wf (Memory.fillBlock_wf (Memory.fill_wf h _ _ _) _ _ _ _ _) _ _ _ _ _

theorem writeSynthesis_wf {m : Memory} (h : m.wf) (k nerrs : Nat) (didx : List Nat) (B Binv : Matrix)
    (rows : Nat → Nat → Byte) : (m.writeSynthesis k nerrs didx B Binv rows).wf :=
  Memory.fillBlock_wf (Memory.fillBlock_wf (Memory.fillBlock_wf (Memory.fill_wf h _ _ _) _ _ _ _ _) _ _ _ _ _) _ _ _ _ _

theorem gendecEnd_mem_wf (h : s.mem.wf) : (gendecEnd s).state.mem.wf := by
  have hdescriptor : s.writeDescriptor.mem.wf := Memory.fill_wf h _ _ _
  unfold gendecEnd
  split_ifs
  · exact h
  · unfold gendecBody
    dsimp only
    split_ifs
    · exact hdescriptor
    · split
      · exact forgetSynthesis_wf hdescriptor _
      · exact writeSynthesis_wf hdescriptor _ _ _ _ _ _

theorem rebuild_mem_wf (h : s.mem.wf) (n : Nat) : (s.rebuild n).mem.wf := by
  induction n with
  | zero => exact h
  | succ p ih => exact Memory.fill_wf ih _ _ _

theorem reconEnd_mem_wf (h : s.mem.wf) : (reconEnd s).state.mem.wf := by
  unfold reconEnd
  split_ifs
  · exact h
  · exact h
  · exact h
  · exact rebuild_mem_wf h _

theorem frameEnd_mem_wf (h : s.mem.wf) : (frameEnd s).state.mem.wf := by
  rcases frameEnd_cases s with ⟨e, hs⟩ | ⟨-, -, hs⟩
  · rw [hs]
    exact h
  · rw [hs]
    exact Memory.fillBlock_wf h _ _ _ _ _

theorem parityEnd_mem_wf (h : s.mem.wf) : (parityEnd s).state.mem.wf := by
  rcases parityEnd_cases s with ⟨e, info, hs⟩ | hs
  · rw [hs]
    exact h
  · rw [hs]
    exact Memory.fillBlock_wf h _ _ _ _ _

theorem unframeEnd_mem_wf (h : s.mem.wf) : (unframeEnd s).state.mem.wf := by
  unfold unframeEnd
  split_ifs
  · exact h
  · exact h
  · split
    · exact h
    · split
      · exact h
      · exact Memory.fill_wf h _ _ _

/-- A second stage starts from the memory of a first one that ended `OK`. -/
theorem CommandEnd.andThen_mem_wf {c : CommandEnd} {f : State → CommandEnd} (h : c.state.mem.wf)
    (hf : ∀ t : State, t.mem.wf → (f t).state.mem.wf) : (c.andThen f).state.mem.wf := by
  cases c with
  | ok t => exact hf t h
  | error e info t => exact h

theorem CommandEnd.clearDvOnError_mem (c : CommandEnd) : c.clearDvOnError.state.mem = c.state.mem := by cases c <;> rfl

theorem decodeEnd_mem_wf (h : s.mem.wf) : (decodeEnd s).state.mem.wf := by
  unfold decodeEnd
  split_ifs
  · exact h
  · exact h
  · refine CommandEnd.andThen_mem_wf (CommandEnd.andThen_mem_wf (gendecEnd_mem_wf h) ?_) fun t ht => ?_
    · exact fun _ => reconEnd_mem_wf
    · rw [CommandEnd.clearDvOnError_mem]
      exact unframeEnd_mem_wf ht

/-- Every command's own operation keeps the canonical form. -/
theorem commandEnd_mem_wf (h : s.mem.wf) (i : Instr) : (commandEnd i s).state.mem.wf := by
  cases i with
  | nop => exact h
  | gfmul a b => exact h
  | gfdiv a b => exact (scalarResult_mem s (gdiv s.params.poly a b)).symm ▸ h
  | gfinv a => exact (scalarResult_mem s (inverse s.params.poly a)).symm ▸ h
  | matmul dst s1 s2 => exact matmulEnd_mem_wf h dst s1 s2
  | invert dst s1 => exact invertEnd_mem_wf h dst s1
  | init m k strat => exact initEnd_mem_wf h m k strat
  | deinit => exact unconfigure_mem_wf h
  | gendec => exact gendecEnd_mem_wf h
  | recon => exact reconEnd_mem_wf h
  | frame => exact frameEnd_mem_wf h
  | parity => exact parityEnd_mem_wf h
  | unframe => exact unframeEnd_mem_wf h
  | encode => exact CommandEnd.andThen_mem_wf (frameEnd_mem_wf h) fun _ => parityEnd_mem_wf
  | decode => exact decodeEnd_mem_wf h

end

/-! ## Reports, transactions, steps -/

/-- R224: the report of an end leaves memory alone. -/
theorem CommandEnd.next_mem (c : CommandEnd) : c.next.mem = c.state.mem := by cases c <;> rfl

theorem writeReg_mem {s t : State} {r : RegName} {v : Word} (h : s.writeReg r v = some t) : t.mem = s.mem := by
  rcases writeReg_cases h with ⟨-, ht⟩ | ⟨-, ht⟩ | ht
  · rw [ht, State.startCommand_mem]
  · rw [ht]
  · rw [ht]

theorem hostWrite_mem_wf {s t : State} (h : s.mem.wf) {addr : Word} {v : Data} (hw : s.hostWrite addr v = some t) :
    t.mem.wf := by
  rcases hostWrite_cases hw with ⟨r, hr⟩ | ⟨rfl, -⟩
  · exact (writeReg_mem hr).symm ▸ h
  · exact Memory.fill_wf h _ _ _

/-- Settles O58: a step changes memory by a command's operation, by a stored host write, or by a reset, which empties it. -/
theorem stepKeepsMemoryCanonical : Obligations.StepKeepsMemoryCanonical := by
  intro s t h hstep
  cases stepCase_of_step hstep with
  | command i => exact (CommandEnd.next_mem (commandEnd i s)).symm ▸ commandEnd_mem_wf h i
  | illegal => exact h
  | reset u => exact List.Pairwise.nil
  | stored addr v rest u hbusy hhost hwrite => exact (hostWrite_mem_wf (s := { s with host := rest }) h hwrite : u.mem.wf)
  | answered => exact h

end Sys2Proof.Machine
end
